-- ==== Sys2Proof/Config.lean ====
section
/-! DEFINITION. The parameters of the block as one configuration record (spec/00_scope.md R8), the values the spec fixes
for them, and the values the spec leaves unspecified, as constants with no body. Every operation that reads a parameter
reads it from the record, which it takes as its last argument and which is `Config.engine` where none is given. -/

namespace Sys2Proof.Config

/-- The parameters of a 16-bit CRC of the catalogue model (spec/40_checksum.md R119). -/
structure CrcParams where
  poly   : BitVec 16
  init   : BitVec 16
  refin  : Bool
  refout : Bool
  xorout : BitVec 16
deriving DecidableEq, Repr

/-- The parameters that bound a type (R8). -/
structure Sizes where
  /-- `MAX_ITEMS`, the slots of the registry -/
  maxItems : Nat
  /-- `TIME_W`, the bits of a clock value -/
  timeW    : Nat
  /-- `APP_AW`, the bits of an application-memory address -/
  appAW    : Nat
deriving DecidableEq, Repr

/-- The values the spec fixes for the parameters that bound a type (R8). The types of the instructions and of the state are
closed types, and are made with these bounds: they hold the registry, the clock and the addresses of every record that
stays within them (log entry 22). -/
abbrev sizes : Sizes := { maxItems := 8, timeW := 32, appAW := 32 }

/-- The linear `PACE` curve from `lo` at an empty backlog to `hi` at a backlog of `size` bytes (R205). -/
def linear (lo hi size b : Nat) : Nat := lo + (hi - lo) * b / size

/-- The configuration record of the block (R8). `MAX_PAYLOAD` and `MAX_ITEM_SIZE` are computed from it. -/
structure Params extends Sizes where
  /-- the registry, a clock value and an address fit the types made for them -/
  fits        : maxItems ≤ sizes.maxItems ∧ timeW ≤ sizes.timeW ∧ appAW ≤ sizes.appAW
  /-- `MAGIC0`, `MAGIC1` -/
  magic0      : BitVec 8
  magic1      : BitVec 8
  /-- `BUF_SIZE`, in bytes, of the input buffer and of the output buffer -/
  bufSize     : Nat
  /-- `HDR_LEN` -/
  hdrLen      : Nat
  /-- `CRC_LEN` -/
  crcLen      : Nat
  /-- `AUTOSEND_MIN`, `AUTOSEND_MAX`, in the unit of `now` -/
  autosendMin : Nat
  autosendMax : Nat
  /-- `PACE`, from the backlog to time units: linear between the two bounds unless another curve is given (R205) -/
  pace        : Nat → Nat := linear autosendMin autosendMax bufSize
  /-- `PACE` is non-decreasing on the backlogs there are (R205) -/
  paceMono    : ∀ a b, a ≤ b → b ≤ bufSize → pace a ≤ pace b
  /-- `PACE` has its values in `[AUTOSEND_MIN, AUTOSEND_MAX]` on the backlogs there are (R205) -/
  paceRange   : ∀ b, b ≤ bufSize → autosendMin ≤ pace b ∧ pace b ≤ autosendMax
  /-- `NULL`, as a number -/
  null        : Nat
  /-- `CRC` -/
  crc         : CrcParams

/-- `MAX_PAYLOAD` = `BUF_SIZE - HDR_LEN - CRC_LEN` (R8, R84). -/
def Params.maxPayload (p : Params) : Nat := p.bufSize - p.hdrLen - p.crcLen

/-- `MAX_ITEM_SIZE` = `MAX_PAYLOAD - 1` (R8, R25). -/
def Params.maxItemSize (p : Params) : Nat := p.maxPayload - 1

/-- CRC-16/KERMIT, the variant the spec fixes (R8, R111, R119). -/
def kermit : CrcParams := { poly := 0x1021, init := 0x0000, refin := true, refout := true, xorout := 0x0000 }

/-- The linear curve is non-decreasing (R205). -/
theorem linear_mono (lo hi size : Nat) {a b : Nat} (h : a ≤ b) : linear lo hi size a ≤ linear lo hi size b :=
  Nat.add_le_add_left (Nat.div_le_div_right (Nat.mul_le_mul_left _ h)) lo

/-- The linear curve stays between its bounds (R205). -/
theorem linear_range {lo hi size b : Nat} (h : lo ≤ hi) (hb : b ≤ size) :
    lo ≤ linear lo hi size b ∧ linear lo hi size b ≤ hi := by
  have hd : (hi - lo) * b / size ≤ hi - lo :=
    Nat.div_le_of_le_mul (by rw [Nat.mul_comm]; exact Nat.mul_le_mul_right _ hb)
  exact ⟨Nat.le_add_right _ _, (Nat.add_le_add_left hd lo).trans_eq (Nat.add_sub_of_le h)⟩

/-- The values the spec fixes for the parameters (R8): the machine is the instance at this record (log entry 22). -/
def engine : Params :=
  { toSizes := sizes
    fits := ⟨Nat.le_refl _, Nat.le_refl _, Nat.le_refl _⟩
    paceMono := fun _ _ h _ => linear_mono _ _ _ h
    paceRange := fun _ h => linear_range (by decide) h
    magic0 := 0x55
    magic1 := 0xAA
    bufSize := 64
    hdrLen := 5
    crcLen := 2
    autosendMin := 500
    autosendMax := 8000
    null := 0
    crc := kermit }

/-- The null application-memory address, which unbinds (R72). -/
def Params.nullAddr (p : Params) : BitVec sizes.appAW := BitVec.ofNat sizes.appAW p.null

/-- What a byte of application memory that nothing has written reads as.
DESIGN CHOICE, unsafe (log entry 11): the spec leaves it unspecified (R63). -/
def unwritten : BitVec 8 := 0

/-- The value of `crcAcc` that R43 leaves unspecified after `begin` and after a reset input, one for each such moment
(log entry 9). No body: nothing can be proved of its values. -/
opaque freeCrc : Nat → BitVec 16

/-- What PACE returns for a backlog above the buffer's size, for which R205 gives no value (log entry 31). No body:
nothing can be proved of its values. -/
opaque freePace : Nat → Nat

end Sys2Proof.Config
end

