-- ==== Sys2Proof/Word.lean ====
section
/-! DEFINITION. The words of the block: the widths the spec gives its bytes, checksums, addresses and times
(spec/00_scope.md R8, spec/10_state.md R20 to R38). -/

namespace Sys2Proof

/-- A byte: of the wire, of a buffer, of application memory; also an id, a serial or a size register. -/
abbrev Byte := BitVec 8

/-- A 16-bit checksum (R110). -/
abbrev Half := BitVec 16

/-- An application-memory address of `APP_AW` bits (R8). -/
abbrev Addr := BitVec Config.sizes.appAW

/-- A clock value of `TIME_W` bits (R8). -/
abbrev Time := BitVec Config.sizes.timeW

end Sys2Proof
end

