-- ==== Sys2Proof/Machine/Checksum.lean ====
section
/-! DEFINITION. The CRC-16 checksum generator (spec/40_checksum.md R110 to R119): the bit-serial unit, the byte-wise
table form, the catalogue form, and the two bytes a checksum is sent as. Each takes the parameters of the CRC, which are
those of `Config.engine` where none are given. -/

namespace Sys2Proof.Machine

/-- One shift step of the unit. Of a reflected CRC, as this block's is: a logical right shift, with the shift constant,
the polynomial with its bits in the other order, added when bit 0 falls out (R111). Of one that is not: a left shift, with
the polynomial added when bit 15 falls out (R119). -/
def crcBit (acc : Half) (p : Config.CrcParams := Config.engine.crc) : Half :=
  match p.refin with
  | true => if acc.getLsbD 0 then (acc >>> 1) ^^^ p.poly.reverse else acc >>> 1
  | false => if acc.getLsbD 15 then (acc <<< 1) ^^^ p.poly else acc <<< 1

/-- `n` shift steps (R111). -/
def crcBits (n : Nat) (acc : Half) (p : Config.CrcParams := Config.engine.crc) : Half :=
  match n with
  | 0 => acc
  | n + 1 => crcBits n (crcBit acc p) p

/-- `CRC_INIT`: the initial value of the accumulator, `0x0000` for this block (R114). -/
def crcStart (p : Config.CrcParams := Config.engine.crc) : Half :=
  match p.refin with
  | true => p.init.reverse
  | false => p.init

/-- A byte at the end of the accumulator where its bits are taken: the low end of a reflected CRC (R111, R119). -/
def crcByteIn (b : Byte) (p : Config.CrcParams := Config.engine.crc) : Half :=
  match p.refin with
  | true => b.setWidth 16
  | false => b.setWidth 16 <<< 8

/-- `CRC_BYTE(b)`: the accumulator after one more byte (R111, R114). -/
def crcNext (acc : Half) (b : Byte) (p : Config.CrcParams := Config.engine.crc) : Half := crcBits 8 (acc ^^^ crcByteIn b p) p

/-- The accumulator after the bytes in sequence order, from a given value (R111). -/
def crcFrom (acc : Half) (s : List Byte) (p : Config.CrcParams := Config.engine.crc) : Half :=
  match s with
  | [] => acc
  | b :: rest => crcFrom (crcNext acc b p) rest p

/-- The result read from the accumulator. For this block it is the accumulator itself: no final XOR and no swap (R111). -/
def crcResult (acc : Half) (p : Config.CrcParams := Config.engine.crc) : Half :=
  match p.refin == p.refout with
  | true => acc ^^^ p.xorout
  | false => acc.reverse ^^^ p.xorout

/-- `checksum16(s)` (R110, R111). -/
def checksum16 (s : List Byte) (p : Config.CrcParams := Config.engine.crc) : Half := crcResult (crcFrom (crcStart p) s p) p

/-- Bits 7:0 of a checksum, the byte sent first (R64, R82). -/
def checksumLow (c : Half) : Byte := c.setWidth 8

/-- Bits 15:8 of a checksum, the byte sent second (R64, R82). -/
def checksumHigh (c : Half) : Byte := (c >>> 8).setWidth 8

/-- The received checksum, assembled low byte first (R82). -/
def checksumOf (low high : Byte) : Half := low.setWidth 16 ||| (high.setWidth 16 <<< 8)

/-- `T[i]` of the byte-wise form of this block's CRC: the value of R111 for the one-byte sequence `[i]` (R113). -/
def crcTable (i : Byte) : Half := checksum16 [i]

/-- One byte of the byte-wise form (R113). -/
def crcNextByTable (acc : Half) (b : Byte) : Half :=
  (acc >>> 8) ^^^ crcTable ((acc ^^^ b.setWidth 16).setWidth 8)

/-- The byte-wise table form of this block's checksum (R113). -/
def checksum16ByTable (s : List Byte) : Half := s.foldl crcNextByTable crcStart

/-- One shift step of the catalogue procedure, most significant bit first (R119). -/
def catalogueBit (poly acc : Half) : Half :=
  if acc.getLsbD 15 then (acc <<< 1) ^^^ poly else acc <<< 1

/-- `n` shift steps of the catalogue procedure (R119). -/
def catalogueBits (poly : Half) : Nat → Half → Half
  | 0, acc => acc
  | n + 1, acc => catalogueBits poly n (catalogueBit poly acc)

/-- One byte of the catalogue procedure (R119). -/
def catalogueNext (p : Config.CrcParams) (acc : Half) (b : Byte) : Half :=
  catalogueBits p.poly 8 (acc ^^^ ((if p.refin then b.reverse else b).setWidth 16 <<< 8))

/-- The catalogue procedure for a 16-bit CRC with any parameters (R119). -/
def catalogueCrc (p : Config.CrcParams) (s : List Byte) : Half :=
  let acc := s.foldl (catalogueNext p) p.init
  (if p.refout then acc.reverse else acc) ^^^ p.xorout

end Sys2Proof.Machine
end

