-- ==== Sys2Proof/Syntax.lean ====
section
/-! DEFINITION. The operations of the block: one constructor of `Instr` for every row of spec/opcode_table.json
(commands, the pseudo-operation, the two wire formats, the internal operations, the hooks, the platform calls), and
the command port through which the application issues the commands (spec/30_encoding.md R80 to R96). -/

namespace Sys2Proof

/-- A registry slot index, `0..7` (R21). -/
abbrev SlotIx := Fin Config.sizes.maxItems

/-- What the application presents at the command port for one command (R90). The data port is a byte sequence; a
command that does not use a port ignores it (R91). -/
structure PortCmd where
  op     : Byte
  id     : Byte := 0
  region : Addr := 0
  size   : Byte := 0
  flag   : Bool := false
  now    : Time := 0
  data   : List Byte := []
deriving DecidableEq, Repr

/-- The operations of spec/opcode_table.json. -/
inductive Instr where
  /-- BIND, `bind(id, region, size, autoSend)` (R132). -/
  | bind (id : Byte) (region : Addr) (size : Byte) (autoSend : Bool)
  /-- BEGIN, `begin(waitFirst)` (R216). -/
  | beginCmd (waitFirst : Bool)
  /-- STEP, `step(now)` (R218). -/
  | stepCmd (now : Time)
  /-- RSER, `remoteSerial()` (R220). -/
  | rser
  /-- ISRX, `isReceived(id)` (R136). -/
  | isrx (id : Byte)
  /-- CLRX, `clearReceived(id)` (R137). -/
  | clrx (id : Byte)
  /-- TAKE, `takeFresh(id)` (R138). -/
  | take (id : Byte)
  /-- TAKEP, `takeFresh(region)` (R139). -/
  | takep (region : Addr)
  /-- SEND, `sendNow(id)` (R140). -/
  | send (id : Byte)
  /-- SENDP, `sendNow(pointer)` (R141). -/
  | sendp (region : Addr)
  /-- ENQ, `enqueuePayload(id, data, length)` (R164). -/
  | enq (id : Byte) (data : List Byte) (length : Byte)
  /-- RESERVED, every other operation code (R93). -/
  | reserved (op : Byte)
  /-- UNBIND, `unbind(id)`, an exact abbreviation of `bind(id, NULL, 0, false)` (R96). -/
  | unbind (id : Byte)
  /-- FRAME, a whole frame with a matching checksum, as the Reader finds it at the head of its buffer (R80, R180). -/
  | frame (frameId lastSeen : Byte) (payload : List Byte)
  /-- SUBPACKET, one `<type><data>` element of a payload (R85). -/
  | subpacket (typ : Byte) (data : List Byte)
  /-- `checksum16(bytes)` (R110). -/
  | checksum16 (bytes : List Byte)
  /-- `CRC_INIT` (R114). -/
  | crcInit
  /-- `CRC_BYTE(b)` (R114). -/
  | crcByte (b : Byte)
  /-- `lookup(id)` (R130). -/
  | lookup (id : Byte)
  /-- `lookupByRegion(region)` (R131). -/
  | lookupByRegion (region : Addr)
  /-- `markReceived(id, src)` (R134). -/
  | markReceived (id : Byte) (src : List Byte)
  /-- `markToSend(id)` (R135). -/
  | markToSend (id : Byte)
  /-- `DecodePayload(payload)` (R152). -/
  | decodePayload (payload : List Byte)
  /-- `DispatchItem(type, data)` (R155). -/
  | dispatchItem (typ : Byte) (data : List Byte)
  /-- `EncodePayload(autoDue)` (R160). -/
  | encodePayload (autoDue : Bool)
  /-- `Append(slot)` (R161). -/
  | append (slot : SlotIx)
  /-- `Fits(slot)` (R162). -/
  | fits (slot : SlotIx)
  /-- `Fill()` (R172). -/
  | fill
  /-- `Drop(m)` (R172). -/
  | drop (m : Nat)
  /-- `Discard(m)` (R172). -/
  | discard (m : Nat)
  /-- `ReaderPhase()` (R173). -/
  | readerPhase
  /-- `WriterPhase(now)` (R191). -/
  | writerPhase (now : Time)
  /-- `ConstructFrame(now, autoDue)` (R195 to R198). -/
  | constructFrame (now : Time) (autoDue : Bool)
  /-- `TxAttempt()` (R200). -/
  | txAttempt
  /-- `PACE(backlog)` (R205). -/
  | pace (backlog : Nat)
  /-- `BacklogUpdate()` (R206). -/
  | backlogUpdate
  /-- `notify Discard(bytes)` (R236). -/
  | notifyDiscard (bytes : List Byte)
  /-- `UnknownHook(type, rest)` (R238). -/
  | unknownHook (typ : Byte) (rest : List Byte)
  /-- `TransportRead(max)` (R247). -/
  | transportRead (max : Nat)
  /-- `TransportWrite(bytes)` (R248). -/
  | transportWrite (bytes : List Byte)
deriving DecidableEq, Repr

/-- The row of the table is one the application, the peer or a payload can present: it has words (R92, R80, R85).
The internal operations, the hooks and the platform calls have no code (R94, R95). -/
def Instr.hasCode : Instr → Bool
  | .bind _ _ _ _ | .beginCmd _ | .stepCmd _ | .rser | .isrx _ | .clrx _ | .take _ | .takep _ | .send _
  | .sendp _ | .enq _ _ _ | .reserved _ | .unbind _ | .frame _ _ _ | .subpacket _ _ => true
  | .checksum16 _ | .crcInit | .crcByte _ | .lookup _ | .lookupByRegion _ | .markReceived _ _ | .markToSend _
  | .decodePayload _ | .dispatchItem _ _ | .encodePayload _ | .append _ | .fits _ | .fill | .drop _ | .discard _
  | .readerPhase | .writerPhase _ | .constructFrame _ _ | .txAttempt | .pace _ | .backlogUpdate
  | .notifyDiscard _ | .unknownHook _ _ | .transportRead _ | .transportWrite _ => false

/-- A pseudo-operation written as the operation it abbreviates (R96); every other operation is itself. -/
def Instr.expand (i : Instr) (cfg : Config.Params := Config.engine) : Instr :=
  match i with
  | .unbind id => .bind id cfg.nullAddr 0 false
  | i => i

end Sys2Proof
end

