-- ==== Sys2Proof/Machine/State.lean ====
section
/-! DEFINITION. The state of the block and of what it touches, as plain data (spec/10_state.md), the reasons a step can
stop, and the state after hardware reset (R43, R260). INVENTORY.md lists every field with its rule. -/

namespace Sys2Proof.Machine

/-- One registry slot (R21 to R26). -/
structure Slot where
  used        : Bool
  id          : Byte
  region      : Addr
  size        : Byte
  autoSend    : Bool
  received    : Bool
  toSend      : Bool
  wasAutoSent : Bool
deriving DecidableEq, Repr

/-- A free slot, every field cleared (R22, R43). -/
def Slot.free : Slot :=
  { used := false, id := 0, region := 0, size := 0,
    autoSend := false, received := false, toSend := false, wasAutoSent := false }

/-- The error conditions of R231. Nothing stores or transmits a code; they stand in the event log only. -/
inductive ErrorCode where
  | len | crc | magic | full | space | defer | unknown | trunc | arg | notFound
deriving DecidableEq, Repr

/-- The number the spec gives an error condition for use in event logs (R231). -/
def ErrorCode.number : ErrorCode → Nat
  | .len => 1 | .crc => 2 | .magic => 3 | .full => 4 | .space => 5 | .defer => 6
  | .unknown => 7 | .trunc => 8 | .arg => 9 | .notFound => 10

/-- What an operation does that is not a change of the block's state: the outputs of R219, in the order of R224, and
the error conditions met (R231). -/
inductive Event where
  /-- `MemRead(addr, 1)` returned this byte (R62, R161) -/
  | memRead (addr : Addr) (value : Byte)
  /-- `MemWrite(addr, 1, value)` (R62, R134) -/
  | memWrite (addr : Addr) (value : Byte)
  /-- `TransportRead(asked)` returned these bytes (R247) -/
  | rx (asked : Nat) (bytes : List Byte)
  /-- `TransportWrite(offered)` accepted this many (R248) -/
  | tx (offered : List Byte) (accepted : Nat)
  /-- `notify Discard(bytes)` (R236) -/
  | discard (bytes : List Byte)
  /-- `UnknownHook(typ, rest)` (R238) -/
  | unknownHook (typ : Byte) (rest : List Byte)
  /-- a frame was accepted; its `lastSeen` is observed here and nowhere else (R181) -/
  | accepted (frameId lastSeen : Byte)
  /-- an error condition was met (R231) -/
  | error (code : ErrorCode)
deriving DecidableEq, Repr

/-- How the application's hook answers one call (R236, R238, R240): it may write application memory, and it returns a
count (which `notify Discard` ignores); or it never returns. -/
inductive HookAnswer where
  | returns (consumed : Nat) (writes : List (Addr × Byte))
  | hangs
deriving DecidableEq, Repr

/-- What the outside does between operations that is not a command. -/
inductive EnvEvent where
  /-- the application writes a byte of its memory (R10, R60) -/
  | appWrite (addr : Addr) (value : Byte)
  /-- bytes come to rest in the receive transport (R247) -/
  | arrive (bytes : List Byte)
  /-- the receive transport's choices for the reads after those it has announced (R247) -/
  | rxChoices (counts : List Nat)
  /-- the transmit transport's choices for the writes after those it has announced (R248) -/
  | txChoices (counts : List Nat)
  /-- the application's answers to the hook calls after those it has announced (R236, R238) -/
  | hookChoices (answers : List HookAnswer)
  /-- the reset input is asserted (R260) -/
  | reset
deriving DecidableEq, Repr

/-- One input of the machine: a command at the port (R90), or an event of the outside. -/
inductive Input where
  | command (p : PortCmd)
  | env (e : EnvEvent)
deriving DecidableEq, Repr

/-- What the response ports hold after an operation (R90, R91): a port the operation does not write holds no meaning. -/
inductive Response where
  | none
  | bool (b : Bool)
  | val (v : Byte)
deriving DecidableEq, Repr

/-- What an internal operation run as an instruction of its own returned (log entry 7). -/
inductive Result where
  | none
  | slot (s : Option SlotIx)
  | word (w : Half)
  | bool (b : Bool)
  | count (n : Nat)
  | bytes (s : List Byte)
  | consumed (n : Option Nat)
deriving DecidableEq, Repr

/-- Bytes by address in canonical form: addresses strictly rising, no entry equal to what an unlisted address reads. -/
abbrev Memory := List Host.Cell

/-- The whole state: the block's own (the registry, the engine registers, the buffers, the CRC accumulator), its ports,
the byte spaces it touches, and the model's own fields. -/
structure State where
  /-- the Item Registry (R21) -/
  slots : Vector Slot Config.sizes.maxItems
  /-- id of the last constructed frame, 0 if none (R29) -/
  mySerial : Byte
  /-- id of the last accepted frame, 0 if none (R30) -/
  lastRemoteSerial : Byte
  /-- clock value of the last autosend cycle (R31) -/
  lastAutoSendTime : Time
  /-- the "wait for first packet" mode (R32) -/
  waitFirst : Bool
  /-- a valid frame was accepted since reset or `begin` (R33) -/
  gotFirst : Bool
  /-- peak of unaccepted bytes since the last autosend cycle (R37) -/
  backlog : Nat
  /-- `inBuf[0..inCur)` (R34) -/
  inBuf : List Byte
  /-- `outBuf[0..outCur)` (R35) -/
  outBuf : List Byte
  /-- a frame is held (R36) -/
  txPending : Bool
  /-- bytes of the held frame already accepted (R36) -/
  txPos : Nat
  /-- the CRC accumulator (R38) -/
  crcAcc : Half
  /-- the response ports (R90, R91) -/
  rsp : Response
  /-- application memory (R60) -/
  mem : Memory
  /-- the bytes the receive transport holds, oldest first (R247) -/
  rxHeld : List Byte
  /-- the receive transport's choices for the coming reads; none left: all that fit (R97, R247) -/
  rxCounts : List Nat
  /-- the bytes the transmit transport has accepted, in order (R248) -/
  txSent : List Byte
  /-- the transmit transport's choices for the coming writes; none left: all offered (R97, R248) -/
  txCounts : List Nat
  /-- the application's answers to the coming hook calls; none left: the default hook (R236, R238) -/
  hookAnswers : List HookAnswer
  /-- what the outside does next, in order (log entry 1) -/
  inputs : List Input
  /-- the outputs and error conditions so far, in order (R219, R231) -/
  log : List Event
  /-- the value of the last internal operation run as an instruction (log entry 7) -/
  result : Result
  /-- index of the next free value (log entry 9) -/
  freeIdx : Nat
deriving DecidableEq, Repr

/-- Why the machine stops. -/
inductive Fault where
  /-- A hook did not return: the step never completes (R240; spec/93_implementation_defined.md U7). Raised by every
  operation that calls a hook. Safe: nothing is claimed of a run past it. -/
  | hookHangs
  /-- `Drop(m)` with `m = 0` or `m > inCur` (R172 states `1 <= m <= inCur`). Raised by DROP alone. Safe. -/
  | dropRange
  /-- `Discard(m)` with `m = 0` or `m > inCur` (R172). Raised by DISCARD alone. Safe. -/
  | discardRange
  /-- `Append(i)` of a slot that is not used or does not fit (R161). Raised by APPEND alone. Safe. -/
  | appendUnfit
  /-- `TxAttempt()` with no frame held (R200). Raised by TXATTEMPT alone. Safe. -/
  | noHeldFrame
  /-- `EncodePayload` or `ConstructFrame` while a frame is held (R159, R201). Raised by these two alone. Safe. -/
  | frameHeld
deriving DecidableEq, Repr

/-- Why the machine gives a presentation no meaning. -/
inductive Refusal where
  /-- An instruction without a meaning yet. Raised by no arm of this model. Safe. -/
  | notModelled (mnemonic : String)
  /-- The data port of ENQ carries fewer bytes than `cmd_size`: no presentation of R90 (log entry 2). Raised by the
  step. Safe. -/
  | shortData
deriving DecidableEq, Repr

/-- The state right after hardware reset (R43, R260). `crcAcc` and the five header bytes of `outBuf`, which R43 leaves
unspecified, are 0: DESIGN CHOICE, unsafe (log entries 9 and 10). The receive transport, of whose content at reset the
spec says nothing (R247 leaves it to the peer and the line), holds no byte: DESIGN CHOICE, unsafe (log entry 29). No choice
of the transports and no answer of the hooks is announced: the transports move all they can and the default hooks run
(R97, R238) until the outside announces others: DESIGN CHOICE, unsafe (log entry 30). -/
def State.reset : State :=
  { slots := Vector.replicate Config.sizes.maxItems Slot.free
    mySerial := 0
    lastRemoteSerial := 0
    lastAutoSendTime := 0
    waitFirst := false
    gotFirst := false
    backlog := 0
    inBuf := []
    outBuf := List.replicate Config.engine.hdrLen 0
    txPending := false
    txPos := 0
    crcAcc := 0
    rsp := .none
    mem := []
    rxHeld := []
    rxCounts := []
    txSent := []
    txCounts := []
    hookAnswers := []
    inputs := []
    log := []
    result := .none
    freeIdx := 0 }

end Sys2Proof.Machine
end

