-- ==== Sys2Proof/Machine/Ops.lean ====
section
/-! DEFINITION. The named operations over memory, the buffers, the ports, the transports and the hooks. The block has
no exceptions (spec/60_exceptions.md R230): what stands in their place is `callHook`, the one outward call with its
return (R236 to R240), and the error conditions recorded in the log (R231). -/

namespace Sys2Proof.Machine

/-! Outcomes -/

/-- Continue with the value of an outcome; a fault or a refusal ends it. -/
def andThen {α β : Type} (o : Host.Outcome α Fault Refusal) (f : α → Host.Outcome β Fault Refusal) :
    Host.Outcome β Fault Refusal :=
  match o with
  | .next a => f a
  | .fault r => .fault r
  | .refused r => .refused r

/-! Application memory (spec/20_memory.md R60 to R63) -/

/-- The byte at an address; an unlisted address reads as `Config.unwritten`. -/
def memGet : Memory → Nat → Byte
  | [], _ => Config.unwritten
  | (k, v) :: rest, a => if k = a then v else memGet rest a

/-- Store a byte, keeping the canonical form. -/
def memPut : Memory → Nat → Byte → Memory
  | [], a, v => if v = Config.unwritten then [] else [(a, v)]
  | (k, w) :: rest, a, v =>
    if a < k then (if v = Config.unwritten then (k, w) :: rest else (a, v) :: (k, w) :: rest)
    else if a = k then (if v = Config.unwritten then rest else (a, v) :: rest)
    else (k, w) :: memPut rest a v

/-- Every address of the list is above `lo` and in the address space, addresses rise, and no entry is the unlisted
value. -/
def memWfFrom : Nat → Memory → Bool
  | _, [] => true
  | lo, (k, v) :: rest => lo ≤ k && k < 2 ^ Config.sizes.appAW && v != Config.unwritten && memWfFrom (k + 1) rest

/-- The canonical form of a memory: equal memories are equal lists. -/
def Memory.wf (m : Memory) : Bool := memWfFrom 0 m

/-- The byte of application memory at an address (R63). -/
def State.byteAt (s : State) (a : Addr) : Byte := memGet s.mem a.toNat

/-- Add an event to the log. -/
def State.emit (e : Event) (s : State) : State := { s with log := s.log ++ [e] }

/-- The application stores a byte of its memory (R60). -/
def appStore (a : Addr) (v : Byte) (s : State) : State := { s with mem := memPut s.mem a.toNat v }

/-- `MemWrite(addr, 1, value)` (R62). -/
def memWrite (a : Addr) (v : Byte) (s : State) : State := (appStore a v s).emit (.memWrite a v)

/-- The bytes written one by one in ascending address order, offset 0 first (R62). -/
def memWriteAll : Addr → List Byte → State → State
  | _, [], s => s
  | a, b :: rest, s => memWriteAll (a + 1) rest (memWrite a b s)

/-- The `n` bytes from an address, in ascending order (R62). -/
def bytesAt (s : State) : Addr → Nat → List Byte
  | _, 0 => []
  | a, n + 1 => s.byteAt a :: bytesAt s (a + 1) n

/-- The reads of the bytes from an address, as events in ascending order (R62). -/
def readEvents : Addr → List Byte → List Event
  | _, [] => []
  | a, b :: rest => .memRead a b :: readEvents (a + 1) rest

/-! Ports and results -/

/-- What the response ports hold when an operation ends (R90, R91). -/
def State.respond (r : Response) (s : State) : State := { s with rsp := r }

/-- The value an internal operation returns, when it is run as an instruction of its own (log entry 7). -/
def State.give (r : Result) (s : State) : State := { s with result := r }

/-- An error condition is met (R231). -/
def State.fail (c : ErrorCode) (s : State) : State := s.emit (.error c)

/-! The buffers (R34, R35) -/

/-- The write cursor of the input buffer (R34). -/
def State.inCur (s : State) : Nat := s.inBuf.length

/-- The write cursor of the output buffer (R35). -/
def State.outCur (s : State) : Nat := s.outBuf.length

/-- The staged payload, `outBuf[5..outCur)` (R35). -/
def State.staged (s : State) (cfg : Config.Params := Config.engine) : List Byte := s.outBuf.drop cfg.hdrLen

/-- `Drop(m)`: the first `m` bytes are removed, the rest move down (R172). -/
def dropBytes (m : Nat) (s : State) : State := { s with inBuf := s.inBuf.drop m }

/-- A sub-packet is appended at the output buffer's cursor (R161, R164). -/
def stage (typ : Byte) (data : List Byte) (s : State) : State := { s with outBuf := s.outBuf ++ typ :: data }

/-- `checksum16` with the unit's accumulator left at the result (R110, R114). -/
def runChecksum (bytes : List Byte) (s : State) (cfg : Config.Params := Config.engine) : State :=
  { s with crcAcc := checksum16 bytes cfg.crc }

/-! The transports (R247, R248) -/

/-- How many bytes the transport moves: its choice, at most `limit`; all when it has announced none (R97). -/
def chosenCount (counts : List Nat) (limit : Nat) : Nat :=
  match counts with
  | [] => limit
  | k :: _ => min k limit

/-- The bytes `TransportRead(n)` delivers now: the oldest the transport holds (R247). -/
def delivered (n : Nat) (s : State) : List Byte := s.rxHeld.take (chosenCount s.rxCounts (min n s.rxHeld.length))

/-- `TransportRead(n)`: the delivered bytes leave the transport (R247). -/
def transportRead (n : Nat) (s : State) : State :=
  ({ s with rxHeld := s.rxHeld.drop (delivered n s).length, rxCounts := s.rxCounts.tail }).emit (.rx n (delivered n s))

/-- The count `TransportWrite(bytes)` accepts now (R248). -/
def acceptedCount (bytes : List Byte) (s : State) : Nat := chosenCount s.txCounts bytes.length

/-- `TransportWrite(bytes)`: the accepted bytes belong to the transport (R248). -/
def transportWrite (bytes : List Byte) (s : State) : State :=
  ({ s with txSent := s.txSent ++ bytes.take (acceptedCount bytes s), txCounts := s.txCounts.tail }).emit
    (.tx bytes (acceptedCount bytes s))

/-! The hooks (R236 to R240) -/

/-- The writes a hook makes to application memory, in order (R240). -/
def hookStores : List (Addr × Byte) → State → State
  | [], s => s
  | (a, v) :: rest, s => hookStores rest (appStore a v s)

/-- The application's hook runs and returns a count; the default hook does nothing and returns 0 (R236, R238). -/
def callHook (s : State) : Host.Outcome (State × Nat) Fault Refusal :=
  match s.hookAnswers with
  | [] => .next (s, 0)
  | .returns consumed writes :: rest => .next (hookStores writes { s with hookAnswers := rest }, consumed)
  | .hangs :: _ => .fault .hookHangs

/-- `notify Discard(bytes)` (R236). -/
def notifyDiscard (bytes : List Byte) (s : State) : Host.Outcome State Fault Refusal :=
  andThen (callHook (s.emit (.discard bytes))) fun r => .next r.1

/-- `UnknownHook(typ, rest)`: the state after it and the count it consumed (R238). -/
def unknownHook (typ : Byte) (rest : List Byte) (s : State) : Host.Outcome (State × Nat) Fault Refusal :=
  callHook (s.emit (.unknownHook typ rest))

end Sys2Proof.Machine
end

