-- ==== Sys2Proof/Machine/Crc.lean ====
section
/-! DEFINITION. The CRC unit's operations as instructions (spec/40_checksum.md R110, R114). -/

namespace Sys2Proof.Machine

/-- `checksum16(bytes)`: the accumulator is left at the result, which is returned (R110). -/
def execChecksum16 (bytes : List Byte) (s : State) : Host.Outcome State Fault Refusal :=
  .next ((runChecksum bytes s).give (.word (checksum16 bytes)))

/-- `CRC_INIT` (R114). -/
def execCrcInit (s : State) : Host.Outcome State Fault Refusal := .next { s with crcAcc := crcStart }

/-- `CRC_BYTE(b)` (R114). -/
def execCrcByte (b : Byte) (s : State) : Host.Outcome State Fault Refusal := .next { s with crcAcc := crcNext s.crcAcc b }

end Sys2Proof.Machine
end

