-- ==== Sys2Proof/WellFormed.lean ====
section
/-! DEFINITION. Which operations are well formed: the ranges the spec gives their operands. Whether the state admits an
operation (an item that fits, a frame that is held) is checked by its meaning. -/

namespace Sys2Proof

/-- The codes that are not one of the eleven commands: `0x00` and `0x0C` to `0xFF` (R93). -/
def reservedCode (op : Byte) : Bool := op.toNat == 0 || 12 ≤ op.toNat

/-- An address of `APP_AW` bits (R8). -/
def Addr.wf (a : Addr) (cfg : Config.Params) : Bool := a.toNat < 2 ^ cfg.appAW

/-- A clock value of `TIME_W` bits (R8). -/
def Time.wf (now : Time) (cfg : Config.Params) : Bool := now.toNat < 2 ^ cfg.timeW

/-- Well-formedness of an operation's operands. -/
def Instr.wf (i : Instr) (cfg : Config.Params := Config.engine) : Bool :=
  match i with
  -- an address has `APP_AW` bits, a clock value `TIME_W` (R8, R90)
  | .bind _ region _ _ => Addr.wf region cfg
  | .takep region => Addr.wf region cfg
  | .sendp region => Addr.wf region cfg
  | .lookupByRegion region => Addr.wf region cfg
  | .stepCmd now => Time.wf now cfg
  | .writerPhase now => Time.wf now cfg
  | .constructFrame now _ => Time.wf now cfg
  -- a slot of the registry, `0..MAX_ITEMS-1` (R8, R21)
  | .append slot => slot.val < cfg.maxItems
  | .fits slot => slot.val < cfg.maxItems
  -- the data port carries exactly `cmd_size` bytes (R90, R164)
  | .enq _ data length => data.length == length.toNat
  | .reserved op => reservedCode op
  -- a legal length is 0..57 (R84)
  | .frame _ _ payload => payload.length ≤ cfg.maxPayload
  -- the data of a sub-packet is at most 56 bytes (R87)
  | .subpacket _ data => data.length ≤ cfg.maxItemSize
  | .decodePayload payload => payload.length ≤ cfg.maxPayload
  | .dispatchItem _ data => data.length ≤ cfg.maxItemSize
  -- `1 <= m <= inCur <= 64` (R172, R34)
  | .drop m => 1 ≤ m && m ≤ cfg.bufSize
  | .discard m => 1 ≤ m && m ≤ cfg.bufSize
  -- the backlog is 0..64 (R37, R205)
  | .pace b => b ≤ cfg.bufSize
  -- the discarded range is not empty and its first byte is the first magic byte (R236)
  | .notifyDiscard bytes => bytes.head? == some cfg.magic0 && bytes.length ≤ cfg.bufSize
  -- 0..56 bytes remain after a type byte (R152, R238)
  | .unknownHook _ rest => rest.length ≤ cfg.maxItemSize
  -- `TransportRead(n)` with `0 <= n <= 64` (R247)
  | .transportRead n => n ≤ cfg.bufSize
  -- what is offered lies in the output buffer (R200, R248)
  | .transportWrite bytes => bytes.length ≤ cfg.bufSize
  | .beginCmd _ | .rser | .isrx _ | .clrx _ | .take _ | .send _ | .unbind _ | .checksum16 _ | .crcInit | .crcByte _
  | .lookup _ | .markReceived _ _ | .markToSend _ | .encodePayload _ | .fill | .readerPhase | .txAttempt
  | .backlogUpdate => true

end Sys2Proof
end

