-- ==== Sys2Proof/Decode.lean ====
section
/-! DEFINITION. The decoders of the block and, after them, the encoder. There are three: of a command at the port by
`cmd_op` (spec/30_encoding.md R92, R93), of the bytes at the head of the input buffer as a frame (R80 to R84,
spec/43_reader.md R173), and of the bytes at the head of a payload as a sub-packet under the bindings (R85, R86,
spec/42_codec.md R152). Each is total; what is no instruction is rejected by name. -/

namespace Sys2Proof

/-- The states of the Reader (spec/43_reader.md R170). -/
inductive ReaderState where
  | scanning
  | headerWait
  | payloadWait
  | checksumWait
  | dispatch
deriving DecidableEq, Repr

/-- What stands at the head of the input buffer (R173, R242: the first check that fails decides). -/
inductive WireHead where
  /-- bytes are missing: the Reader rests in this state (R171) -/
  | wait (st : ReaderState)
  /-- the first byte cannot start a frame (R174) -/
  | badMagic
  /-- the length byte is above 57 (R177) -/
  | badLength
  /-- the checksum of a complete candidate of this payload length differs; `computed` is the computed one (R179) -/
  | badChecksum (len : Nat) (computed : Half)
  /-- a complete frame whose checksum matches (R180) -/
  | frame (frameId lastSeen : Byte) (payload : List Byte)
deriving DecidableEq, Repr

/-- The frame check of a candidate whose header is complete: `len` is the length byte and `body` what is buffered
after it (R176 to R178, R242). -/
def decodeBody (frameId lastSeen len : Byte) (body : List Byte) (cfg : Config.Params := Config.engine) : WireHead :=
  if len.toNat > cfg.maxPayload then .badLength
  else if body.length < len.toNat then .wait .payloadWait
  else
    let payload := body.take len.toNat
    match body.drop len.toNat with
    | low :: high :: _ =>
      let computed := Machine.checksum16 (len :: payload) cfg.crc
      if Machine.checksumOf low high = computed then .frame frameId lastSeen payload
      else .badChecksum len.toNat computed
    | _ => .wait .checksumWait

/-- The frame at the head of a byte sequence, or why there is none (R173). -/
def decodeWire (bytes : List Byte) (cfg : Config.Params := Config.engine) : WireHead :=
  match bytes with
  | [] => .wait .scanning
  | [b0] => if b0 = cfg.magic0 then .wait .scanning else .badMagic
  | b0 :: b1 :: rest =>
    if b0 ≠ cfg.magic0 then .badMagic
    else if b1 ≠ cfg.magic1 then .badMagic
    else match rest with
      | frameId :: lastSeen :: len :: body => decodeBody frameId lastSeen len body cfg
      | _ => .wait .headerWait

/-- What stands at the head of a payload, under the bindings in force (R152 to R154). -/
inductive SubHead where
  /-- nothing is left -/
  | done
  /-- a known type with its whole data, and what follows -/
  | known (typ : Byte) (data rest : List Byte)
  /-- a known type with fewer bytes left than its size (R153) -/
  | truncated (typ : Byte)
  /-- a type that is not bound, and all that follows it (R154) -/
  | unknown (typ : Byte) (rest : List Byte)
deriving DecidableEq, Repr

/-- The sub-packet at the head of a payload; `bound` is the data length of a bound type (R85, R86, R152). -/
def decodeSub (bound : Byte → Option Nat) : List Byte → SubHead
  | [] => .done
  | t :: rest =>
    match bound t with
    | some n => if n > rest.length then .truncated t else .known t (rest.take n) (rest.drop n)
    | none => .unknown t rest

/-- Why a presentation is no instruction. -/
inductive DecodeError where
  /-- the data port of ENQ carries fewer bytes than `cmd_size` (R90): no presentation of the port -/
  | shortData
  /-- the bytes cannot start a frame (R174) -/
  | badMagic
  /-- bytes of the frame are missing (R175 to R178) -/
  | incomplete (st : ReaderState)
  /-- the length byte is above 57 (R177) -/
  | badLength
  /-- the checksum does not match (R179) -/
  | badChecksum
  /-- the sub-packet's data is missing (R153) -/
  | truncated
  /-- there is no sub-packet (an empty payload) -/
  | noSubPacket
deriving DecidableEq, Repr

/-- The command a presentation at the port stands for, by `cmd_op` alone (R92, R93, R221). A code that is not one of
the eleven is reported as reserved. -/
def decodePort (p : PortCmd) : Except DecodeError Instr :=
  match p.op.toNat with
  | 0x01 => .ok (.bind p.id p.region p.size p.flag)
  | 0x02 => .ok (.beginCmd p.flag)
  | 0x03 => .ok (.stepCmd p.now)
  | 0x04 => .ok .rser
  | 0x05 => .ok (.isrx p.id)
  | 0x06 => .ok (.clrx p.id)
  | 0x07 => .ok (.take p.id)
  | 0x08 => .ok (.takep p.region)
  | 0x09 => .ok (.send p.id)
  | 0x0A => .ok (.sendp p.region)
  | 0x0B => if p.data.length < p.size.toNat then .error .shortData
            else .ok (.enq p.id (p.data.take p.size.toNat) p.size)
  | _ => .ok (.reserved p.op)

/-- What can be presented for decoding: a command at the port, bytes read as a frame, or bytes read as one sub-packet
whose type is bound with a given size (the decoding context of R86). -/
inductive Words where
  | port (p : PortCmd)
  | wire (bytes : List Byte)
  | sub (size : Nat) (bytes : List Byte)
deriving DecidableEq, Repr

/-- The decoder of the block, total on every presentation. -/
def decode (w : Words) (cfg : Config.Params := Config.engine) : Except DecodeError Instr :=
  match w with
  | .port p => decodePort p
  | .wire bytes =>
    match decodeWire bytes cfg with
    | .frame frameId lastSeen payload => .ok (.frame frameId lastSeen payload)
    | .wait st => .error (.incomplete st)
    | .badMagic => .error .badMagic
    | .badLength => .error .badLength
    | .badChecksum _ _ => .error .badChecksum
  | .sub size bytes =>
    match decodeSub (fun _ => some size) bytes with
    | .known t d _ => .ok (.subpacket t d)
    | .truncated _ => .error .truncated
    | .done | .unknown _ _ => .error .noSubPacket

/-- The length byte of a payload (R80). -/
def lengthByte (payload : List Byte) : Byte := BitVec.ofNat 8 payload.length

/-- The checksum of a frame: over the length byte and the payload, nothing else (R82). -/
def frameChecksum (payload : List Byte) (cfg : Config.Params := Config.engine) : Half :=
  Machine.checksum16 (lengthByte payload :: payload) cfg.crc

/-- The bytes of a frame on the wire, in order of transmission (R80, R82, R197). -/
def encodeFrame (frameId lastSeen : Byte) (payload : List Byte) (cfg : Config.Params := Config.engine) : List Byte :=
  [cfg.magic0, cfg.magic1, frameId, lastSeen, lengthByte payload] ++ payload ++
    [Machine.checksumLow (frameChecksum payload cfg), Machine.checksumHigh (frameChecksum payload cfg)]

/-- The words of an operation (R92, R80, R85, R96); none for the rows that have no code (R94, R95). -/
def encode (i : Instr) (cfg : Config.Params := Config.engine) : Option Words :=
  match i with
  | .bind id region size autoSend => some (.port { op := 0x01, id := id, region := region, size := size, flag := autoSend })
  | .beginCmd waitFirst => some (.port { op := 0x02, flag := waitFirst })
  | .stepCmd now => some (.port { op := 0x03, now := now })
  | .rser => some (.port { op := 0x04 })
  | .isrx id => some (.port { op := 0x05, id := id })
  | .clrx id => some (.port { op := 0x06, id := id })
  | .take id => some (.port { op := 0x07, id := id })
  | .takep region => some (.port { op := 0x08, region := region })
  | .send id => some (.port { op := 0x09, id := id })
  | .sendp region => some (.port { op := 0x0A, region := region })
  | .enq id data length => some (.port { op := 0x0B, id := id, size := length, data := data })
  | .reserved op => some (.port { op := op })
  | .unbind id => some (.port { op := 0x01, id := id, region := cfg.nullAddr, size := 0, flag := false })
  | .frame frameId lastSeen payload => some (.wire (encodeFrame frameId lastSeen payload cfg))
  | .subpacket t data => some (.sub data.length (t :: data))
  | .checksum16 _ | .crcInit | .crcByte _ | .lookup _ | .lookupByRegion _ | .markReceived _ _ | .markToSend _
  | .decodePayload _ | .dispatchItem _ _ | .encodePayload _ | .append _ | .fits _ | .fill | .drop _ | .discard _
  | .readerPhase | .writerPhase _ | .constructFrame _ _ | .txAttempt | .pace _ | .backlogUpdate
  | .notifyDiscard _ | .unknownHook _ _ | .transportRead _ | .transportWrite _ => none

/-- The `n` bytes of a number, most significant first: how a row of the table whose bits are the first bytes of the
wire writes them (`0x55AA` is the byte `55`, then the byte `AA`). -/
def bytesMsbFirst : Nat → Nat → List Byte
  | 0, _ => []
  | n + 1, w => BitVec.ofNat 8 (w >>> (8 * n)) :: bytesMsbFirst n w

/-- The bytes of a byte sequence that the frame at its head spans, by its length byte (R83). -/
def frameSpan (bytes : List Byte) (cfg : Config.Params := Config.engine) : List Byte :=
  bytes.take (cfg.hdrLen + (bytes.getD 4 0).toNat + cfg.crcLen)

/-- The presentation a table word stands for: a row of at most 8 bits is an operation code with every other port 0 (no
data); a wider row is the first bytes of a frame, its further bytes being 0 (log entry 3). -/
def tableWords (nbits w : Nat) (cfg : Config.Params := Config.engine) : Words :=
  if nbits ≤ 8 then .port { op := BitVec.ofNat 8 w }
  else .wire (frameSpan ((bytesMsbFirst ((nbits + 7) / 8) w ++ List.replicate cfg.bufSize 0).take cfg.bufSize) cfg)

/-- The instruction the decoder reads from a word of the table. -/
def decodeTableWord (nbits w : Nat) : Option Instr :=
  match decode (tableWords nbits w) with
  | .ok i => some i
  | .error _ => none

end Sys2Proof
end

