-- ==== Sys2Proof/Machine/Operands.lean ====
section
/-! DEFINITION. The operand forms of the block: a slot by index, an item by id and an item by region (the two public
addressing styles, spec/41_registry.md R130, R131, spec/30_encoding.md R96). -/

namespace Sys2Proof.Machine

/-- The slot indices in the order of every scan: the `MAX_ITEMS` slots of the registry, ascending (R8, R130, R199). -/
def slotIndices (cfg : Config.Params := Config.engine) : List SlotIx :=
  (List.finRange Config.sizes.maxItems).filter fun i => i.val < cfg.maxItems

/-- The slot at an index (R21). -/
def State.slot (s : State) (i : SlotIx) : Slot := s.slots[i]

/-- Replace the slot at an index. -/
def State.setSlot (i : SlotIx) (x : Slot) (s : State) : State := { s with slots := s.slots.set i x }

/-- The first slot of the registry, in scan order, that satisfies a test. -/
def firstSlot (p : Slot → Bool) (s : State) (cfg : Config.Params := Config.engine) : Option SlotIx :=
  (slotIndices cfg).find? fun i => p (s.slot i)

/-- `lookup(id)` (R130). -/
def lookup (id : Byte) (s : State) (cfg : Config.Params := Config.engine) : Option SlotIx :=
  firstSlot (fun x => x.used && x.id == id) s cfg

/-- `lookupByRegion(region)`: the base address alone decides (R131). -/
def lookupByRegion (region : Addr) (s : State) (cfg : Config.Params := Config.engine) : Option SlotIx :=
  firstSlot (fun x => x.used && x.region == region) s cfg

/-- The lowest free slot (R132). -/
def freeSlot (s : State) (cfg : Config.Params := Config.engine) : Option SlotIx := firstSlot (fun x => !x.used) s cfg

/-- The data length of a bound type (R85, R152). -/
def boundSize (s : State) (typ : Byte) (cfg : Config.Params := Config.engine) : Option Nat :=
  (lookup typ s cfg).map fun i => (s.slot i).size.toNat

/-- The region from a base crosses the top of application memory, `region + size > 2^APP_AW` (R8, R132). -/
def crossesTop (region : Addr) (size : Byte) (cfg : Config.Params := Config.engine) : Bool :=
  region.toNat + size.toNat > 2 ^ cfg.appAW

end Sys2Proof.Machine
end

