-- ==== Sys2Proof/Machine/Flags.lean ====
section
/-! DEFINITION. The flags of a slot and the tests the Writer computes from flags, cursors and time (spec/10_state.md
R26, R28; spec/41_registry.md R142; spec/44_writer.md R193, R194, R195, R205). -/

namespace Sys2Proof.Machine

/-- The four flags in one byte: AutoSend bit 0, Received bit 1, ToSend bit 2, WasAutoSent bit 3, bits 7:4 zero (R26). -/
def Slot.flagsByte (x : Slot) : Byte :=
  BitVec.ofBool false ++ BitVec.ofBool false ++ BitVec.ofBool false ++ BitVec.ofBool false ++
    BitVec.ofBool x.wasAutoSent ++ BitVec.ofBool x.toSend ++ BitVec.ofBool x.received ++ BitVec.ofBool x.autoSend

/-- Write the `Received` flag of a slot (R142). -/
def setReceived (i : SlotIx) (b : Bool) (s : State) : State := s.setSlot i { s.slot i with received := b }

/-- Write the `ToSend` flag of a slot (R142). -/
def setToSend (i : SlotIx) (b : Bool) (s : State) : State := s.setSlot i { s.slot i with toSend := b }

/-- Clear every `WasAutoSent`: the end of a rotation (R160, pass B3). -/
def clearRotation (s : State) : State := { s with slots := s.slots.map fun x => { x with wasAutoSent := false } }

/-- No bound autosend item still waits for its turn in this rotation (R160, pass B3). -/
def rotationDone (s : State) (cfg : Config.Params := Config.engine) : Bool :=
  (slotIndices cfg).all fun i => !((s.slot i).used && (s.slot i).autoSend && !(s.slot i).wasAutoSent)

/-- Some bound item is queued for the next frame (R191). -/
def anyToSend (s : State) (cfg : Config.Params := Config.engine) : Bool :=
  (slotIndices cfg).any fun i => (s.slot i).used && (s.slot i).toSend

/-- Ad hoc payload is staged, `outCur > 5` (R191). -/
def anyStaged (s : State) (cfg : Config.Params := Config.engine) : Bool := s.outCur > cfg.hdrLen

/-- `PACE(b)`, the autosend threshold, a function of the configuration record (R8, R205). The Writer uses it on the backlog,
which no run brings above 64; in a state that no run reaches it continues the curve: DESIGN CHOICE (log entry 31). -/
def pace (b : Nat) (cfg : Config.Params := Config.engine) : Nat := cfg.pace b

/-- The time since the last autosend cycle, modulo `2^TIME_W` (R8, R194). -/
def elapsed (now : Time) (s : State) (cfg : Config.Params := Config.engine) : Nat :=
  (now - s.lastAutoSendTime).toNat % 2 ^ cfg.timeW

/-- An autosend cycle is due (R194). -/
def autoDue (now : Time) (s : State) (cfg : Config.Params := Config.engine) : Bool :=
  pace s.backlog cfg ≤ elapsed now s cfg

/-- The Writer is suppressed: the mode waits for a first frame (R192). -/
def suppressed (s : State) : Bool := s.waitFirst && !s.gotFirst

/-- The serial number after this one, skipping 0 (R195). -/
def nextSerial (n : Byte) : Byte := if n = 255 then 1 else n + 1

end Sys2Proof.Machine
end

