-- ==== Sys2Proof/Machine/Registry.lean ====
section
/-! DEFINITION. The Item Registry's operations (spec/41_registry.md R130 to R142). -/

namespace Sys2Proof.Machine

/-! Shared operations -/

/-- The slot of a fresh binding: every flag reset, AutoSend as asked (R132). -/
def boundSlot (id : Byte) (region : Addr) (size : Byte) (autoSend : Bool) : Slot :=
  { used := true, id := id, region := region, size := size,
    autoSend := autoSend, received := false, toSend := false, wasAutoSent := false }

/-- The slot a binding of `id` takes: the one that holds it, else the lowest free one (R132, R133). -/
def slotFor (id : Byte) (s : State) (cfg : Config.Params := Config.engine) : Option SlotIx :=
  (lookup id s cfg).orElse fun _ => freeSlot s cfg

/-- `bind(id, region, size, autoSend)` (R132, order of checks R242). -/
def bindItem (id : Byte) (region : Addr) (size : Byte) (autoSend : Bool) (s : State)
    (cfg : Config.Params := Config.engine) : State :=
  if region = cfg.nullAddr then
    match lookup id s cfg with
    | some i => s.setSlot i Slot.free
    | none => s
  else if size.toNat > cfg.maxItemSize || crossesTop region size cfg then s.fail .arg
  else
    match slotFor id s cfg with
    | some i => s.setSlot i (boundSlot id region size autoSend)
    | none => s.fail .full

/-- `markReceived(id, src)`: at most `size` bytes are copied into the region, then `Received` is set (R134). -/
def markReceived (id : Byte) (src : List Byte) (s : State) (cfg : Config.Params := Config.engine) : State :=
  match lookup id s cfg with
  | none => s
  | some i => setReceived i true (memWriteAll (s.slot i).region (src.take (s.slot i).size.toNat) s)

/-- Set `ToSend` of a found slot; the state and whether one was found (R135, R141). -/
def markAt (found : Option SlotIx) (s : State) : State × Bool :=
  match found with
  | none => (s.fail .notFound, false)
  | some i => (setToSend i true s, true)

/-- Test and clear `Received` of a found slot; the state and the flag as it was (R138, R139). -/
def takeAt (found : Option SlotIx) (s : State) : State × Bool :=
  match found with
  | none => (s.fail .notFound, false)
  | some i => (setReceived i false s, (s.slot i).received)

/-- Read `Received` of a found slot (R136). -/
def testAt (found : Option SlotIx) (s : State) : State × Bool :=
  match found with
  | none => (s.fail .notFound, false)
  | some i => (s, (s.slot i).received)

/-- Clear `Received` of a found slot (R137). -/
def clearAt (found : Option SlotIx) (s : State) : State :=
  match found with
  | none => s.fail .notFound
  | some i => setReceived i false s

/-- A boolean answer at the response port (R90). -/
def answer (r : State × Bool) : State := r.1.respond (.bool r.2)

/-! Commands -/

/-- BIND (R132). -/
def execBind (id : Byte) (region : Addr) (size : Byte) (autoSend : Bool) (s : State) : Host.Outcome State Fault Refusal :=
  .next ((bindItem id region size autoSend s).respond .none)

/-- UNBIND, `bind(id, NULL, 0, false)` (R96). -/
def execUnbind (id : Byte) (s : State) : Host.Outcome State Fault Refusal :=
  .next ((bindItem id Config.engine.nullAddr 0 false s).respond .none)

/-- ISRX (R136). -/
def execIsrx (id : Byte) (s : State) : Host.Outcome State Fault Refusal := .next (answer (testAt (lookup id s) s))

/-- CLRX (R137). -/
def execClrx (id : Byte) (s : State) : Host.Outcome State Fault Refusal :=
  .next ((clearAt (lookup id s) s).respond .none)

/-- TAKE (R138). -/
def execTake (id : Byte) (s : State) : Host.Outcome State Fault Refusal := .next (answer (takeAt (lookup id s) s))

/-- TAKEP (R139). -/
def execTakep (region : Addr) (s : State) : Host.Outcome State Fault Refusal :=
  .next (answer (takeAt (lookupByRegion region s) s))

/-- SEND (R140). -/
def execSend (id : Byte) (s : State) : Host.Outcome State Fault Refusal := .next (answer (markAt (lookup id s) s))

/-- SENDP (R141). -/
def execSendp (region : Addr) (s : State) : Host.Outcome State Fault Refusal :=
  .next (answer (markAt (lookupByRegion region s) s))

/-! Internal operations -/

/-- `lookup(id)` (R130). -/
def execLookup (id : Byte) (s : State) : Host.Outcome State Fault Refusal := .next (s.give (.slot (lookup id s)))

/-- `lookupByRegion(region)` (R131). -/
def execLookupByRegion (region : Addr) (s : State) : Host.Outcome State Fault Refusal :=
  .next (s.give (.slot (lookupByRegion region s)))

/-- `markReceived(id, src)` (R134). -/
def execMarkReceived (id : Byte) (src : List Byte) (s : State) : Host.Outcome State Fault Refusal :=
  .next (markReceived id src s)

/-- `markToSend(id)` (R135). -/
def execMarkToSend (id : Byte) (s : State) : Host.Outcome State Fault Refusal :=
  .next ((markAt (lookup id s) s).1.give (.bool (markAt (lookup id s) s).2))

end Sys2Proof.Machine
end

