-- ==== Sys2Proof/Machine/Codec.lean ====
section
/-! DEFINITION. The Packet Codec: the deserializer and the serializer of sub-packets (spec/42_codec.md R150 to R165). -/

namespace Sys2Proof.Machine

/-! Decoding -/

/-- `DispatchItem(t, d)`: `markReceived(t, d)`, which R155 gives for a known type and its `size` bytes, as the decoding loop
calls it. Where it is run as an instruction of its own outside that condition (a type that is not bound, or a `d` that is
not as long as the slot's size), of which R155 says nothing, it is `markReceived(t, d)` all the same, which then does as
R134 says: nothing for an id that is not bound, else the first `min(n, size)` bytes are copied and `Received` is set:
DESIGN CHOICE, unsafe (log entry 17). -/
def dispatchItem (typ : Byte) (data : List Byte) (s : State) (cfg : Config.Params := Config.engine) : State :=
  markReceived typ data s cfg

/-- One pass of the decoding loop over the bytes that are left (R152): the state, and what is left to decode, or
nothing when decoding of this payload stops (R153, R154). -/
def decodePass (left : List Byte) (s : State) (cfg : Config.Params := Config.engine) :
    Host.Outcome (State × Option (List Byte)) Fault Refusal :=
  match decodeSub (fun t => boundSize s t cfg) left with
  | .done => .next (s, none)
  | .known t data rest => .next (dispatchItem t data s cfg, some rest)
  | .truncated _ => .next (s.fail .trunc, none)
  | .unknown t rest =>
    andThen (unknownHook t rest (s.fail .unknown)) fun r =>
      .next (r.1, if r.2 = 0 || r.2 > rest.length then none else some (rest.drop r.2))

/-- The decoding loop (R152). Each pass consumes at least the type byte (R158), so as many passes as there are bytes
suffice. -/
def decodeLoop (n : Nat) (left : List Byte) (s : State) (cfg : Config.Params := Config.engine) :
    Host.Outcome State Fault Refusal :=
  match n with
  | 0 => .next s
  | n + 1 =>
    andThen (decodePass left s cfg) fun r =>
      match r.2 with
      | none => .next r.1
      | some rest => decodeLoop n rest r.1 cfg

/-- `DecodePayload(p)` (R152). -/
def decodePayload (p : List Byte) (s : State) (cfg : Config.Params := Config.engine) : Host.Outcome State Fault Refusal :=
  decodeLoop p.length p s cfg

/-! Encoding -/

/-- The offset a payload may not pass: header and largest payload, 62 (R162). -/
def stageLimit (cfg : Config.Params := Config.engine) : Nat := cfg.hdrLen + cfg.maxPayload

/-- There is room for a type byte and `n` data bytes (R162, R164). -/
def roomFor (s : State) (n : Nat) (cfg : Config.Params := Config.engine) : Bool := s.outCur + 1 + n ≤ stageLimit cfg

/-- `Fits(i)` (R162). -/
def fits (s : State) (i : SlotIx) (cfg : Config.Params := Config.engine) : Bool := roomFor s (s.slot i).size.toNat cfg

/-- The region's current bytes of a slot's item (R161). -/
def itemBytes (s : State) (i : SlotIx) : List Byte := bytesAt s (s.slot i).region (s.slot i).size.toNat

/-- `Append(i)`: the type byte and the region's current bytes, read in ascending order (R161). -/
def appendSlot (i : SlotIx) (s : State) : State :=
  let data := itemBytes s i
  { stage (s.slot i).id data s with log := s.log ++ readEvents (s.slot i).region data }

/-- One slot of a pass of EncodePayload: a wanted item not yet in this frame is appended and its flags marked if it
fits; one that does not fit is skipped and keeps its flags (R160). The second component lists the slots included so far
(the scratch bits `inc`). -/
def scanSlot (want : Slot → Bool) (mark : Slot → Slot) (acc : State × List SlotIx) (i : SlotIx)
    (cfg : Config.Params := Config.engine) : State × List SlotIx :=
  if want (acc.1.slot i) && !acc.2.contains i then
    if fits acc.1 i cfg then ((appendSlot i acc.1).setSlot i (mark (acc.1.slot i)), acc.2 ++ [i])
    else (acc.1.fail .defer, acc.2)
  else acc

/-- One pass over the slots in ascending order (R160, R199). -/
def scanPass (want : Slot → Bool) (mark : Slot → Slot) (acc : State × List SlotIx)
    (cfg : Config.Params := Config.engine) : State × List SlotIx :=
  (slotIndices cfg).foldl (fun acc i => scanSlot want mark acc i cfg) acc

/-- A queued item (R160, pass A). -/
def wantA (x : Slot) : Bool := x.used && x.toSend

/-- Its flags once included: the request is served; in an autosend cycle an autosend item has had its turn (R160). -/
def markA (due : Bool) (x : Slot) : Slot := { x with toSend := false, wasAutoSent := x.wasAutoSent || (due && x.autoSend) }

/-- An autosend item that has not had its turn in this rotation (R160, pass B1). -/
def wantB1 (x : Slot) : Bool := x.used && x.autoSend && !x.wasAutoSent

/-- Its flags once included (R160). -/
def markB1 (x : Slot) : Slot := { x with wasAutoSent := true }

/-- An autosend item that already had its turn (R160, pass B2). -/
def wantB2 (x : Slot) : Bool := x.used && x.autoSend && x.wasAutoSent

/-- Passes B1 and B2 of an autosend cycle (R160). -/
def passB (acc : State × List SlotIx) (cfg : Config.Params := Config.engine) : State × List SlotIx :=
  scanPass wantB2 id (scanPass wantB1 markB1 acc cfg) cfg

/-- Pass B3: the end of a rotation (R160). -/
def passB3 (s : State) (cfg : Config.Params := Config.engine) : State :=
  if rotationDone s cfg then clearRotation s else s

/-- `EncodePayload(autoDue)` (R160). -/
def encodePayload (due : Bool) (s : State) (cfg : Config.Params := Config.engine) : State :=
  let a := scanPass wantA (markA due) (s, []) cfg
  if due then passB3 (passB a cfg).1 cfg else a.1

/-- `enqueuePayload(id, data, length)`: the state and whether it was staged (R164, order of checks R242). -/
def enqueue (id : Byte) (data : List Byte) (length : Byte) (s : State) (cfg : Config.Params := Config.engine) :
    State × Bool :=
  if s.txPending then (s.fail .space, false)
  else if !roomFor s length.toNat cfg then (s.fail .space, false)
  else (stage id (data.take length.toNat) s, true)

/-! Instructions -/

/-- ENQ (R164). -/
def execEnq (id : Byte) (data : List Byte) (length : Byte) (s : State) : Host.Outcome State Fault Refusal :=
  .next (answer (enqueue id data length s))

/-- SUBPACKET: one pass of the decoding loop over this type byte and what follows it (R85, R152; log entry 19). It
returns how many bytes after the type byte it consumed, or none where decoding stops. -/
def execSubpacket (typ : Byte) (data : List Byte) (s : State) : Host.Outcome State Fault Refusal :=
  andThen (decodePass (typ :: data) s) fun r =>
    .next (r.1.give (.consumed (r.2.map fun rest => data.length - rest.length)))

/-- `DecodePayload(payload)` (R152). -/
def execDecodePayload (payload : List Byte) (s : State) : Host.Outcome State Fault Refusal := decodePayload payload s

/-- `DispatchItem(typ, data)` (R155; outside R155's condition, log entry 17). -/
def execDispatchItem (typ : Byte) (data : List Byte) (s : State) : Host.Outcome State Fault Refusal :=
  .next (dispatchItem typ data s)

/-- `EncodePayload(autoDue)`, on entry no frame held (R159, R160). -/
def execEncodePayload (due : Bool) (s : State) : Host.Outcome State Fault Refusal :=
  if s.txPending then .fault .frameHeld else .next (encodePayload due s)

/-- `Append(i)`, for a used slot that fits (R161). The spec calls it with no frame held only (R159, R160); run as an
instruction of its own while a frame is held it extends the output buffer as R161 reads, which breaks R42's
`outCur = 7 + outBuf[4]`: DESIGN CHOICE, unsafe (log entry 17). -/
def execAppend (i : SlotIx) (s : State) : Host.Outcome State Fault Refusal :=
  if (s.slot i).used && fits s i then .next (appendSlot i s) else .fault .appendUnfit

/-- `Fits(i)` (R162). -/
def execFits (i : SlotIx) (s : State) : Host.Outcome State Fault Refusal := .next (s.give (.bool (fits s i)))

end Sys2Proof.Machine
end

