-- ==== Sys2Proof/Machine/Reader.lean ====
section
/-! DEFINITION. The frame synchronizer and validator (spec/43_reader.md R170 to R187). -/

namespace Sys2Proof.Machine

/-- `Fill()`: one TransportRead for the free bytes, appended at the cursor (R172, R182). -/
def fill (s : State) (cfg : Config.Params := Config.engine) : State :=
  let free := cfg.bufSize - s.inCur
  { transportRead free s with inBuf := s.inBuf ++ delivered free s }

/-- `Discard(m)`: the hook is told the bytes as they stand, then they are removed (R172). -/
def discardBytes (m : Nat) (s : State) : Host.Outcome State Fault Refusal :=
  andThen (notifyDiscard (s.inBuf.take m) s) fun s' => .next (dropBytes m s')

/-- The registers an accepted frame writes before its payload is decoded (R180), and the accumulator left by the
validation (R178). -/
def acceptHeader (frameId lastSeen : Byte) (payload : List Byte) (s : State)
    (cfg : Config.Params := Config.engine) : State :=
  ({ runChecksum (lengthByte payload :: payload) s cfg with lastRemoteSerial := frameId, gotFirst := true }).emit
    (.accepted frameId lastSeen)

/-- Acceptance of the frame at the head of the buffer: registers, payload, removal (R180). -/
def acceptFrame (frameId lastSeen : Byte) (payload : List Byte) (s : State)
    (cfg : Config.Params := Config.engine) : Host.Outcome State Fault Refusal :=
  andThen (decodePayload payload (acceptHeader frameId lastSeen payload s cfg) cfg) fun s' =>
    .next (dropBytes (cfg.hdrLen + payload.length + cfg.crcLen) s')

/-- One pass of the Reader's loop (R173): the state, or nothing more to do. -/
def readerPass (s : State) (cfg : Config.Params := Config.engine) : Host.Outcome (Option State) Fault Refusal :=
  match decodeWire s.inBuf cfg with
  | .wait _ => .next none
  | .badMagic => .next (some (dropBytes 1 (s.fail .magic)))
  | .badLength => andThen (discardBytes s.inCur (s.fail .len)) fun s' => .next (some s')
  | .badChecksum len computed =>
    andThen (discardBytes (cfg.hdrLen + len + cfg.crcLen) (({ s with crcAcc := computed } : State).fail .crc)) fun s' =>
      .next (some s')
  | .frame frameId lastSeen payload => andThen (acceptFrame frameId lastSeen payload s cfg) fun s' => .next (some s')

/-- The Reader's loop (R173). Every pass that goes on removes at least one byte (R184), so as many passes as there are
buffered bytes suffice. -/
def readerLoop (n : Nat) (s : State) (cfg : Config.Params := Config.engine) : Host.Outcome State Fault Refusal :=
  match n with
  | 0 => .next s
  | n + 1 =>
    andThen (readerPass s cfg) fun r =>
      match r with
      | none => .next s
      | some s' => readerLoop n s' cfg

/-- The parsing of what is buffered: the loop of R173 after `Fill()`. -/
def parse (s : State) (cfg : Config.Params := Config.engine) : Host.Outcome State Fault Refusal :=
  readerLoop s.inCur s cfg

/-- `ReaderPhase()` (R173). -/
def readerPhase (s : State) (cfg : Config.Params := Config.engine) : Host.Outcome State Fault Refusal :=
  parse (fill s cfg) cfg

/-- The state in which the Reader rests, a function of the buffer (R171); `dispatch` while the head is decided. -/
def readerState (s : State) (cfg : Config.Params := Config.engine) : ReaderState :=
  match decodeWire s.inBuf cfg with
  | .wait st => st
  | .badMagic | .badLength | .badChecksum _ _ | .frame _ _ _ => .dispatch

/-! Instructions -/

/-- FRAME: the Reader accepts this frame, complete and valid at the head of its buffer (R80, R180; log entry 18). -/
def execFrame (frameId lastSeen : Byte) (payload : List Byte) (s : State) : Host.Outcome State Fault Refusal :=
  acceptFrame frameId lastSeen payload s

/-- `Fill()` (R172). -/
def execFill (s : State) : Host.Outcome State Fault Refusal := .next (fill s)

/-- `Drop(m)`, `1 <= m <= inCur` (R172). -/
def execDrop (m : Nat) (s : State) : Host.Outcome State Fault Refusal :=
  if 1 ≤ m && m ≤ s.inCur then .next (dropBytes m s) else .fault .dropRange

/-- `Discard(m)`, `1 <= m <= inCur` (R172). -/
def execDiscard (m : Nat) (s : State) : Host.Outcome State Fault Refusal :=
  if 1 ≤ m && m ≤ s.inCur then discardBytes m s else .fault .discardRange

/-- `ReaderPhase()` (R173). -/
def execReaderPhase (s : State) : Host.Outcome State Fault Refusal := readerPhase s

end Sys2Proof.Machine
end

