-- ==== Sys2Proof/Machine/Writer.lean ====
section
/-! DEFINITION. The frame multiplexer and per-tick scheduler (spec/44_writer.md R190 to R210). -/

namespace Sys2Proof.Machine

/-- Step 1 of ConstructFrame: the serial number of this frame (R195). -/
def advanceSerial (s : State) : State := { s with mySerial := nextSerial s.mySerial }

/-- Step 3: header and checksum around the payload at `outBuf[5..outCur)` (R197). The last step of the checksum unit
leaves its accumulator at the checksum. -/
def sealFrame (s : State) (cfg : Config.Params := Config.engine) : State :=
  { runChecksum (lengthByte (s.staged cfg) :: s.staged cfg) s cfg with
    outBuf := encodeFrame s.mySerial s.lastRemoteSerial (s.staged cfg) cfg }

/-- Step 4: the frame is held, and an autosend cycle is dated (R198). -/
def holdFrame (now : Time) (due : Bool) (s : State) : State :=
  if due then { s with txPending := true, txPos := 0, lastAutoSendTime := now, backlog := 0 }
  else { s with txPending := true, txPos := 0 }

/-- `ConstructFrame(now, autoDue)` (R195 to R198). -/
def constructFrame (now : Time) (due : Bool) (s : State) (cfg : Config.Params := Config.engine) : State :=
  holdFrame now due (sealFrame (encodePayload due (advanceSerial s) cfg) cfg)

/-- The bytes of the held frame not yet accepted (R200). -/
def unsent (s : State) : List Byte := s.outBuf.drop s.txPos

/-- `TxAttempt()` (R200). -/
def txAttempt (s : State) (cfg : Config.Params := Config.engine) : State :=
  let pos := s.txPos + acceptedCount (unsent s) s
  let s' := transportWrite (unsent s) s
  if pos = s.outCur then { s' with txPending := false, txPos := 0, outBuf := s.outBuf.take cfg.hdrLen }
  else { s' with txPos := pos }

/-- The bytes of the held frame left unaccepted, 0 when none is held (R206). -/
def leftover (s : State) : Nat := if s.txPending then s.outCur - s.txPos else 0

/-- `BacklogUpdate()` (R206). -/
def backlogUpdate (s : State) : State := { s with backlog := max s.backlog (leftover s) }

/-- The Writer has a reason to emit when no frame is held (R191, R193). -/
def wantsFrame (now : Time) (s : State) (cfg : Config.Params := Config.engine) : Bool :=
  anyToSend s cfg || anyStaged s cfg || autoDue now s cfg

/-- `WriterPhase(now)` (R191). -/
def writerPhase (now : Time) (s : State) (cfg : Config.Params := Config.engine) : State :=
  if suppressed s then s
  else if s.txPending then backlogUpdate (txAttempt s cfg)
  else if wantsFrame now s cfg then backlogUpdate (txAttempt (constructFrame now (autoDue now s cfg) s cfg) cfg)
  else s

/-! Instructions -/

/-- `WriterPhase(now)` (R191). -/
def execWriterPhase (now : Time) (s : State) : Host.Outcome State Fault Refusal := .next (writerPhase now s)

/-- `ConstructFrame(now, autoDue)`, only while no frame is held (R195 to R198, R201). -/
def execConstructFrame (now : Time) (due : Bool) (s : State) : Host.Outcome State Fault Refusal :=
  if s.txPending then .fault .frameHeld else .next (constructFrame now due s)

/-- `TxAttempt()`, with a frame held (R200). -/
def execTxAttempt (s : State) : Host.Outcome State Fault Refusal :=
  if s.txPending then .next (txAttempt s) else .fault .noHeldFrame

/-- `PACE(b)` (R205). The rule gives it for `b` up to 64, as the backlog is; for a larger `b` the value returned is free
(log entry 31). -/
def execPace (b : Nat) (s : State) : Host.Outcome State Fault Refusal :=
  .next (s.give (.count (if b ≤ Config.engine.bufSize then pace b else Config.freePace b)))

/-- `BacklogUpdate()` (R206). -/
def execBacklogUpdate (s : State) : Host.Outcome State Fault Refusal := .next (backlogUpdate s)

end Sys2Proof.Machine
end

