-- ==== Sys2Proof/Machine/Engine.lean ====
section
/-! DEFINITION. The Engine: `begin`, `step`, `remoteSerial`, the reserved codes, and what the outside does between
operations (spec/45_engine.md R215 to R224, spec/70_reset_and_hazards.md R260). -/

namespace Sys2Proof.Machine

/-! Shared operations -/

/-- The engine registers at their values after `begin(w)`; `crcAcc`, which R43 leaves unspecified, is a free value (log
entry 9). -/
def beginEngine (w : Bool) (s : State) (cfg : Config.Params := Config.engine) : State :=
  { s with
    mySerial := 0, lastRemoteSerial := 0, lastAutoSendTime := 0, waitFirst := w, gotFirst := false,
    inBuf := [], outBuf := s.outBuf.take cfg.hdrLen, txPending := false, txPos := 0, backlog := 0,
    crcAcc := Config.freeCrc s.freeIdx, freeIdx := s.freeIdx + 1 }

/-- `step(now)`: the Reader phase, then the Writer phase (R218). -/
def tick (now : Time) (s : State) (cfg : Config.Params := Config.engine) : Host.Outcome State Fault Refusal :=
  andThen (readerPhase s cfg) fun s' => .next (writerPhase now s' cfg)

/-- The reset input: the block's state at its values after hardware reset (R43, R260). What lies outside the block is
not reached by it (log entry 21). -/
def hardwareReset (s : State) : State :=
  { beginEngine false s with
    slots := State.reset.slots, outBuf := State.reset.outBuf, rsp := .none, result := .none }

/-- What the outside does between two operations. -/
def environment (e : EnvEvent) (s : State) : State :=
  match e with
  | .appWrite a v => appStore a v s
  | .arrive bytes => { s with rxHeld := s.rxHeld ++ bytes }
  | .rxChoices counts => { s with rxCounts := s.rxCounts ++ counts }
  | .txChoices counts => { s with txCounts := s.txCounts ++ counts }
  | .hookChoices answers => { s with hookAnswers := s.hookAnswers ++ answers }
  | .reset => hardwareReset s

/-- The next input, and the state without it (R221: commands are taken one at a time, in order). -/
def takeInput (s : State) : Option (Input × State) :=
  match s.inputs with
  | [] => none
  | x :: rest => some (x, { s with inputs := rest })

/-! Instructions -/

/-- BEGIN (R216). -/
def execBegin (w : Bool) (s : State) : Host.Outcome State Fault Refusal := .next ((beginEngine w s).respond .none)

/-- STEP (R218). -/
def execStep (now : Time) (s : State) : Host.Outcome State Fault Refusal :=
  andThen (tick now s) fun s' => .next (s'.respond .none)

/-- RSER (R220). -/
def execRser (s : State) : Host.Outcome State Fault Refusal := .next (s.respond (.val s.lastRemoteSerial))

/-- A reserved code: no state change, no response (R93). -/
def execReserved (_op : Byte) (s : State) : Host.Outcome State Fault Refusal := .next (s.respond .none)

end Sys2Proof.Machine
end

