-- ==== Sys2Proof/Machine/Platform.lean ====
section
/-! DEFINITION. The hooks and the platform calls as instructions (spec/60_exceptions.md R236 to R240, R247, R248). -/

namespace Sys2Proof.Machine

/-- `notify Discard(bytes)` (R236). -/
def execNotifyDiscard (bytes : List Byte) (s : State) : Host.Outcome State Fault Refusal := notifyDiscard bytes s

/-- `UnknownHook(typ, rest)`, which returns the count it consumed (R238). -/
def execUnknownHook (typ : Byte) (rest : List Byte) (s : State) : Host.Outcome State Fault Refusal :=
  andThen (unknownHook typ rest s) fun r => .next (r.1.give (.count r.2))

/-- `TransportRead(max)`, which returns the delivered bytes (R247). -/
def execTransportRead (max : Nat) (s : State) : Host.Outcome State Fault Refusal :=
  .next ((transportRead max s).give (.bytes (delivered max s)))

/-- `TransportWrite(bytes)`, which returns the count accepted (R248). -/
def execTransportWrite (bytes : List Byte) (s : State) : Host.Outcome State Fault Refusal :=
  .next ((transportWrite bytes s).give (.count (acceptedCount bytes s)))

end Sys2Proof.Machine
end

