-- ==== Sys2Proof/Machine/Dispatch.lean ====
section
/-! DEFINITION. The meaning of every operation: one arm per row of spec/opcode_table.json. -/

namespace Sys2Proof.Machine

def exec (i : Instr) (s : State) : Host.Outcome State Fault Refusal :=
  match i with
  | .bind id region size autoSend => Sys2Proof.Machine.execBind id region size autoSend s
  | .beginCmd w => Sys2Proof.Machine.execBegin w s
  | .stepCmd now => Sys2Proof.Machine.execStep now s
  | .rser => Sys2Proof.Machine.execRser s
  | .isrx id => Sys2Proof.Machine.execIsrx id s
  | .clrx id => Sys2Proof.Machine.execClrx id s
  | .take id => Sys2Proof.Machine.execTake id s
  | .takep region => Sys2Proof.Machine.execTakep region s
  | .send id => Sys2Proof.Machine.execSend id s
  | .sendp region => Sys2Proof.Machine.execSendp region s
  | .enq id data length => Sys2Proof.Machine.execEnq id data length s
  | .reserved op => Sys2Proof.Machine.execReserved op s
  | .unbind id => Sys2Proof.Machine.execUnbind id s
  | .frame frameId lastSeen payload => Sys2Proof.Machine.execFrame frameId lastSeen payload s
  | .subpacket typ data => Sys2Proof.Machine.execSubpacket typ data s
  | .checksum16 bytes => Sys2Proof.Machine.execChecksum16 bytes s
  | .crcInit => Sys2Proof.Machine.execCrcInit s
  | .crcByte b => Sys2Proof.Machine.execCrcByte b s
  | .lookup id => Sys2Proof.Machine.execLookup id s
  | .lookupByRegion region => Sys2Proof.Machine.execLookupByRegion region s
  | .markReceived id src => Sys2Proof.Machine.execMarkReceived id src s
  | .markToSend id => Sys2Proof.Machine.execMarkToSend id s
  | .decodePayload payload => Sys2Proof.Machine.execDecodePayload payload s
  | .dispatchItem typ data => Sys2Proof.Machine.execDispatchItem typ data s
  | .encodePayload due => Sys2Proof.Machine.execEncodePayload due s
  | .append slot => Sys2Proof.Machine.execAppend slot s
  | .fits slot => Sys2Proof.Machine.execFits slot s
  | .fill => Sys2Proof.Machine.execFill s
  | .drop m => Sys2Proof.Machine.execDrop m s
  | .discard m => Sys2Proof.Machine.execDiscard m s
  | .readerPhase => Sys2Proof.Machine.execReaderPhase s
  | .writerPhase now => Sys2Proof.Machine.execWriterPhase now s
  | .constructFrame now due => Sys2Proof.Machine.execConstructFrame now due s
  | .txAttempt => Sys2Proof.Machine.execTxAttempt s
  | .pace backlog => Sys2Proof.Machine.execPace backlog s
  | .backlogUpdate => Sys2Proof.Machine.execBacklogUpdate s
  | .notifyDiscard bytes => Sys2Proof.Machine.execNotifyDiscard bytes s
  | .unknownHook typ rest => Sys2Proof.Machine.execUnknownHook typ rest s
  | .transportRead max => Sys2Proof.Machine.execTransportRead max s
  | .transportWrite bytes => Sys2Proof.Machine.execTransportWrite bytes s

end Sys2Proof.Machine
end

