-- ==== Sys2Proof/Machine/Step.lean ====
section
/-! DEFINITION. One step of the machine: it takes the next input and performs it to completion (spec/45_engine.md R221);
with no input waiting it holds its state (spec/60_exceptions.md R253). -/

namespace Sys2Proof.Machine

/-- One step. A command is taken off the port, decoded, and run; an event of the outside is applied. -/
def step (s : State) : Host.Outcome State Fault Refusal :=
  match takeInput s with
  | none => .next s
  | some (.env e, s') => .next (environment e s')
  | some (.command p, s') =>
    match decodePort p with
    | .ok i => exec i s'
    | .error _ => .refused .shortData

/-- `s` with the instruction of a table word placed where the very next step runs it (log entry 3): an operation code
is presented at the command port; the bytes of a frame are held by the receive transport, which delivers them all to
the empty buffer of a STEP command with a clock at which no autosend cycle is due. -/
def State.withFetchWord (s : State) (nbits w : Nat) : State :=
  match tableWords nbits w with
  | .port p => { s with inputs := .command p :: s.inputs }
  | .wire bytes =>
    { s with inputs := .command { op := 0x03, now := s.lastAutoSendTime } :: s.inputs
             inBuf := [], rxHeld := bytes, rxCounts := [] }
  | .sub _ _ => s

end Sys2Proof.Machine
end

