-- ==== Sys2Proof/Safety.lean ====
section
/-! DEFINITION. What a safe state and a safe run are, in the terms the claims use: the invariants the spec states of the
registry (spec/10_state.md R22 to R27), of the engine registers and buffers (R42, spec/43_reader.md R185), of the
model's memory, and the duties of the outside under which no step stops (spec/60_exceptions.md R230, R240). -/

namespace Sys2Proof

namespace Machine

/-- A used slot holds this id (R130). -/
abbrev HoldsId (s : State) (id : Byte) (i : SlotIx) : Prop := (s.slot i).used = true ∧ (s.slot i).id = id

/-- A used slot has this base address (R131). -/
abbrev HoldsRegion (s : State) (region : Addr) (i : SlotIx) : Prop :=
  (s.slot i).used = true ∧ (s.slot i).region = region

/-- The lowest slot index with a property (R130, R131, R132: scans go by ascending index). -/
abbrev Lowest (P : SlotIx → Prop) (i : SlotIx) : Prop := P i ∧ ∀ j, j < i → ¬P j

/-- The item of a slot is legal: a region that is not null and does not cross the top of memory, a size of at most 56
(R24, R25); a free slot is cleared (R22). -/
abbrev Slot.legal (x : Slot) : Prop :=
  if x.used then x.region ≠ 0 ∧ x.size.toNat ≤ 56 ∧ x.region.toNat + x.size.toNat ≤ 2 ^ 32 else x = Slot.free

/-- An address lies in the region of a slot's item (R61). -/
abbrev InRegion (x : Slot) (a : Addr) : Prop := x.region.toNat ≤ a.toNat ∧ a.toNat < x.region.toNat + x.size.toNat

/-- The invariant of the registry: every slot is legal, and no two used slots hold one id (R22 to R27). -/
abbrev RegistryInv (s : State) : Prop :=
  (∀ i : SlotIx, (s.slot i).legal) ∧
  ∀ i j : SlotIx, (s.slot i).used → (s.slot j).used → (s.slot i).id = (s.slot j).id → i = j

/-- The held frame is a whole frame with the serial last assigned, not yet wholly accepted (R42, R29). -/
abbrev HeldFrame (s : State) : Prop :=
  s.outCur = 7 + (s.outBuf.getD 4 0).toNat ∧ (s.outBuf.getD 4 0).toNat ≤ 57 ∧
  s.outBuf.getD 0 0 = 0x55 ∧ s.outBuf.getD 1 0 = 0xAA ∧ s.outBuf.getD 2 0 ≠ 0 ∧ s.outBuf.getD 2 0 = s.mySerial ∧
  s.txPos < s.outCur ∧
  s.outBuf.getD (s.outCur - 2) 0 = checksumLow (checksum16 ((s.outBuf.drop 4).take (s.outCur - 6))) ∧
  s.outBuf.getD (s.outCur - 1) 0 = checksumHigh (checksum16 ((s.outBuf.drop 4).take (s.outCur - 6)))

/-- The invariant of the engine registers and buffers (R42), with the resting condition of the input buffer (R171,
R185) and the silence of a suppressed Writer (R192). -/
abbrev EngineInv (s : State) : Prop :=
  readerState s ≠ .dispatch ∧ s.inCur ≤ 63 ∧
  5 ≤ s.outCur ∧ s.outCur ≤ 64 ∧
  (s.txPending = false → s.txPos = 0 ∧ s.outCur ≤ 62) ∧
  (s.txPending = true → HeldFrame s) ∧
  s.backlog ≤ 64 ∧
  (suppressed s = true → s.txPending = false ∧ s.mySerial = 0)

/-- The invariant of a state between two operations. -/
abbrev Inv (s : State) : Prop := RegistryInv s ∧ EngineInv s ∧ s.mem.wf = true

/-- The sub-packet of a slot's item as the registry and memory stand: the type byte and the region's current bytes
(R161). -/
def packet (s : State) (i : SlotIx) : List Byte := (s.slot i).id :: bytesAt s (s.slot i).region (s.slot i).size.toNat

/-- The `MemRead`s of an item's sub-packet (R62, R161). -/
def packetReads (s : State) (i : SlotIx) : List Event :=
  readEvents (s.slot i).region (bytesAt s (s.slot i).region (s.slot i).size.toNat)

/-- An event is a `MemRead`. -/
def Event.isRead : Event → Bool
  | .memRead _ _ => true
  | _ => false

/-- The payload bytes that the sub-packets of some slots take (R162). -/
def load (s : State) (l : List SlotIx) : Nat := (l.map fun i => 1 + (s.slot i).size.toNat).sum

/-- `l` is what one pass of EncodePayload takes from the candidates, with the cursor at `cur` before it: ascending, and
a candidate is taken exactly when there is room after those taken before it (R160, R162, R199). -/
abbrev TakenInOrder (s : State) (cur : Nat) (candidate : SlotIx → Prop) (l : List SlotIx) : Prop :=
  l.Pairwise (· < ·) ∧
  ∀ i, i ∈ l ↔ candidate i ∧ cur + load s (l.filter (· < i)) + 1 + (s.slot i).size.toNat ≤ 62

end Machine

/-- The operations in which an accepted frame or one of its items may be marked received (R142, R28). -/
def Instr.mayReceive : Instr → Bool
  | .markReceived _ _ | .dispatchItem _ _ | .decodePayload _ | .subpacket _ _ | .frame _ _ _ | .readerPhase
  | .stepCmd _ => true
  | _ => false

/-- The operations that clear `Received` (R142). -/
def Instr.mayConsume : Instr → Bool
  | .clrx _ | .take _ | .takep _ => true
  | _ => false

/-- The operations that set `ToSend` (R142). -/
def Instr.mayQueue : Instr → Bool
  | .send _ | .sendp _ | .markToSend _ => true
  | _ => false

/-- The operations in which an item may be included in a constructed frame (R142). -/
def Instr.mayInclude : Instr → Bool
  | .encodePayload _ | .constructFrame _ _ | .writerPhase _ | .stepCmd _ => true
  | _ => false

/-- The operations in which an autosend cycle may be encoded (R142, R160). -/
def Instr.mayRotate : Instr → Bool
  | .encodePayload true | .constructFrame _ true | .writerPhase _ | .stepCmd _ => true
  | _ => false

/-- A binding operation that gives no autosend item: a `bind` without autoSend, or an unbind (R132, R142). -/
def Instr.mayUnbind : Instr → Bool
  | .bind _ region _ autoSend => region == 0 || !autoSend
  | .unbind _ => true
  | _ => false

/-- A binding operation (R132, R96). -/
def Instr.isBind : Instr → Bool
  | .bind _ _ _ _ | .unbind _ => true
  | _ => false

namespace Machine

/-- Every hook call still to come returns (R240, R274). -/
abbrev HooksReturn (s : State) : Prop := HookAnswer.hangs ∉ s.hookAnswers

/-- A hook that returns writes nothing to application memory in any call still to come. -/
abbrev HooksWriteNothing (s : State) : Prop :=
  ∀ x ∈ s.hookAnswers, match x with
    | .returns _ writes => writes = []
    | .hangs => True

/-- The next input, if it is a command, is a presentation of R90: ENQ carries its `cmd_size` bytes. -/
abbrev Presentable (s : State) : Prop :=
  match s.inputs.head? with
  | some (.command p) => p.op = 0x0B → p.size.toNat ≤ p.data.length
  | _ => True

/-! Two engines and the bytes between them (spec/45_engine.md R223) -/

/-- What an engine goes through while it holds a frame: steps of the machine, none of them `begin` or the reset input,
each from a state in which the frame is held (R201, R203). -/
inductive Transmits : State → State → Prop where
  | done (s : State) : Transmits s s
  | more {s t u : State} : s.txPending = true → s.inputs.head? ≠ some (.env .reset) →
      (∀ p, s.inputs.head? = some (.command p) → p.op ≠ 0x02) → step s = .next t → Transmits t u → Transmits s u

/-- Two states with the same input buffer and the same account of accepted frames: between two ticks an engine passes
from the one to the other, whatever else the application and the line do, unless they reset it (R10, R216). -/
abbrev SameReader (s t : State) : Prop :=
  t.inBuf = s.inBuf ∧ t.lastRemoteSerial = s.lastRemoteSerial ∧ t.gotFirst = s.gotFirst

/-- Over some ticks an engine takes these bytes from its receive transport, in order: at each tick as many as the
transport delivers then, none among the choices (R247). -/
inductive Takes : State → List Byte → State → Prop where
  | none (s : State) : Takes s [] s
  | more {s t u v : State} {d e : List Byte} {now : Time} : Takes s d t → SameReader t u →
      exec (.stepCmd now) u = .next v → u.rxHeld = e ++ v.rxHeld → Takes s (d ++ e) v

end Machine

end Sys2Proof
end

