-- ==== Sys2Proof/Certificates/Slice0/Obligations.lean ====
section
/-! DEFINITION. The statements for the provers, in the order of the spec's files. Each docstring names the rule it
formalises; OBLIGATIONS.json says which are the spec's own words and which are derived. Where a statement speaks of
`log`, `result`, `freeIdx` or `inputs` it speaks of the model's own fields (log entries 1, 7, 8, 9); `rsp := .none` says
that the response ports hold no meaning (R91, log entry 6). -/

open Sys2Proof Sys2Proof.Machine

/-! Reset, `begin`, the machine's step -/

/-- R43: what reset leaves, and what `begin(w)` leaves. `crcAcc` and the header bytes of the output buffer, which R43
leaves unspecified, are not mentioned. -/
def Obligations.ResetAndBeginValues : Prop :=
  ((∀ i : SlotIx, State.reset.slot i =
      { used := false, id := 0, region := 0, size := 0,
        autoSend := false, received := false, toSend := false, wasAutoSent := false }) ∧
    State.reset.mySerial = 0 ∧ State.reset.lastRemoteSerial = 0 ∧ State.reset.lastAutoSendTime = 0 ∧
    State.reset.waitFirst = false ∧ State.reset.gotFirst = false ∧ State.reset.inCur = 0 ∧ State.reset.outCur = 5 ∧
    State.reset.txPending = false ∧ State.reset.txPos = 0 ∧ State.reset.backlog = 0) ∧
  ∀ (w : Bool) (s : State), 5 ≤ s.outCur → ∃ t, exec (.beginCmd w) s = .next t ∧
    t.slots = s.slots ∧ t.mySerial = 0 ∧ t.lastRemoteSerial = 0 ∧ t.lastAutoSendTime = 0 ∧ t.waitFirst = w ∧
    t.gotFirst = false ∧ t.inCur = 0 ∧ t.outCur = 5 ∧ t.txPending = false ∧ t.txPos = 0 ∧ t.backlog = 0 ∧
    t.mem = s.mem

/-- R216, with the frame: `begin` writes its engine registers and nothing else. The header bytes `o`, the accumulator `c`
and the index of free values `n` are left open. -/
def Obligations.BeginResetsTheEngineAlone : Prop :=
  ∀ (w : Bool) (s : State), 5 ≤ s.outCur → ∃ o c n, o.length = 5 ∧
    exec (.beginCmd w) s = .next { s with
      mySerial := 0, lastRemoteSerial := 0, lastAutoSendTime := 0, waitFirst := w, gotFirst := false,
      inBuf := [], outBuf := o, txPending := false, txPos := 0, backlog := 0,
      crcAcc := c, freeIdx := n, rsp := .none }

/-- R261: the reset input puts the block at its reset values, which `begin(false)` after it leaves as they are; the
accumulator and the header bytes `o` of the output buffer, which R43 leaves unspecified, are left open. That memory, the
transports and the log are not reached by the reset input (log entry 21), and that `begin` keeps the header bytes as they
are (log entry 10), is the model's choice. -/
def Obligations.ResetInputIsResetThenBeginFalse : Prop :=
  ∀ (s : State) (rest : List Input),
    s.inputs = .env .reset :: .command { op := 0x02, flag := false } :: rest → ∃ t u o c n c' n', o.length = 5 ∧
      step s = .next t ∧
      t = { State.reset with
        mem := s.mem, rxHeld := s.rxHeld, rxCounts := s.rxCounts, txSent := s.txSent, txCounts := s.txCounts,
        hookAnswers := s.hookAnswers, inputs := .command { op := 0x02, flag := false } :: rest, log := s.log,
        outBuf := o, crcAcc := c, freeIdx := n } ∧
      step t = .next u ∧ u = { t with inputs := rest, crcAcc := c', freeIdx := n' }

/-- R221: a command at the port is decoded and performed as one operation; R253: with nothing waiting the state is held. -/
def Obligations.StepRunsTheDecodedCommand : Prop :=
  (∀ (s : State) (p : PortCmd) (i : Instr) (rest : List Input),
    s.inputs = .command p :: rest → decode (.port p) = .ok i → step s = exec i { s with inputs := rest }) ∧
  ∀ s : State, s.inputs = [] → step s = .next s

/-- What the outside does between two operations: the application stores a byte, which reads back (R60, R63); bytes come to
rest in the receive transport behind those it holds (R66, R247); and the transports' choices and the hooks' answers for the
coming calls are announced behind those already announced (R247, R248, R236, R238), which is the model's form of them (log
entries 13, 14 and 15). -/
def Obligations.OutsideEventsReachMemoryAndTransport : Prop :=
  (∀ (s : State) (a : Addr) (v : Byte) (rest : List Input),
    s.inputs = .env (.appWrite a v) :: rest → s.mem.wf = true → ∃ t, step s = .next t ∧
      t = { s with inputs := rest, mem := t.mem } ∧ t.byteAt a = v ∧ ∀ b, b ≠ a → t.byteAt b = s.byteAt b) ∧
  (∀ (s : State) (bytes : List Byte) (rest : List Input),
    s.inputs = .env (.arrive bytes) :: rest →
      step s = .next { s with inputs := rest, rxHeld := s.rxHeld ++ bytes }) ∧
  (∀ (s : State) (counts : List Nat) (rest : List Input),
    (s.inputs = .env (.rxChoices counts) :: rest →
      step s = .next { s with inputs := rest, rxCounts := s.rxCounts ++ counts }) ∧
    (s.inputs = .env (.txChoices counts) :: rest →
      step s = .next { s with inputs := rest, txCounts := s.txCounts ++ counts })) ∧
  ∀ (s : State) (answers : List HookAnswer) (rest : List Input),
    s.inputs = .env (.hookChoices answers) :: rest →
      step s = .next { s with inputs := rest, hookAnswers := s.hookAnswers ++ answers }

/-- The state right after reset meets the invariant (R27, R42). -/
def Obligations.InvariantAtReset : Prop := Inv State.reset

/-- R27, R42, R171, R185, R192: every step keeps the invariant of the registry, of the engine registers and buffers, and
the canonical form of memory. -/
def Obligations.EveryStepKeepsTheInvariant : Prop :=
  ∀ s t : State, Inv s → step s = .next t → Inv t

/-- R230: no input, operand or transport behaviour stops the machine, as long as the hooks return (R240) and ENQ is
presented with its `cmd_size` bytes (R90). -/
def Obligations.NoStepStops : Prop :=
  ∀ s : State, HooksReturn s → Presentable s → ∃ t, step s = .next t

/-- R218, R224: `step(now)` is the Reader phase and then, on the state it leaves, the Writer phase. -/
def Obligations.TickIsReaderThenWriter : Prop :=
  ∀ (now : Time) (s : State), HooksReturn s → ∃ u v,
    exec .readerPhase s = .next u ∧ exec (.writerPhase now) u = .next v ∧
    exec (.stepCmd now) s = .next { v with rsp := .none }

/-- R220: `remoteSerial()` answers `lastRemoteSerial` and changes nothing else. -/
def Obligations.RemoteSerialAnswers : Prop :=
  ∀ s : State, exec .rser s = .next { s with rsp := .val s.lastRemoteSerial }

/-- R92, R93: the operation code alone selects the operation; the eleven codes of the table with their operands; every
other code is reserved, changes no state and writes no response. Two clauses rest on the model's reading of the spec: that
bytes of ENQ's data port beyond `cmd_size` are ignored (R90 gives exactly `cmd_size`; log entry 2), and that the decoder
reports a reserved code, which R93 has it report as invalid, as the operation `reserved` (log entry 5). -/
def Obligations.CommandCodesSelectTheOperation : Prop :=
  ∀ p : PortCmd,
    (p.op = 0x01 → decode (.port p) = .ok (.bind p.id p.region p.size p.flag)) ∧
    (p.op = 0x02 → decode (.port p) = .ok (.beginCmd p.flag)) ∧
    (p.op = 0x03 → decode (.port p) = .ok (.stepCmd p.now)) ∧
    (p.op = 0x04 → decode (.port p) = .ok .rser) ∧
    (p.op = 0x05 → decode (.port p) = .ok (.isrx p.id)) ∧
    (p.op = 0x06 → decode (.port p) = .ok (.clrx p.id)) ∧
    (p.op = 0x07 → decode (.port p) = .ok (.take p.id)) ∧
    (p.op = 0x08 → decode (.port p) = .ok (.takep p.region)) ∧
    (p.op = 0x09 → decode (.port p) = .ok (.send p.id)) ∧
    (p.op = 0x0A → decode (.port p) = .ok (.sendp p.region)) ∧
    (p.op = 0x0B → p.size.toNat ≤ p.data.length →
      decode (.port p) = .ok (.enq p.id (p.data.take p.size.toNat) p.size)) ∧
    (p.op = 0 ∨ 0x0C ≤ p.op.toNat →
      decode (.port p) = .ok (.reserved p.op) ∧ ∀ s : State, exec (.reserved p.op) s = .next { s with rsp := .none })

/-! Encodings (spec/30_encoding.md) -/

/-- Words written out from the encodings of the spec decode to the instructions they stand for (R92, R80, R85). -/
def Obligations.DecodesTheWrittenWords : Prop :=
  decode (.port { op := 0x01, id := 0x10, region := 0x1000, size := 2, flag := true }) = .ok (.bind 0x10 0x1000 2 true) ∧
  decode (.port { op := 0x03, now := 500 }) = .ok (.stepCmd 500) ∧
  decode (.port { op := 0x0A, region := 0x2000 }) = .ok (.sendp 0x2000) ∧
  decode (.port { op := 0x0B, id := 0x77, size := 2, data := [0xDE, 0xAD] }) = .ok (.enq 0x77 [0xDE, 0xAD] 2) ∧
  decode (.wire [0x55, 0xAA, 0x01, 0x00, 0x03, 0x10, 0xAA, 0xBB, 0x8F, 0xF9]) = .ok (.frame 0x01 0x00 [0x10, 0xAA, 0xBB]) ∧
  decode (.sub 2 [0x10, 0xAA, 0xBB]) = .ok (.subpacket 0x10 [0xAA, 0xBB])

/-- Decoding the words of a well-formed operation gives the operation back, a pseudo-operation as the operation it
abbreviates (R80 to R96). -/
def Obligations.DecodeOfEncodeIsTheInstruction : Prop :=
  ∀ (i : Instr) (w : Words), i.wf = true → encode i = some w → decode w = .ok i.expand

/-- R80, R82, R83, R84: the bytes at the head of the buffer are a frame exactly when they are magic, frameId, lastSeen, a
length of at most 57, the payload, and the checksum of length and payload with its low byte first. -/
def Obligations.FrameDecodingIsExact : Prop :=
  ∀ (b : List Byte) (frameId lastSeen : Byte) (p : List Byte),
    decodeWire b = .frame frameId lastSeen p ↔
      p.length ≤ 57 ∧ ∃ rest, b =
        [0x55, 0xAA, frameId, lastSeen, BitVec.ofNat 8 p.length] ++ p ++
          [(checksum16 (BitVec.ofNat 8 p.length :: p)).extractLsb' 0 8,
           (checksum16 (BitVec.ofNat 8 p.length :: p)).extractLsb' 8 8] ++ rest

/-! The checksum unit (spec/40_checksum.md) -/

/-- R110, R114: the unit's operations; the accumulator is the only register they write. -/
def Obligations.ChecksumUnitOperations : Prop :=
  (∀ (b : List Byte) (s : State),
    exec (.checksum16 b) s = .next { s with crcAcc := checksum16 b, result := .word (checksum16 b) }) ∧
  (∀ s : State, exec .crcInit s = .next { s with crcAcc := 0 }) ∧
  (∀ (b : Byte) (s : State), exec (.crcByte b) s = .next { s with
    crcAcc := (fun a : Half => if a.getLsbD 0 then (a >>> 1) ^^^ 0x8408 else a >>> 1)^[8] (s.crcAcc ^^^ b.setWidth 16) })

/-- R111: the checksum of a sequence is built byte by byte in sequence order from 0, eight shift steps for each byte;
with the rule's worked example and the example of R110. -/
def Obligations.ChecksumBySerialSteps : Prop :=
  checksum16 [] = 0 ∧
  (∀ (s : List Byte) (b : Byte), checksum16 (s ++ [b]) =
    (fun a : Half => if a.getLsbD 0 then (a >>> 1) ^^^ 0x8408 else a >>> 1)^[8] (checksum16 s ^^^ b.setWidth 16)) ∧
  (List.range 8).map (fun n => crcBits (n + 1) 0x0001) =
    [0x8408, 0x4204, 0x2102, 0x1081, 0x8C48, 0x4624, 0x2312, 0x1189] ∧
  checksum16 [0x01] = 0x1189 ∧
  checksum16 [0x31, 0x32, 0x33, 0x34, 0x35, 0x36, 0x37, 0x38, 0x39] = 0x2189

/-- R112: the checksum is the remainder of the message polynomial times `x^16` divided by `x^16 + x^12 + x^5 + 1`, over
GF(2): the message bits in processing order are the coefficients from the highest power down, and the coefficient of
`x^15` of the remainder is bit 0 of the result. -/
def Obligations.ChecksumIsThePolynomialRemainder : Prop :=
  ∀ s : List Byte, ∃ q r : Polynomial (ZMod 2),
    (∑ k : Fin s.length, ∑ j : Fin 8,
        if s[k].getLsbD j then (Polynomial.X ^ (8 * (s.length - 1 - k) + (7 - j)) : Polynomial (ZMod 2)) else 0) *
      Polynomial.X ^ 16 =
        q * (Polynomial.X ^ 16 + Polynomial.X ^ 12 + Polynomial.X ^ 5 + 1) + r ∧
    r.degree < 16 ∧
    ∀ i : Nat, i < 16 → ((checksum16 s).getLsbD i = true ↔ r.coeff (15 - i) = 1)

/-- R113: the byte-wise table form gives the same checksum; the first and the last row of the table. -/
def Obligations.ChecksumByTable : Prop :=
  (∀ s : List Byte, checksum16 s =
    s.foldl (fun (acc : Half) (b : Byte) => (acc >>> 8) ^^^ checksum16 [(acc ^^^ b.setWidth 16).extractLsb' 0 8]) 0) ∧
  (List.range 8).map (fun i => checksum16 [BitVec.ofNat 8 i]) =
    [0x0000, 0x1189, 0x2312, 0x329B, 0x4624, 0x57AD, 0x6536, 0x74BF] ∧
  (List.range 8).map (fun i => checksum16 [BitVec.ofNat 8 (0xF8 + i)]) =
    [0x7BC7, 0x6A4E, 0x58D5, 0x495C, 0x3DE3, 0x2C6A, 0x1EF1, 0x0F78]

/-- R116: leading zero bytes do not change the checksum, and the checksum of nothing is 0; so the shortest legal frame
ends in three zero bytes. -/
def Obligations.ChecksumIgnoresLeadingZeros : Prop :=
  checksum16 [] = 0x0000 ∧
  (∀ (n : Nat) (s : List Byte), checksum16 (List.replicate n 0x00 ++ s) = checksum16 s) ∧
  checksum16 [0x00] = 0x0000 ∧
  ∀ frameId lastSeen : Byte, encodeFrame frameId lastSeen [] = [0x55, 0xAA, frameId, lastSeen, 0x00, 0x00, 0x00]

/-- R117: the checksum is linear on sequences of equal length. -/
def Obligations.ChecksumIsLinear : Prop :=
  ∀ a b : List Byte, a.length = b.length →
    checksum16 (List.zipWith (· ^^^ ·) a b) = checksum16 a ^^^ checksum16 b

/-- R118: a sequence followed by its checksum, low byte first, has checksum 0, and no other two bytes do: the two
acceptance tests accept the same frames. With the rule's example. -/
def Obligations.ChecksumZeroResidue : Prop :=
  (∀ (s : List Byte) (low high : Byte), checksum16 (s ++ [low, high]) = 0x0000 ↔
    low = (checksum16 s).extractLsb' 0 8 ∧ high = (checksum16 s).extractLsb' 8 8) ∧
  checksum16 [0x03, 0x10, 0xAA, 0xBB] = 0xF98F ∧ checksum16 [0x03, 0x10, 0xAA, 0xBB, 0x8F, 0xF9] = 0x0000

/-- R119: whatever the parameters, the unit run with them computes what the general procedure gives; the block's checksum
is the instance `(0x1021, 0x0000, true, true, 0x0000)`; and with the parameters of each standard variant the procedure
gives that variant's check value. -/
def Obligations.ChecksumByCatalogue : Prop :=
  (∀ (p : Config.CrcParams) (s : List Byte), checksum16 s p = catalogueCrc p s) ∧
  (∀ s : List Byte, catalogueCrc ⟨0x1021, 0x0000, true, true, 0x0000⟩ s = checksum16 s) ∧
  ([⟨0x1021, 0x0000, true, true, 0x0000⟩, ⟨0x1021, 0x0000, false, false, 0x0000⟩, ⟨0x1021, 0xFFFF, false, false, 0x0000⟩,
    ⟨0x1021, 0xFFFF, true, true, 0xFFFF⟩, ⟨0x1021, 0xFFFF, true, true, 0x0000⟩, ⟨0x1021, 0xFFFF, false, false, 0xFFFF⟩,
    ⟨0x8005, 0x0000, true, true, 0x0000⟩, ⟨0x8005, 0xFFFF, true, true, 0x0000⟩,
    ⟨0x8005, 0xFFFF, true, true, 0xFFFF⟩] : List Config.CrcParams).map
      (fun p => catalogueCrc p [0x31, 0x32, 0x33, 0x34, 0x35, 0x36, 0x37, 0x38, 0x39]) =
    [0x2189, 0x31C3, 0x29B1, 0x906E, 0x6F91, 0xD64E, 0xBB3D, 0x4B37, 0xB4C8]

/-- R120: an error that is confined to 16 consecutive bits of payload and checksum, a single bit among them, is detected:
the candidate is no frame but a checksum mismatch. Bit `8 * k + j` is bit `j` of byte `k`, in processing order (R67). -/
def Obligations.BurstErrorsAreDetected : Prop :=
  ∀ (frameId lastSeen : Byte) (p e : List Byte) (b : Nat), p.length ≤ 57 → e.length = p.length + 2 →
    (∃ k j, j < 8 ∧ (e.getD k 0).getLsbD j = true) →
    (∀ k j, j < 8 → (e.getD k 0).getLsbD j = true → b ≤ 8 * k + j ∧ 8 * k + j < b + 16) →
    ∃ c, decodeWire ([0x55, 0xAA, frameId, lastSeen, BitVec.ofNat 8 p.length] ++
      List.zipWith (· ^^^ ·) e (p ++
        [(checksum16 (BitVec.ofNat 8 p.length :: p)).extractLsb' 0 8,
         (checksum16 (BitVec.ofNat 8 p.length :: p)).extractLsb' 8 8])) = .badChecksum p.length c

/-! The Item Registry (spec/41_registry.md) -/

/-- R130, R131: a lookup answers the lowest used slot with the id, or with the base address, and none where there is
none; nothing else changes. -/
def Obligations.LookupsFindTheLowestSlot : Prop :=
  (∀ (id : Byte) (s : State),
    (∀ i, Lowest (HoldsId s id) i → exec (.lookup id) s = .next { s with result := .slot (some i) }) ∧
    ((∀ j, ¬HoldsId s id j) → exec (.lookup id) s = .next { s with result := .slot none })) ∧
  ∀ (region : Addr) (s : State),
    (∀ i, Lowest (HoldsRegion s region) i →
      exec (.lookupByRegion region) s = .next { s with result := .slot (some i) }) ∧
    ((∀ j, ¬HoldsRegion s region j) → exec (.lookupByRegion region) s = .next { s with result := .slot none })

/-- R132, R133: the outcomes of `bind`, each with its frame: unbind of a bound id and of one that is not bound; refusal of
the operands; rebinding; binding to the lowest free slot; registry full. The log's error codes are those of R231. -/
def Obligations.BindFollowsItsRule : Prop :=
  ∀ (id : Byte) (region : Addr) (size : Byte) (autoSend : Bool) (s : State),
    (region = 0 → ∀ i, Lowest (HoldsId s id) i → exec (.bind id region size autoSend) s = .next { s with
      slots := s.slots.set i { used := false, id := 0, region := 0, size := 0, autoSend := false, received := false,
                               toSend := false, wasAutoSent := false }
      rsp := .none }) ∧
    (region = 0 → (∀ j, ¬HoldsId s id j) → exec (.bind id region size autoSend) s = .next { s with rsp := .none }) ∧
    (region ≠ 0 → size.toNat > 56 ∨ region.toNat + size.toNat > 2 ^ 32 →
      exec (.bind id region size autoSend) s = .next { s with log := s.log ++ [.error .arg], rsp := .none }) ∧
    (region ≠ 0 → size.toNat ≤ 56 → region.toNat + size.toNat ≤ 2 ^ 32 →
      (∀ i, Lowest (HoldsId s id) i ∨ (∀ j, ¬HoldsId s id j) ∧ Lowest (fun j => (s.slot j).used = false) i →
        exec (.bind id region size autoSend) s = .next { s with
          slots := s.slots.set i { used := true, id := id, region := region, size := size, autoSend := autoSend,
                                   received := false, toSend := false, wasAutoSent := false }
          rsp := .none }) ∧
      ((∀ j, ¬HoldsId s id j) → (∀ j, (s.slot j).used = true) →
        exec (.bind id region size autoSend) s = .next { s with log := s.log ++ [.error .full], rsp := .none }))

/-- `unbind(id)` frees the slot that holds the id, with every field cleared, and does nothing where none does (R96, R132,
R133). -/
def Obligations.UnbindFreesTheSlot : Prop :=
  ∀ (id : Byte) (s : State),
    (∀ i, Lowest (HoldsId s id) i → exec (.unbind id) s = .next { s with
      slots := s.slots.set i { used := false, id := 0, region := 0, size := 0, autoSend := false, received := false,
                               toSend := false, wasAutoSent := false }
      rsp := .none }) ∧
    ((∀ j, ¬HoldsId s id j) → exec (.unbind id) s = .next { s with rsp := .none })

/-- R96: `unbind(id)` is `bind(id, NULL, 0, false)`; the pointer forms are the id forms on the found slot's id;
`sendNow(id)` is `markToSend(id)`. -/
def Obligations.AbbreviationsAreExact : Prop :=
  ∀ s : State, RegistryInv s →
    (∀ id, exec (.unbind id) s = exec (.bind id 0 0 false) s) ∧
    (∀ region i, Lowest (HoldsRegion s region) i →
      exec (.sendp region) s = exec (.send (s.slot i).id) s ∧
      exec (.takep region) s = exec (.take (s.slot i).id) s) ∧
    (∀ id, ∃ t u b, exec (.send id) s = .next t ∧ exec (.markToSend id) s = .next u ∧
      t.slots = u.slots ∧ t.rsp = .bool b ∧ u.result = .bool b)

/-- R134, R155: `markReceived` writes the first `min(n, size)` bytes to the region of the slot that holds the id, each at
base plus offset, in ascending order, sets its `Received`, and changes nothing else; an id that is not bound has no
effect; DispatchItem does the same. R155 states DispatchItem for a known type and its `size` bytes only: that it does the
same, run by itself, for an id that is not bound and for a `src` of another length is the model's choice (log entry 17). -/
def Obligations.MarkReceivedWritesTheRegion : Prop :=
  ∀ (id : Byte) (src : List Byte) (s : State),
    ((∀ j, ¬HoldsId s id j) →
      exec (.markReceived id src) s = .next s ∧ exec (.dispatchItem id src) s = .next s) ∧
    ∀ i, Lowest (HoldsId s id) i → s.mem.wf = true → ∃ t,
      exec (.markReceived id src) s = .next t ∧ exec (.dispatchItem id src) s = .next t ∧
      t = { s with
        slots := s.slots.set i { s.slot i with received := true }
        mem := t.mem
        log := s.log ++ (src.take (s.slot i).size.toNat).mapIdx fun k b =>
          .memWrite ((s.slot i).region + BitVec.ofNat 32 k) b } ∧
      (∀ k, k < min src.length (s.slot i).size.toNat →
        t.byteAt ((s.slot i).region + BitVec.ofNat 32 k) = src.getD k 0) ∧
      ∀ a, (∀ k, k < min src.length (s.slot i).size.toNat → a ≠ (s.slot i).region + BitVec.ofNat 32 k) →
        t.byteAt a = s.byteAt a

/-- R136, R137: `isReceived` answers the flag and changes nothing; `clearReceived` clears it; an id that is not bound
reads as false, or is ignored (E_NOTFOUND, R231). -/
def Obligations.FreshnessQueriesAnswerTheFlag : Prop :=
  ∀ (id : Byte) (s : State),
    (∀ i, Lowest (HoldsId s id) i →
      exec (.isrx id) s = .next { s with rsp := .bool (s.slot i).received } ∧
      exec (.clrx id) s = .next { s with slots := s.slots.set i { s.slot i with received := false }, rsp := .none }) ∧
    ((∀ j, ¬HoldsId s id j) →
      exec (.isrx id) s = .next { s with rsp := .bool false, log := s.log ++ [.error .notFound] } ∧
      exec (.clrx id) s = .next { s with rsp := .none, log := s.log ++ [.error .notFound] })

/-- R138, R139: `takeFresh` by id and by region answers the flag and clears it; where nothing is found it answers false;
and whatever the first call answered, a second one answers false and changes no slot. -/
def Obligations.TakeFreshTestsAndClears : Prop :=
  (∀ (id : Byte) (s : State),
    (∀ i, Lowest (HoldsId s id) i → exec (.take id) s = .next { s with
      slots := s.slots.set i { s.slot i with received := false }, rsp := .bool (s.slot i).received }) ∧
    ((∀ j, ¬HoldsId s id j) →
      exec (.take id) s = .next { s with rsp := .bool false, log := s.log ++ [.error .notFound] })) ∧
  (∀ (region : Addr) (s : State),
    (∀ i, Lowest (HoldsRegion s region) i → exec (.takep region) s = .next { s with
      slots := s.slots.set i { s.slot i with received := false }, rsp := .bool (s.slot i).received }) ∧
    ((∀ j, ¬HoldsRegion s region j) →
      exec (.takep region) s = .next { s with rsp := .bool false, log := s.log ++ [.error .notFound] })) ∧
  (∀ (id : Byte) (s t : State), exec (.take id) s = .next t →
    ∃ u, exec (.take id) t = .next u ∧ u.rsp = .bool false ∧ u.slots = t.slots) ∧
  ∀ (region : Addr) (s t : State), exec (.takep region) s = .next t →
    ∃ u, exec (.takep region) t = .next u ∧ u.rsp = .bool false ∧ u.slots = t.slots

/-- R135, R140, R141: `markToSend`, `sendNow(id)` and `sendNow(pointer)` set `ToSend` of the found slot and answer true;
where nothing is found they answer false. Nothing is transmitted. -/
def Obligations.SendMarksTheItem : Prop :=
  (∀ (id : Byte) (s : State),
    (∀ i, Lowest (HoldsId s id) i →
      exec (.send id) s = .next { s with
        slots := s.slots.set i { s.slot i with toSend := true }, rsp := .bool true } ∧
      exec (.markToSend id) s = .next { s with
        slots := s.slots.set i { s.slot i with toSend := true }, result := .bool true }) ∧
    ((∀ j, ¬HoldsId s id j) →
      exec (.send id) s = .next { s with rsp := .bool false, log := s.log ++ [.error .notFound] } ∧
      exec (.markToSend id) s = .next { s with result := .bool false, log := s.log ++ [.error .notFound] })) ∧
  ∀ (region : Addr) (s : State),
    (∀ i, Lowest (HoldsRegion s region) i → exec (.sendp region) s = .next { s with
      slots := s.slots.set i { s.slot i with toSend := true }, rsp := .bool true }) ∧
    ((∀ j, ¬HoldsRegion s region j) →
      exec (.sendp region) s = .next { s with rsp := .bool false, log := s.log ++ [.error .notFound] })

/-- R142, R28, over every operation: which operations can change the binding of a slot, and which can raise or lower each
of its four flags. -/
def Obligations.OnlyTheirOperationsChangeTheFlags : Prop :=
  ∀ (i : Instr) (s t : State), exec i s = .next t → ∀ j : SlotIx,
    (i.isBind = false →
      (t.slot j).used = (s.slot j).used ∧ (t.slot j).id = (s.slot j).id ∧ (t.slot j).region = (s.slot j).region ∧
      (t.slot j).size = (s.slot j).size) ∧
    ((s.slot j).autoSend = false → (t.slot j).autoSend = true → ∃ id region size, i = .bind id region size true) ∧
    ((s.slot j).autoSend = true → (t.slot j).autoSend = false → i.mayUnbind = true) ∧
    ((s.slot j).received = false → (t.slot j).received = true → i.mayReceive = true) ∧
    ((s.slot j).received = true → (t.slot j).received = false → i.mayConsume = true ∨ i.isBind = true) ∧
    ((s.slot j).toSend = false → (t.slot j).toSend = true → i.mayQueue = true) ∧
    ((s.slot j).toSend = true → (t.slot j).toSend = false → i.mayInclude = true ∨ i.isBind = true) ∧
    ((s.slot j).wasAutoSent = false → (t.slot j).wasAutoSent = true → i.mayRotate = true) ∧
    ((s.slot j).wasAutoSent = true → (t.slot j).wasAutoSent = false → i.mayRotate = true ∨ i.isBind = true)

/-! Application memory (spec/20_memory.md) -/

/-- R61, R156, over every operation: a byte of application memory outside the regions of the used slots is never written,
where the application's hooks write nothing. -/
def Obligations.EngineWritesOnlyBoundRegions : Prop :=
  ∀ (i : Instr) (s t : State) (a : Addr), RegistryInv s → HooksWriteNothing s → exec i s = .next t →
    (∀ j : SlotIx, (s.slot j).used = true → ¬InRegion (s.slot j) a) → t.byteAt a = s.byteAt a

/-! The Packet Codec (spec/42_codec.md) -/

/-- R152, R153, R154, R239: decoding of a payload, sub-packet by sub-packet. An empty payload does nothing; a known type
with its data is dispatched and decoding goes on; a truncated one stops it; an unknown type is given to the hook, with
the error recorded (R231) and everything before it done, and its answer `c` skips `c` bytes or stops. -/
def Obligations.DecodePayloadFollowsItsLoop : Prop :=
  ∀ s : State, exec (.decodePayload []) s = .next s ∧
    ∀ (t : Byte) (rest : List Byte),
      (∀ i, Lowest (HoldsId s t) i →
        ((s.slot i).size.toNat ≤ rest.length → exec (.decodePayload (t :: rest)) s =
          andThen (exec (.dispatchItem t (rest.take (s.slot i).size.toNat)) s)
            (exec (.decodePayload (rest.drop (s.slot i).size.toNat)))) ∧
        (rest.length < (s.slot i).size.toNat →
          exec (.decodePayload (t :: rest)) s = .next { s with log := s.log ++ [.error .trunc] })) ∧
      ((∀ j, ¬HoldsId s t j) →
        (s.hookAnswers = [] → exec (.decodePayload (t :: rest)) s =
          .next { s with log := s.log ++ [.error .unknown, .unknownHook t rest] }) ∧
        ∀ c writes answers, s.hookAnswers = .returns c writes :: answers → ∃ u,
          u = hookStores writes { s with
            hookAnswers := answers, log := s.log ++ [.error .unknown, .unknownHook t rest] } ∧
          (c = 0 ∨ rest.length < c → exec (.decodePayload (t :: rest)) s = .next u) ∧
          (1 ≤ c → c ≤ rest.length →
            exec (.decodePayload (t :: rest)) s = exec (.decodePayload (rest.drop c)) u))

/-- R150, R152: decoding ends (R158), and it changes memory, the `Received` flags, the hook answers and the log, nothing
else; a flag is only set. -/
def Obligations.DecodePayloadKeepsTheEngine : Prop :=
  ∀ (p : List Byte) (s : State), HooksReturn s → ∃ t, exec (.decodePayload p) s = .next t ∧
    t = { s with slots := t.slots, mem := t.mem, hookAnswers := t.hookAnswers, log := t.log } ∧
    ∀ i, t.slot i = { s.slot i with received := (t.slot i).received } ∧
      ((s.slot i).received = true → (t.slot i).received = true)

/-- A sub-packet by itself is one pass of the decoding loop (R85, R152; that SUBPACKET means this pass, and that it
returns the count of data bytes consumed, is the model's choice: log entries 7 and 19). -/
def Obligations.SubpacketIsOnePass : Prop :=
  ∀ (typ : Byte) (data : List Byte) (s : State),
    (∀ i, Lowest (HoldsId s typ) i →
      ((s.slot i).size.toNat ≤ data.length → ∃ u,
        exec (.dispatchItem typ (data.take (s.slot i).size.toNat)) s = .next u ∧
        exec (.subpacket typ data) s = .next { u with result := .consumed (some (s.slot i).size.toNat) }) ∧
      (data.length < (s.slot i).size.toNat → exec (.subpacket typ data) s =
        .next { s with log := s.log ++ [.error .trunc], result := .consumed none })) ∧
    ((∀ j, ¬HoldsId s typ j) →
      (s.hookAnswers = [] → exec (.subpacket typ data) s = .next { s with
        log := s.log ++ [.error .unknown, .unknownHook typ data], result := .consumed none }) ∧
      ∀ c writes answers, s.hookAnswers = .returns c writes :: answers → ∃ u,
        u = hookStores writes { s with
          hookAnswers := answers, log := s.log ++ [.error .unknown, .unknownHook typ data] } ∧
        exec (.subpacket typ data) s = .next { u with
          result := .consumed (if c = 0 ∨ data.length < c then none else some c) })

/-- R160, R199: the payload is the staged bytes, then the queued items (`a`), then in an autosend cycle the autosend items
that have not had their turn (`b`), then those that have (`c`), each pass in ascending slot order taking every candidate
that still fits; no item twice; `ToSend` is cleared on inclusion, `WasAutoSent` set on inclusion in an autosend cycle and
cleared for all slots when every autosend item has had its turn; the reads of memory follow that order (R74). -/
def Obligations.EncodePayloadBuildsThePayload : Prop :=
  ∀ (due : Bool) (s : State), s.txPending = false → ∃ a b c t, exec (.encodePayload due) s = .next t ∧
    TakenInOrder s s.outCur (fun i => (s.slot i).used = true ∧ (s.slot i).toSend = true) a ∧
    (due = false → b = [] ∧ c = []) ∧
    (due = true →
      TakenInOrder s (s.outCur + load s a) (fun i => (s.slot i).used = true ∧ (s.slot i).autoSend = true ∧
        (s.slot i).wasAutoSent = false ∧ i ∉ a) b ∧
      TakenInOrder s (s.outCur + load s a + load s b) (fun i => (s.slot i).used = true ∧
        (s.slot i).autoSend = true ∧ (s.slot i).wasAutoSent = true ∧ i ∉ a) c) ∧
    t = { s with slots := t.slots, outBuf := s.outBuf ++ (a ++ b ++ c).flatMap (packet s), log := t.log } ∧
    (∀ i, t.slot i = { s.slot i with
      toSend := (s.slot i).toSend && !decide (i ∈ a)
      wasAutoSent := ((s.slot i).wasAutoSent || due && ((s.slot i).autoSend && decide (i ∈ a) || decide (i ∈ b))) &&
        !(due && decide (∀ j, (s.slot j).used = true → (s.slot j).autoSend = true →
          (s.slot j).wasAutoSent = true ∨ j ∈ a ∨ j ∈ b)) }) ∧
    s.log <+: t.log ∧
    t.log.filter Event.isRead = s.log.filter Event.isRead ++ (a ++ b ++ c).flatMap (packetReads s)

/-- R161, R162: `Fits` answers whether the payload with the item is at most 57 bytes; `Append` puts the type byte and the
region's current bytes at the cursor, reading them in ascending order. No rule calls `Append` while a frame is held (R159,
R160): that it does the same there is the model's choice (log entry 17). -/
def Obligations.AppendCopiesTheRegion : Prop :=
  ∀ (i : SlotIx) (s : State),
    exec (.fits i) s = .next { s with result := .bool (decide (s.outCur + 1 + (s.slot i).size.toNat ≤ 62)) } ∧
    ((s.slot i).used = true → s.outCur + 1 + (s.slot i).size.toNat ≤ 62 → ∃ d : List Byte,
      d.length = (s.slot i).size.toNat ∧
      (∀ k, k < d.length → d.getD k 0 = s.byteAt ((s.slot i).region + BitVec.ofNat 32 k)) ∧
      exec (.append i) s = .next { s with
        outBuf := s.outBuf ++ (s.slot i).id :: d
        log := s.log ++ d.mapIdx fun k b => .memRead ((s.slot i).region + BitVec.ofNat 32 k) b })

/-- R164: `enqueuePayload` stages the type byte and the data when no frame is held and they fit, and answers true;
otherwise it answers false (E_SPACE, R231) and changes nothing. -/
def Obligations.EnqueueStagesOrFails : Prop :=
  ∀ (id : Byte) (data : List Byte) (length : Byte) (s : State), data.length = length.toNat →
    (s.txPending = true ∨ 62 < s.outCur + 1 + length.toNat → exec (.enq id data length) s =
      .next { s with rsp := .bool false, log := s.log ++ [.error .space] }) ∧
    (s.txPending = false → s.outCur + 1 + length.toNat ≤ 62 → exec (.enq id data length) s =
      .next { s with rsp := .bool true, outBuf := s.outBuf ++ id :: data })

/-! The Reader (spec/43_reader.md) -/

/-- R172: `Fill` appends the oldest bytes the transport chooses to deliver, at most the free bytes, and a Reader phase calls
it once, first; `Drop` removes the first bytes; `Discard` tells the hook the bytes as they stand and then removes
them. -/
def Obligations.BufferPrimitivesFollowTheirRule : Prop :=
  (∀ s : State, s.inCur ≤ 64 → ∃ d held, s.rxHeld = d ++ held ∧ d.length ≤ 64 - s.inCur ∧
    d.length = (match s.rxCounts with
      | [] => min (64 - s.inCur) s.rxHeld.length
      | k :: _ => min k (min (64 - s.inCur) s.rxHeld.length)) ∧
    exec .fill s = .next { s with
      inBuf := s.inBuf ++ d, rxHeld := held, rxCounts := s.rxCounts.tail
      log := s.log ++ [.rx (64 - s.inCur) d] }) ∧
  (∀ (m : Nat) (s : State), 1 ≤ m → m ≤ s.inCur →
    exec (.drop m) s = .next { s with inBuf := s.inBuf.drop m } ∧
    (s.hookAnswers = [] → exec (.discard m) s = .next { s with
      inBuf := s.inBuf.drop m, log := s.log ++ [.discard (s.inBuf.take m)] }) ∧
    ∀ c writes answers, s.hookAnswers = .returns c writes :: answers → ∃ u,
      u = hookStores writes { s with hookAnswers := answers, log := s.log ++ [.discard (s.inBuf.take m)] } ∧
      exec (.discard m) s = .next { u with inBuf := s.inBuf.drop m }) ∧
  ∀ s : State, ∃ u, exec .fill s = .next u ∧ exec .readerPhase s = parse u

/-- R174: scanning slides by one byte, without the discard hook; a lone `0x55` at the end is kept. -/
def Obligations.ScanningSlidesByOneByte : Prop :=
  ∀ s : State,
    (∀ b rest, s.inBuf = b :: rest → b ≠ 0x55 →
      parse s = parse { s with inBuf := rest, log := s.log ++ [.error .magic] }) ∧
    (∀ b rest, s.inBuf = 0x55 :: b :: rest → b ≠ 0xAA →
      parse s = parse { s with inBuf := b :: rest, log := s.log ++ [.error .magic] }) ∧
    (s.inBuf = [0x55] ∨ s.inBuf = [] → parse s = .next s)

/-- R177: a complete header with a length above 57 discards every buffered byte with one notification, before any payload
byte is needed. -/
def Obligations.CorruptLengthDiscardsAll : Prop :=
  ∀ (s : State) (frameId lastSeen len : Byte) (body : List Byte),
    s.inBuf = 0x55 :: 0xAA :: frameId :: lastSeen :: len :: body → 57 < len.toNat →
    (s.hookAnswers = [] →
      parse s = .next { s with inBuf := [], log := s.log ++ [.error .len, .discard s.inBuf] }) ∧
    ∀ c writes answers, s.hookAnswers = .returns c writes :: answers → ∃ u,
      u = hookStores writes { s with hookAnswers := answers, log := s.log ++ [.error .len, .discard s.inBuf] } ∧
      parse s = .next { u with inBuf := [] }

/-- R179: a complete candidate whose checksum differs is discarded with one notification of its `7 + L` bytes, nothing but
the buffer (and the scratch accumulator) changes, and scanning resumes after it. -/
def Obligations.ChecksumMismatchDiscardsTheCandidate : Prop :=
  ∀ (s : State) (frameId lastSeen low high : Byte) (p rest : List Byte), p.length ≤ 57 →
    s.inBuf = [0x55, 0xAA, frameId, lastSeen, BitVec.ofNat 8 p.length] ++ p ++ [low, high] ++ rest →
    high ++ low ≠ checksum16 (BitVec.ofNat 8 p.length :: p) →
    (s.hookAnswers = [] → parse s = parse { s with
      inBuf := rest, crcAcc := checksum16 (BitVec.ofNat 8 p.length :: p)
      log := s.log ++ [.error .crc, .discard (s.inBuf.take (7 + p.length))] }) ∧
    ∀ c writes answers, s.hookAnswers = .returns c writes :: answers → ∃ u,
      u = hookStores writes { s with
        hookAnswers := answers, crcAcc := checksum16 (BitVec.ofNat 8 p.length :: p)
        log := s.log ++ [.error .crc, .discard (s.inBuf.take (7 + p.length))] } ∧
      parse s = parse { u with inBuf := rest }

/-- R180: acceptance writes `lastRemoteSerial` and `gotFirst`, then decodes the payload, then removes the `7 + L` bytes;
the Reader does this to a valid frame at the head of its buffer and goes on with what follows. The accepted frame is
recorded in the log, as R181 allows. FRAME run as an instruction does it whatever the buffer holds, leaves the accumulator
at the checksum and drops the first `7 + L` bytes buffered: that is the model's choice (log entry 18). -/
def Obligations.FrameIsAccepted : Prop :=
  ∀ (frameId lastSeen : Byte) (p : List Byte) (s : State), p.length ≤ 57 → HooksReturn s → ∃ u,
    exec (.decodePayload p) { s with
      lastRemoteSerial := frameId, gotFirst := true, crcAcc := checksum16 (BitVec.ofNat 8 p.length :: p)
      log := s.log ++ [.accepted frameId lastSeen] } = .next u ∧
    u.inBuf = s.inBuf ∧ u.lastRemoteSerial = frameId ∧ u.gotFirst = true ∧
    exec (.frame frameId lastSeen p) s = .next { u with inBuf := s.inBuf.drop (7 + p.length) } ∧
    ∀ rest, s.inBuf = encodeFrame frameId lastSeen p ++ rest → parse s = parse { u with inBuf := rest }

/-- R185, R171: after every Reader phase the buffer is in one of the five resting conditions, and has room. -/
def Obligations.ReaderRestsWithRoom : Prop :=
  ∀ s : State, HooksReturn s → ∃ t, exec .readerPhase s = .next t ∧ t.inCur ≤ 63 ∧
    (t.inCur = 0 ∧ readerState t = .scanning ∨
     t.inBuf = [0x55] ∧ readerState t = .scanning ∨
     2 ≤ t.inCur ∧ t.inCur ≤ 4 ∧ t.inBuf.take 2 = [0x55, 0xAA] ∧ readerState t = .headerWait ∨
     5 ≤ t.inCur ∧ t.inBuf.take 2 = [0x55, 0xAA] ∧ (t.inBuf.getD 4 0).toNat ≤ 57 ∧
       t.inCur < 5 + (t.inBuf.getD 4 0).toNat ∧ readerState t = .payloadWait ∨
     5 ≤ t.inCur ∧ t.inBuf.take 2 = [0x55, 0xAA] ∧ (t.inBuf.getD 4 0).toNat ≤ 57 ∧
       5 + (t.inBuf.getD 4 0).toNat ≤ t.inCur ∧ t.inCur < 7 + (t.inBuf.getD 4 0).toNat ∧
       readerState t = .checksumWait)

/-- R187: what a Reader phase leaves alone: everything but the input side, `lastRemoteSerial`, `gotFirst`, the scratch
accumulator, memory and the `Received` flags, which it only sets. -/
def Obligations.ReaderLeavesTheWriterAlone : Prop :=
  ∀ s : State, HooksReturn s → ∃ t, exec .readerPhase s = .next t ∧
    t = { s with
      slots := t.slots, lastRemoteSerial := t.lastRemoteSerial, gotFirst := t.gotFirst, inBuf := t.inBuf,
      crcAcc := t.crcAcc, mem := t.mem, rxHeld := t.rxHeld, rxCounts := t.rxCounts, hookAnswers := t.hookAnswers,
      log := t.log } ∧
    (s.gotFirst = true → t.gotFirst = true) ∧
    ∀ i, t.slot i = { s.slot i with received := (t.slot i).received } ∧
      ((s.slot i).received = true → (t.slot i).received = true)

/-- R186: noise that holds no `0x55 0xAA` does not cost the frame behind it. Whatever else it is, scanning drops it, and
keeps at most a final `0x55`; a frame not yet complete behind it is waited for; once its last byte is buffered it is
accepted in that Reader phase. -/
def Obligations.NoiseBeforeAFrameIsSkipped : Prop :=
  ∀ (s u : State) (noise p rest : List Byte) (frameId lastSeen : Byte),
    ¬[0x55, 0xAA] <:+: noise → p.length ≤ 57 → exec .fill s = .next u →
    (u.inBuf = noise → ∃ t, exec .readerPhase s = .next t ∧
      t.inBuf = (if noise.getLast? = some 0x55 then [0x55] else []) ∧ t.gotFirst = s.gotFirst) ∧
    (∀ k, 1 ≤ k → k < 7 + p.length → u.inBuf = noise ++ (encodeFrame frameId lastSeen p).take k →
      ∃ t, exec .readerPhase s = .next t ∧ t.inBuf = (encodeFrame frameId lastSeen p).take k ∧
        t.gotFirst = s.gotFirst ∧ t.lastRemoteSerial = s.lastRemoteSerial) ∧
    (u.inBuf = noise ++ encodeFrame frameId lastSeen p ++ rest → HooksReturn s →
      exec .readerPhase s = andThen (exec (.frame frameId lastSeen p) { u with
        inBuf := encodeFrame frameId lastSeen p ++ rest
        log := u.log ++ List.replicate noise.length (.error .magic) }) parse ∧
      ∃ t, exec .readerPhase s = .next t ∧ t.gotFirst = true ∧
        (rest = [] → t.inBuf = [] ∧ t.lastRemoteSerial = frameId))

/-! The Writer (spec/44_writer.md) -/

/-- R191, R192, R193, R194, R205: the Writer phase does nothing while suppressed, goes on with a held frame, does nothing
without a reason to emit, and otherwise constructs a frame and makes the first attempt to send it. R205 gives the threshold
for a backlog of up to 64; that it continues the same curve for a larger one, which no run reaches, is the model's choice
(log entry 31). -/
def Obligations.WriterPhaseFollowsItsRule : Prop :=
  ∀ (now : Time) (s : State), ∃ t, exec (.writerPhase now) s = .next t ∧
    (s.waitFirst = true → s.gotFirst = false → t = s) ∧
    (s.waitFirst = false ∨ s.gotFirst = true →
      (s.txPending = true → ∃ u, exec .txAttempt s = .next u ∧ exec .backlogUpdate u = .next t) ∧
      (s.txPending = false → ∀ due, due = decide (500 + 7500 * s.backlog / 64 ≤ (now - s.lastAutoSendTime).toNat) →
        ((∀ i, ¬((s.slot i).used = true ∧ (s.slot i).toSend = true)) → s.outCur ≤ 5 → due = false → t = s) ∧
        ((∃ i, (s.slot i).used = true ∧ (s.slot i).toSend = true) ∨ 5 < s.outCur ∨ due = true →
          ∃ u v, exec (.constructFrame now due) s = .next u ∧ exec .txAttempt u = .next v ∧
            exec .backlogUpdate v = .next t)))

/-- R195, R196, R197, R198: a new frame has the next serial number, skipping 0; the payload EncodePayload builds; header
and checksum around it; and its bookkeeping. The accumulator is left at the checksum. -/
def Obligations.ConstructFrameBuildsTheFrame : Prop :=
  ∀ (now : Time) (due : Bool) (s : State), s.txPending = false → 5 ≤ s.outCur → s.outCur ≤ 62 → ∃ u p c,
    exec (.encodePayload due) { s with mySerial := if s.mySerial = 255 then 1 else s.mySerial + 1 } = .next u ∧
    p = u.outBuf.drop 5 ∧ p.length ≤ 57 ∧ c = checksum16 (BitVec.ofNat 8 p.length :: p) ∧ u.mySerial ≠ 0 ∧
    exec (.constructFrame now due) s = .next { u with
      outBuf := [0x55, 0xAA, if s.mySerial = 255 then 1 else s.mySerial + 1, s.lastRemoteSerial,
        BitVec.ofNat 8 p.length] ++ p ++ [c.extractLsb' 0 8, c.extractLsb' 8 8]
      txPending := true, txPos := 0, crcAcc := c
      lastAutoSendTime := if due then now else s.lastAutoSendTime
      backlog := if due then 0 else s.backlog }

/-- R200: one attempt offers the bytes not yet accepted; the transport takes a first part of its choice; when the whole
frame is accepted the buffer is free (that its five header bytes stay as they are is the model's choice: log entry 10). -/
def Obligations.TransmissionAttemptOffersTheRest : Prop :=
  ∀ s : State, s.txPending = true → ∃ k, k ≤ s.outCur - s.txPos ∧
    k = (match s.txCounts with
      | [] => s.outCur - s.txPos
      | n :: _ => min n (s.outCur - s.txPos)) ∧
    (s.txPos + k = s.outCur → exec .txAttempt s = .next { s with
      txSent := s.txSent ++ (s.outBuf.drop s.txPos).take k, txCounts := s.txCounts.tail
      log := s.log ++ [.tx (s.outBuf.drop s.txPos) k]
      txPending := false, txPos := 0, outBuf := s.outBuf.take 5 }) ∧
    (s.txPos + k ≠ s.outCur → exec .txAttempt s = .next { s with
      txSent := s.txSent ++ (s.outBuf.drop s.txPos).take k, txCounts := s.txCounts.tail
      log := s.log ++ [.tx (s.outBuf.drop s.txPos) k], txPos := s.txPos + k })

/-- R205: the autosend threshold, its bounds, that it does not decrease, and the rule's sample values. The rule gives it for
`b` up to 64; that above it PACE completes all the same, with a value that is left open, is the model's choice (log entry
31). -/
def Obligations.PaceIsLinearBetweenItsBounds : Prop :=
  (∀ (b : Nat) (s : State), ∃ n, exec (.pace b) s = .next { s with result := .count n } ∧
    (b ≤ 64 → n = 500 + 7500 * b / 64)) ∧
  (∀ a b : Nat, a ≤ b → b ≤ 64 → 500 ≤ pace a ∧ pace a ≤ pace b ∧ pace b ≤ 8000) ∧
  [0, 1, 7, 8, 16, 32, 48, 63, 64].map pace = [500, 617, 1320, 1437, 2375, 4250, 6125, 7882, 8000]

/-- R206: the backlog is the peak of the held frame's bytes left unaccepted. -/
def Obligations.BacklogKeepsThePeak : Prop :=
  ∀ s : State, exec .backlogUpdate s =
    .next { s with backlog := max s.backlog (if s.txPending then s.outCur - s.txPos else 0) }

/-- R201, R203: a held frame is immutable. Through any step but `begin` and reset the transport receives the next bytes of
that very frame, and either it is still held, unchanged, or it is wholly accepted; no serial number is consumed. -/
def Obligations.HeldFrameIsImmutable : Prop :=
  ∀ s t : State, Inv s → s.txPending = true → s.inputs.head? ≠ some (.env .reset) →
    (∀ p, s.inputs.head? = some (.command p) → p.op ≠ 0x02) → step s = .next t →
    t.mySerial = s.mySerial ∧ ∃ k, t.txSent = s.txSent ++ (s.outBuf.drop s.txPos).take k ∧
      (t.txPending = true ∧ t.outBuf = s.outBuf ∧ t.txPos = s.txPos + k ∧ s.txPos + k < s.outCur ∨
       t.txPending = false ∧ s.txPos + k = s.outCur)

/-- R207: two autosend cycles are at least 500 time units apart, and a tick with no frame held and no suppression, 8000 or
more after the last cycle, constructs one. -/
def Obligations.AutosendKeepsItsInterval : Prop :=
  (∀ (now : Time) (s t : State), exec (.stepCmd now) s = .next t → t.lastAutoSendTime ≠ s.lastAutoSendTime →
    t.lastAutoSendTime = now ∧ 500 ≤ (now - s.lastAutoSendTime).toNat ∧ s.txPending = false) ∧
  ∀ (now : Time) (s : State), HooksReturn s → s.txPending = false → s.waitFirst = false ∨ s.gotFirst = true →
    s.backlog ≤ 64 → 8000 ≤ (now - s.lastAutoSendTime).toNat →
    ∃ t, exec (.stepCmd now) s = .next t ∧ t.lastAutoSendTime = now ∧
      t.mySerial = (if s.mySerial = 255 then 1 else s.mySerial + 1)

/-- R190, R210: a Writer phase changes the output side only; it hands the transport at most 64 bytes. Where no frame was held
before and bytes are handed over, the first of them is 0x55 and the third is the new serial number, which is not 0. (Where a
frame was held, `HeldFrameIsImmutable` says whose bytes they are.) -/
def Obligations.WriterLeavesTheReaderAlone : Prop :=
  ∀ (now : Time) (s : State), EngineInv s → ∃ t, exec (.writerPhase now) s = .next t ∧
    t = { s with
      slots := t.slots, mySerial := t.mySerial, lastAutoSendTime := t.lastAutoSendTime, backlog := t.backlog,
      outBuf := t.outBuf, txPending := t.txPending, txPos := t.txPos, crcAcc := t.crcAcc, txSent := t.txSent,
      txCounts := t.txCounts, log := t.log } ∧
    (∀ i, t.slot i = { s.slot i with
      toSend := (t.slot i).toSend, wasAutoSent := (t.slot i).wasAutoSent }) ∧
    ∃ d, t.txSent = s.txSent ++ d ∧ d.length ≤ 64 ∧
      (s.txPending = false → d ≠ [] → d.getD 0 0 = 0x55 ∧ t.mySerial ≠ 0 ∧ (3 ≤ d.length → d.getD 2 0 = t.mySerial))

/-- R140, R163, R191, R197: an item marked by `sendNow`, the lowest of those marked, leaves first in the frame of the next
Writer phase that is not suppressed and holds no frame and no staged bytes. What the transport is handed is one whole
frame: the next serial number, `lastRemoteSerial`, and a payload `p` that begins with the item's id and its region's
current bytes, with its length before it and its checksum behind it. The item's `ToSend` is cleared. -/
def Obligations.QueuedItemLeavesInTheNextFrame : Prop :=
  ∀ (now : Time) (s : State) (i : SlotIx), RegistryInv s → s.txPending = false → s.outCur = 5 →
    s.waitFirst = false ∨ s.gotFirst = true → Lowest (fun j => (s.slot j).used = true ∧ (s.slot j).toSend = true) i →
    s.txCounts = [] → ∃ t d p rest, exec (.writerPhase now) s = .next t ∧
      p = (s.slot i).id :: d ++ rest ∧ p.length ≤ 57 ∧ d.length = (s.slot i).size.toNat ∧
      (∀ k, k < d.length → d.getD k 0 = s.byteAt ((s.slot i).region + BitVec.ofNat 32 k)) ∧
      t.txSent = s.txSent ++
        ([0x55, 0xAA, if s.mySerial = 255 then 1 else s.mySerial + 1, s.lastRemoteSerial, BitVec.ofNat 8 p.length] ++ p ++
          [(checksum16 (BitVec.ofNat 8 p.length :: p)).extractLsb' 0 8,
           (checksum16 (BitVec.ofNat 8 p.length :: p)).extractLsb' 8 8]) ∧
      t.txPending = false ∧ (t.slot i).toSend = false

/-! Hooks and platform (spec/60_exceptions.md) -/

/-- R236, R238, R240: a hook call is recorded; the default hook does nothing and answers 0; a hook that answers may have
written application memory: of what it lists each address reads as the last byte listed for it, every other byte reads as
before, and nothing but memory is changed by `hookStores`, the name by which this and other statements say so; a hook that
never returns stops the machine (that the machine then stops by name is the model's choice: log entry 15). -/
def Obligations.HookCallsAnswer : Prop :=
  (∀ (writes : List (Addr × Byte)) (z : State), z.mem.wf = true → ∃ m,
    hookStores writes z = { z with mem := m } ∧
    (∀ before a v later, writes = before ++ (a, v) :: later → a ∉ later.map Prod.fst →
      (hookStores writes z).byteAt a = v) ∧
    ∀ a, a ∉ writes.map Prod.fst → (hookStores writes z).byteAt a = z.byteAt a) ∧
  ∀ (bytes rest : List Byte) (typ : Byte) (s : State),
    (s.hookAnswers = [] →
      exec (.notifyDiscard bytes) s = .next { s with log := s.log ++ [.discard bytes] } ∧
      exec (.unknownHook typ rest) s = .next { s with
        log := s.log ++ [.unknownHook typ rest], result := .count 0 }) ∧
    (∀ c writes answers, s.hookAnswers = .returns c writes :: answers →
      exec (.notifyDiscard bytes) s = .next (hookStores writes { s with
        hookAnswers := answers, log := s.log ++ [.discard bytes] }) ∧
      ∃ u, u = hookStores writes { s with hookAnswers := answers, log := s.log ++ [.unknownHook typ rest] } ∧
        exec (.unknownHook typ rest) s = .next { u with result := .count c }) ∧
    (∀ answers, s.hookAnswers = .hangs :: answers →
      exec (.notifyDiscard bytes) s = .fault .hookHangs ∧ exec (.unknownHook typ rest) s = .fault .hookHangs)

/-- R247, R248: a read removes the oldest bytes the transport holds, as many as it chooses, at most as asked; a write hands
over the first bytes offered, as many as the transport chooses. -/
def Obligations.TransportsMoveWhatTheyChoose : Prop :=
  (∀ (n : Nat) (s : State), ∃ d held, s.rxHeld = d ++ held ∧
    d.length = (match s.rxCounts with
      | [] => min n s.rxHeld.length
      | k :: _ => min k (min n s.rxHeld.length)) ∧
    exec (.transportRead n) s = .next { s with
      rxHeld := held, rxCounts := s.rxCounts.tail, log := s.log ++ [.rx n d], result := .bytes d }) ∧
  ∀ (bytes : List Byte) (s : State), ∃ k, k ≤ bytes.length ∧
    k = (match s.txCounts with
      | [] => bytes.length
      | n :: _ => min n bytes.length) ∧
    exec (.transportWrite bytes) s = .next { s with
      txSent := s.txSent ++ bytes.take k, txCounts := s.txCounts.tail, log := s.log ++ [.tx bytes k]
      result := .count k }

/-- Where an internal operation is not called (R159, R161, R172, R200, R201), the model, run there, stops by name: that it
stops so is the model's choice (log entry 17). -/
def Obligations.OutsideTheirConditionsOperationsStop : Prop :=
  ∀ s : State,
    (∀ m, m = 0 ∨ s.inCur < m →
      exec (.drop m) s = .fault .dropRange ∧ exec (.discard m) s = .fault .discardRange) ∧
    (∀ i : SlotIx, (s.slot i).used = false ∨ 62 < s.outCur + 1 + (s.slot i).size.toNat →
      exec (.append i) s = .fault .appendUnfit) ∧
    (s.txPending = true → ∀ now due,
      exec (.encodePayload due) s = .fault .frameHeld ∧ exec (.constructFrame now due) s = .fault .frameHeld) ∧
    (s.txPending = false → exec .txAttempt s = .fault .noHeldFrame)

/-! Two engines (spec/45_engine.md R223) -/

/-- R223: let engine `x` construct a frame `f` in a tick, with its new serial number and the `lastSeen` it then has. Then
whatever `x` does while the frame is held, short of `begin` and reset, the bytes it has handed over once it holds the frame
no longer are exactly `f`. And if engine `y`, whose input buffer holds no partial candidate, takes the bytes `f` over any
number of ticks, its `lastRemoteSerial` is then `x`'s serial number; and a frame that `y` constructs in the tick that takes
the last byte, or in a later one that takes no further byte, carries that number as lastSeen. Frames are spoken of as the
bytes offered to the transport. -/
def Obligations.LoopbackConverges : Prop :=
  ∀ (x x' : State) (now : Time), Inv x → exec (.stepCmd now) x = .next x' → x'.mySerial ≠ x.mySerial →
    ∃ (p f : List Byte) (k : Nat), p.length ≤ 57 ∧
      f = [0x55, 0xAA, x'.mySerial, x'.lastRemoteSerial, BitVec.ofNat 8 p.length] ++ p ++
        [(checksum16 (BitVec.ofNat 8 p.length :: p)).extractLsb' 0 8,
         (checksum16 (BitVec.ofNat 8 p.length :: p)).extractLsb' 8 8] ∧
      x'.log.getLast? = some (.tx f k) ∧ x'.txSent = x.txSent ++ f.take k ∧
      (∀ z, Transmits x' z → z.txPending = false → z.txSent = x.txSent ++ f) ∧
      ∀ y : State, y.inBuf = [] ∨ y.inBuf = [0x55] →
        (∀ y', Takes y f y' → y'.lastRemoteSerial = x'.mySerial ∧ y'.gotFirst = true ∧ y'.inBuf = []) ∧
        ∀ (d e : List Byte) (t u v : State) (now' : Time), Takes y d t → SameReader t u → EngineInv u →
          exec (.stepCmd now') u = .next v → u.rxHeld = e ++ v.rxHeld → d ++ e = f → v.mySerial ≠ u.mySerial →
          ∃ g j, v.log.getLast? = some (.tx g j) ∧ v.txSent = u.txSent ++ g.take j ∧
            g.getD 2 0 = v.mySerial ∧ g.getD 3 0 = x'.mySerial
end

