-- ==== Sys2Proof/Laws/Config.lean ====
section
/-! SUPPORT. The value of each parameter in the record the machine is the instance at (spec/00_scope.md R8), and what the
checksum unit and PACE are there (R111, R205). A proof rewrites with these and unfolds no parameter. -/

namespace Sys2Proof.Config

theorem magic0_eq : engine.magic0 = 0x55 := rfl
theorem magic1_eq : engine.magic1 = 0xAA := rfl
theorem bufSize_eq : engine.bufSize = 64 := rfl
theorem hdrLen_eq : engine.hdrLen = 5 := rfl
theorem crcLen_eq : engine.crcLen = 2 := rfl
theorem maxPayload_eq : engine.maxPayload = 57 := rfl
theorem maxItemSize_eq : engine.maxItemSize = 56 := rfl
theorem nullAddr_eq : engine.nullAddr = 0 := rfl
theorem maxItems_eq : engine.maxItems = 8 := rfl
theorem timeW_eq : engine.timeW = 32 := rfl
theorem appAW_eq : engine.appAW = 32 := rfl

/-- Application memory has 2^32 bytes (R60). -/
theorem addresses_eq : 2 ^ sizes.appAW = 2 ^ 32 := rfl

/-- `PACE` is linear between the two bounds (R205). -/
theorem pace_eq (b : Nat) : engine.pace b = 500 + 7500 * b / 64 := rfl

/-- `PACE` runs from `AUTOSEND_MIN` at an empty backlog to `AUTOSEND_MAX` at a full buffer (R205). -/
theorem pace_bounds : engine.pace 0 = engine.autosendMin ∧ engine.pace engine.bufSize = engine.autosendMax := by decide

/-- The shift constant of the reflected unit (R111). -/
theorem shiftConstant_eq : engine.crc.poly.reverse = 0x8408 := by decide

end Sys2Proof.Config

namespace Sys2Proof.Machine

theorem crcBit_eq (acc : Half) : crcBit acc = if acc.getLsbD 0 then (acc >>> 1) ^^^ 0x8408 else acc >>> 1 := by
  rw [← Config.shiftConstant_eq]
  rfl

theorem crcNext_eq (acc : Half) (b : Byte) : crcNext acc b = crcBits 8 (acc ^^^ b.setWidth 16) := rfl

@[simp] theorem crcStart_eq : crcStart = 0x0000 := by decide

@[simp] theorem crcResult_eq (acc : Half) : crcResult acc = acc := by
  show acc ^^^ 0 = acc
  simp

/-- The checksum is the accumulator after the bytes, from `0x0000` (R111). -/
theorem checksum16_eq (s : List Byte) : checksum16 s = crcFrom 0x0000 s := by
  rw [checksum16, crcResult_eq, crcStart_eq]

end Sys2Proof.Machine
end

