-- ==== Sys2Proof/Laws/Checksum.lean ====
section
/-! SUPPORT. The algebra of the checksum unit's steps (spec/40_checksum.md R111): each step is additive and one to one. -/

namespace Sys2Proof.Machine

@[simp] theorem crcBits_zero_steps (a : Half) : crcBits 0 a = a := rfl

theorem crcBits_succ (n : Nat) (a : Half) : crcBits (n + 1) a = crcBits n (crcBit a) := rfl

theorem crcBit_xor (a b : Half) : crcBit (a ^^^ b) = crcBit a ^^^ crcBit b := by
  have h : ∀ x y z w : Half, x ^^^ z ^^^ (y ^^^ w) = x ^^^ y ^^^ (z ^^^ w) := fun x y z w => by
    rw [BitVec.xor_assoc, BitVec.xor_assoc]; congr 1
    rw [← BitVec.xor_assoc, BitVec.xor_comm z y, BitVec.xor_assoc]
  rw [crcBit_eq, crcBit_eq, crcBit_eq]
  rw [BitVec.getLsbD_xor, BitVec.ushiftRight_xor_distrib]
  cases a.getLsbD 0 <;> cases b.getLsbD 0 <;> simp
  · rw [BitVec.xor_assoc]
  · rw [BitVec.xor_assoc, BitVec.xor_comm (b >>> 1), BitVec.xor_assoc]
  · rw [h]; simp

theorem crcBits_xor : ∀ (n : Nat) (a b : Half), crcBits n (a ^^^ b) = crcBits n a ^^^ crcBits n b
  | 0, _, _ => rfl
  | n + 1, a, b => by simp only [crcBits_succ, crcBit_xor, crcBits_xor n]

@[simp] theorem crcBits_of_zero : ∀ n : Nat, crcBits n 0 = 0
  | 0 => rfl
  | n + 1 => by rw [crcBits_succ]; exact crcBits_of_zero n

theorem crcBits_add : ∀ (m n : Nat) (a : Half), crcBits (m + n) a = crcBits n (crcBits m a)
  | 0, n, a => by rw [Nat.zero_add]; rfl
  | m + 1, n, a => by rw [Nat.add_right_comm, crcBits_succ, crcBits_succ, crcBits_add m n]

/-- A step loses nothing: the shift constant has bit 15 set, a plain shift has it clear. -/
theorem crcBit_eq_zero {a : Half} (h : crcBit a = 0) : a = 0 := by
  rw [crcBit_eq] at h
  split at h
  · have h15 := congrArg (fun x : Half => x.getLsbD 15) h
    simp at h15
  · rename_i h0
    ext i hi
    rcases Nat.eq_zero_or_pos i with rfl | hpos
    · simpa using h0
    · have := congrArg (fun x : Half => x.getLsbD (i - 1)) h
      simp only [BitVec.getLsbD_ushiftRight] at this
      have e : 1 + (i - 1) = i := by omega
      rw [e] at this
      simpa [BitVec.getLsbD_eq_getElem hi] using this

theorem crcBits_eq_zero : ∀ (n : Nat) {a : Half}, crcBits n a = 0 → a = 0
  | 0, _, h => h
  | n + 1, _, h => crcBit_eq_zero (crcBits_eq_zero n h)

theorem crcBits_injective (n : Nat) {a b : Half} (h : crcBits n a = crcBits n b) : a = b := by
  have : crcBits n (a ^^^ b) = 0 := by rw [crcBits_xor, h, BitVec.xor_self]; rfl
  have := crcBits_eq_zero n this
  have e : a ^^^ b ^^^ b = b := by rw [this]; simp
  rw [BitVec.xor_assoc, BitVec.xor_self, BitVec.xor_zero] at e
  exact e

/-! Bytes -/

theorem crcNext_xor (a c : Half) (x y : Byte) : crcNext (a ^^^ c) (x ^^^ y) = crcNext a x ^^^ crcNext c y := by
  rw [crcNext_eq, crcNext_eq, crcNext_eq, ← crcBits_xor]
  congr 1
  rw [BitVec.setWidth_xor, BitVec.xor_assoc, BitVec.xor_assoc]
  congr 1
  rw [← BitVec.xor_assoc, ← BitVec.xor_assoc, BitVec.xor_comm c]

theorem crcFrom_append (a : Half) : ∀ (s t : List Byte), crcFrom a (s ++ t) = crcFrom (crcFrom a s) t
  | [], _ => rfl
  | b :: rest, t => crcFrom_append (crcNext a b) rest t

/-- Eight steps move a byte in the upper half down to the lower half unchanged. -/
theorem crcBits_upper : ∀ b : Byte, crcBits 8 (b.setWidth 16 <<< 8) = b.setWidth 16 := by decide +kernel

end Sys2Proof.Machine
end

