-- ==== Sys2Proof/Laws/Decode.lean ====
section
/-! SUPPORT. The frame decoder: what each answer says of the bytes, and that it reads back an encoded frame
(spec/30_encoding.md R80 to R84, spec/43_reader.md R171 to R178). -/

namespace Sys2Proof

open Machine

/-! The two checksum bytes (R82) -/

theorem checksumOf_low_high (c : Half) : checksumOf (checksumLow c) (checksumHigh c) = c := by
  unfold checksumOf checksumLow checksumHigh
  ext i hi
  simp only [BitVec.getElem_or, BitVec.getElem_setWidth, BitVec.getElem_shiftLeft, BitVec.getLsbD_setWidth,
    BitVec.getLsbD_ushiftRight]
  by_cases h : i < 8
  · simp [h, BitVec.getLsbD_eq_getElem hi]
  · have h1 : 8 + (i - 8) = i := by omega
    have h2 : i - 8 < 8 := by omega
    simp [h, h1, h2, BitVec.getLsbD_eq_getElem hi]

theorem checksumLow_of (a b : Byte) : checksumLow (checksumOf a b) = a := by
  unfold checksumOf checksumLow
  ext i hi
  simp only [BitVec.getElem_setWidth, BitVec.getLsbD_or, BitVec.getLsbD_setWidth, BitVec.getLsbD_shiftLeft]
  have : i < 16 := by omega
  simp [this, hi]

theorem checksumHigh_of (a b : Byte) : checksumHigh (checksumOf a b) = b := by
  unfold checksumOf checksumHigh
  ext i hi
  simp only [BitVec.getElem_setWidth, BitVec.getLsbD_ushiftRight, BitVec.getLsbD_or, BitVec.getLsbD_setWidth,
    BitVec.getLsbD_shiftLeft]
  have h16 : 8 + i < 16 := by omega
  have hi' : i < 16 := by omega
  simp [h16, hi', BitVec.getLsbD_eq_getElem hi]

/-! The length byte (R80) -/

theorem lengthByte_toNat {p : List Byte} (h : p.length ≤ 57) : (lengthByte p).toNat = p.length := by
  simp only [lengthByte, BitVec.toNat_ofNat]
  omega

theorem encodeFrame_length (f l : Byte) (p : List Byte) : (encodeFrame f l p).length = 7 + p.length := by
  simp [encodeFrame]; omega

/-! The body of a candidate -/

/-- The frame check reads back the payload and checksum of an encoded frame. -/
theorem decodeBody_encode (f l : Byte) {p : List Byte} (h : p.length ≤ 57) (rest : List Byte) :
    decodeBody f l (lengthByte p)
      (p ++ checksumLow (frameChecksum p) :: checksumHigh (frameChecksum p) :: rest) = .frame f l p := by
  have hl := lengthByte_toNat h
  have hmax : Config.engine.maxPayload = 57 := rfl
  unfold decodeBody
  rw [hl, hmax, if_neg (by omega), if_neg (by simp)]
  simp only [List.take_left, List.drop_left]
  rw [if_pos (by rw [checksumOf_low_high]; rfl)]

/-- What each answer of the frame check says of the bytes (R176 to R178). -/
theorem decodeBody_spec (f l len : Byte) (body : List Byte) :
    (57 < len.toNat ∧ decodeBody f l len body = .badLength) ∨
    (len.toNat ≤ 57 ∧ body.length < len.toNat ∧ decodeBody f l len body = .wait .payloadWait) ∨
    (len.toNat ≤ 57 ∧ len.toNat ≤ body.length ∧ body.length < len.toNat + 2 ∧
      decodeBody f l len body = .wait .checksumWait) ∨
    (len.toNat ≤ 57 ∧ ∃ p low high rest, body = p ++ low :: high :: rest ∧ p.length = len.toNat ∧
      lengthByte p = len ∧
      ((checksumOf low high = frameChecksum p ∧ decodeBody f l len body = .frame f l p) ∨
       (checksumOf low high ≠ frameChecksum p ∧
        decodeBody f l len body = .badChecksum len.toNat (frameChecksum p)))) := by
  have hmax : Config.engine.maxPayload = 57 := rfl
  unfold decodeBody
  rw [hmax]
  by_cases h1 : len.toNat > 57
  · exact .inl ⟨h1, if_pos h1⟩
  by_cases h2 : body.length < len.toNat
  · exact .inr (.inl ⟨by omega, h2, by rw [if_neg h1, if_pos h2]⟩)
  rw [if_neg h1, if_neg h2]
  have hp : (body.take len.toNat).length = len.toNat := by simp; omega
  have hlen : lengthByte (body.take len.toNat) = len := by
    apply BitVec.eq_of_toNat_eq
    rw [lengthByte_toNat (by omega), hp]
  have hsum : frameChecksum (body.take len.toNat) = checksum16 (len :: body.take len.toNat) := by
    rw [frameChecksum, hlen]
  rcases hd : body.drop len.toNat with _ | ⟨low, _ | ⟨high, rest⟩⟩
  · have := congrArg List.length hd
    simp at this
    exact .inr (.inr (.inl ⟨by omega, by omega, by omega, rfl⟩))
  · have := congrArg List.length hd
    simp at this
    exact .inr (.inr (.inl ⟨by omega, by omega, by omega, rfl⟩))
  · have hbody : body = body.take len.toNat ++ low :: high :: rest := by rw [← hd, List.take_append_drop]
    refine .inr (.inr (.inr ⟨by omega, _, low, high, rest, hbody, hp, hlen, ?_⟩))
    simp only [hsum]
    by_cases hc : checksumOf low high = checksum16 (len :: body.take len.toNat)
    · exact .inl ⟨hc, if_pos hc⟩
    · exact .inr ⟨hc, if_neg hc⟩

/-! The head of the buffer -/

/-- What each answer of the decoder says of the bytes at the head of the buffer (R171, R173, R242). -/
theorem decodeWire_spec (b : List Byte) :
    (∃ st, decodeWire b = .wait st ∧ st ≠ .dispatch ∧ b.length ≤ 63) ∨
    (decodeWire b = .badMagic ∧ 1 ≤ b.length) ∨
    (decodeWire b = .badLength ∧ 5 ≤ b.length) ∨
    (∃ len c, decodeWire b = .badChecksum len c ∧ len ≤ 57 ∧ 7 + len ≤ b.length) ∨
    (∃ f l p rest, decodeWire b = .frame f l p ∧ p.length ≤ 57 ∧ b = encodeFrame f l p ++ rest) := by
  rcases b with _ | ⟨b0, _ | ⟨b1, rest⟩⟩
  · exact .inl ⟨_, rfl, by decide, by simp⟩
  · by_cases h0 : b0 = Config.engine.magic0
    · exact .inl ⟨.scanning, by simp [decodeWire, h0], by decide, by simp⟩
    · exact .inr (.inl ⟨by simp [decodeWire, h0], by simp⟩)
  by_cases h0 : b0 ≠ Config.engine.magic0
  · exact .inr (.inl ⟨by simp [decodeWire, h0], by simp⟩)
  by_cases h1 : b1 ≠ Config.engine.magic1
  · exact .inr (.inl ⟨by simp [decodeWire, h0, h1], by simp⟩)
  simp only [ne_eq, not_not] at h0 h1
  subst h0 h1
  rcases rest with _ | ⟨f, _ | ⟨l, _ | ⟨len, body⟩⟩⟩
  · exact .inl ⟨.headerWait, by simp [decodeWire], by decide, by simp⟩
  · exact .inl ⟨.headerWait, by simp [decodeWire], by decide, by simp⟩
  · exact .inl ⟨.headerWait, by simp [decodeWire], by decide, by simp⟩
  have hw : decodeWire (Config.engine.magic0 :: Config.engine.magic1 :: f :: l :: len :: body) = decodeBody f l len body := by
    simp [decodeWire]
  rw [hw]
  rcases decodeBody_spec f l len body with ⟨_, h⟩ | ⟨_, _, h⟩ | ⟨_, _, _, h⟩ | ⟨hlen, p, low, high, rest, hb, hp, hlp, h⟩
  · exact .inr (.inr (.inl ⟨h, by simp⟩))
  · exact .inl ⟨_, h, by decide, by simp; omega⟩
  · exact .inl ⟨_, h, by decide, by simp; omega⟩
  · rcases h with ⟨hc, h⟩ | ⟨-, h⟩
    · refine .inr (.inr (.inr (.inr ⟨f, l, p, rest, h, by omega, ?_⟩)))
      have h1 : checksumLow (frameChecksum p) = low := by rw [← hc, checksumLow_of]
      have h2 : checksumHigh (frameChecksum p) = high := by rw [← hc, checksumHigh_of]
      rw [encodeFrame, h1, h2, hlp, hb]
      simp
    · refine .inr (.inr (.inr (.inl ⟨_, _, h, hlen, ?_⟩)))
      rw [hb]; simp; omega

/-- Which bytes the decoder waits on, and in which state (R171). -/
theorem decodeWire_wait {b : List Byte} {st : ReaderState} (h : decodeWire b = .wait st) :
    (b = [] ∧ st = .scanning) ∨ (b = [Config.engine.magic0] ∧ st = .scanning) ∨
    (b.take 2 = [Config.engine.magic0, Config.engine.magic1] ∧ 2 ≤ b.length ∧ b.length ≤ 4 ∧ st = .headerWait) ∨
    (b.take 2 = [Config.engine.magic0, Config.engine.magic1] ∧ 5 ≤ b.length ∧ (b.getD 4 0).toNat ≤ 57 ∧
      (b.length < 5 + (b.getD 4 0).toNat ∧ st = .payloadWait ∨
       5 + (b.getD 4 0).toNat ≤ b.length ∧ b.length < 7 + (b.getD 4 0).toNat ∧ st = .checksumWait)) := by
  rcases b with _ | ⟨b0, _ | ⟨b1, rest⟩⟩
  · cases h; exact .inl ⟨rfl, rfl⟩
  · by_cases h0 : b0 = Config.engine.magic0
    · subst h0; cases h; exact .inr (.inl ⟨rfl, rfl⟩)
    · simp [decodeWire, h0] at h
  by_cases h0 : b0 = Config.engine.magic0
  case neg => simp [decodeWire, h0] at h
  by_cases h1 : b1 = Config.engine.magic1
  case neg => simp [decodeWire, h0, h1] at h
  subst h0 h1
  rcases rest with _ | ⟨f, _ | ⟨l, _ | ⟨len, body⟩⟩⟩
  · cases h; exact .inr (.inr (.inl ⟨rfl, by simp, by simp, rfl⟩))
  · cases h; exact .inr (.inr (.inl ⟨rfl, by simp, by simp, rfl⟩))
  · cases h; exact .inr (.inr (.inl ⟨rfl, by simp, by simp, rfl⟩))
  have hw : decodeWire (Config.engine.magic0 :: Config.engine.magic1 :: f :: l :: len :: body) = decodeBody f l len body := by
    simp [decodeWire]
  rw [hw] at h
  refine .inr (.inr (.inr ⟨rfl, by simp, ?_⟩))
  simp only [List.getD_cons_succ, List.getD_cons_zero, List.length_cons]
  rcases decodeBody_spec f l len body with ⟨_, e⟩ | ⟨h1, h2, e⟩ | ⟨h1, h2, h3, e⟩ | ⟨_, _, _, _, _, _, _, _, ⟨_, e⟩ | ⟨_, e⟩⟩ <;>
    rw [h] at e <;> cases e
  · exact ⟨h1, .inl ⟨by omega, rfl⟩⟩
  · exact ⟨h1, .inr ⟨by omega, by omega, rfl⟩⟩

/-- The Reader's decoder reads back an encoded frame, whatever follows it (R83). -/
theorem decodeWire_encodeFrame (f l : Byte) {p : List Byte} (h : p.length ≤ 57) (rest : List Byte) :
    decodeWire (encodeFrame f l p ++ rest) = .frame f l p := by
  have := decodeBody_encode f l h rest
  simpa [encodeFrame, decodeWire] using this

/-- The buffer is at rest exactly when the decoder waits (R171). -/
theorem readerState_rest {s : State} : readerState s ≠ .dispatch ↔ ∃ st, decodeWire s.inBuf = .wait st ∧ st ≠ .dispatch := by
  unfold readerState
  cases decodeWire s.inBuf <;> simp

/-- A buffer at rest holds at most 63 bytes (R185). -/
theorem inCur_of_rest {s : State} (h : readerState s ≠ .dispatch) : s.inCur ≤ 63 := by
  obtain ⟨st, hst, -⟩ := readerState_rest.mp h
  rcases decodeWire_spec s.inBuf with ⟨_, _, _, hl⟩ | ⟨h, _⟩ | ⟨h, _⟩ | ⟨_, _, h, _⟩ | ⟨_, _, _, _, h, _⟩
  · exact hl
  all_goals rw [hst] at h; cases h

end Sys2Proof
end

