-- ==== Sys2Proof/Laws/State.lean ====
section
/-! SUPPORT. What each state update does to each field: one lemma per field per update, true by rfl. -/

namespace Sys2Proof.Machine

/-! State.emit -/

@[simp] theorem emit_slots (e : Event) (s : State) : (s.emit e).slots = s.slots := rfl
@[simp] theorem emit_mySerial (e : Event) (s : State) : (s.emit e).mySerial = s.mySerial := rfl
@[simp] theorem emit_lastRemoteSerial (e : Event) (s : State) : (s.emit e).lastRemoteSerial = s.lastRemoteSerial := rfl
@[simp] theorem emit_lastAutoSendTime (e : Event) (s : State) : (s.emit e).lastAutoSendTime = s.lastAutoSendTime := rfl
@[simp] theorem emit_waitFirst (e : Event) (s : State) : (s.emit e).waitFirst = s.waitFirst := rfl
@[simp] theorem emit_gotFirst (e : Event) (s : State) : (s.emit e).gotFirst = s.gotFirst := rfl
@[simp] theorem emit_backlog (e : Event) (s : State) : (s.emit e).backlog = s.backlog := rfl
@[simp] theorem emit_inBuf (e : Event) (s : State) : (s.emit e).inBuf = s.inBuf := rfl
@[simp] theorem emit_outBuf (e : Event) (s : State) : (s.emit e).outBuf = s.outBuf := rfl
@[simp] theorem emit_txPending (e : Event) (s : State) : (s.emit e).txPending = s.txPending := rfl
@[simp] theorem emit_txPos (e : Event) (s : State) : (s.emit e).txPos = s.txPos := rfl
@[simp] theorem emit_crcAcc (e : Event) (s : State) : (s.emit e).crcAcc = s.crcAcc := rfl
@[simp] theorem emit_rsp (e : Event) (s : State) : (s.emit e).rsp = s.rsp := rfl
@[simp] theorem emit_mem (e : Event) (s : State) : (s.emit e).mem = s.mem := rfl
@[simp] theorem emit_rxHeld (e : Event) (s : State) : (s.emit e).rxHeld = s.rxHeld := rfl
@[simp] theorem emit_rxCounts (e : Event) (s : State) : (s.emit e).rxCounts = s.rxCounts := rfl
@[simp] theorem emit_txSent (e : Event) (s : State) : (s.emit e).txSent = s.txSent := rfl
@[simp] theorem emit_txCounts (e : Event) (s : State) : (s.emit e).txCounts = s.txCounts := rfl
@[simp] theorem emit_hookAnswers (e : Event) (s : State) : (s.emit e).hookAnswers = s.hookAnswers := rfl
@[simp] theorem emit_inputs (e : Event) (s : State) : (s.emit e).inputs = s.inputs := rfl
@[simp] theorem emit_log (e : Event) (s : State) : (s.emit e).log = s.log ++ [e] := rfl
@[simp] theorem emit_result (e : Event) (s : State) : (s.emit e).result = s.result := rfl
@[simp] theorem emit_freeIdx (e : Event) (s : State) : (s.emit e).freeIdx = s.freeIdx := rfl

/-! State.fail -/

@[simp] theorem fail_slots (c : ErrorCode) (s : State) : (s.fail c).slots = s.slots := rfl
@[simp] theorem fail_mySerial (c : ErrorCode) (s : State) : (s.fail c).mySerial = s.mySerial := rfl
@[simp] theorem fail_lastRemoteSerial (c : ErrorCode) (s : State) : (s.fail c).lastRemoteSerial = s.lastRemoteSerial := rfl
@[simp] theorem fail_lastAutoSendTime (c : ErrorCode) (s : State) : (s.fail c).lastAutoSendTime = s.lastAutoSendTime := rfl
@[simp] theorem fail_waitFirst (c : ErrorCode) (s : State) : (s.fail c).waitFirst = s.waitFirst := rfl
@[simp] theorem fail_gotFirst (c : ErrorCode) (s : State) : (s.fail c).gotFirst = s.gotFirst := rfl
@[simp] theorem fail_backlog (c : ErrorCode) (s : State) : (s.fail c).backlog = s.backlog := rfl
@[simp] theorem fail_inBuf (c : ErrorCode) (s : State) : (s.fail c).inBuf = s.inBuf := rfl
@[simp] theorem fail_outBuf (c : ErrorCode) (s : State) : (s.fail c).outBuf = s.outBuf := rfl
@[simp] theorem fail_txPending (c : ErrorCode) (s : State) : (s.fail c).txPending = s.txPending := rfl
@[simp] theorem fail_txPos (c : ErrorCode) (s : State) : (s.fail c).txPos = s.txPos := rfl
@[simp] theorem fail_crcAcc (c : ErrorCode) (s : State) : (s.fail c).crcAcc = s.crcAcc := rfl
@[simp] theorem fail_rsp (c : ErrorCode) (s : State) : (s.fail c).rsp = s.rsp := rfl
@[simp] theorem fail_mem (c : ErrorCode) (s : State) : (s.fail c).mem = s.mem := rfl
@[simp] theorem fail_rxHeld (c : ErrorCode) (s : State) : (s.fail c).rxHeld = s.rxHeld := rfl
@[simp] theorem fail_rxCounts (c : ErrorCode) (s : State) : (s.fail c).rxCounts = s.rxCounts := rfl
@[simp] theorem fail_txSent (c : ErrorCode) (s : State) : (s.fail c).txSent = s.txSent := rfl
@[simp] theorem fail_txCounts (c : ErrorCode) (s : State) : (s.fail c).txCounts = s.txCounts := rfl
@[simp] theorem fail_hookAnswers (c : ErrorCode) (s : State) : (s.fail c).hookAnswers = s.hookAnswers := rfl
@[simp] theorem fail_inputs (c : ErrorCode) (s : State) : (s.fail c).inputs = s.inputs := rfl
@[simp] theorem fail_log (c : ErrorCode) (s : State) : (s.fail c).log = s.log ++ [.error c] := rfl
@[simp] theorem fail_result (c : ErrorCode) (s : State) : (s.fail c).result = s.result := rfl
@[simp] theorem fail_freeIdx (c : ErrorCode) (s : State) : (s.fail c).freeIdx = s.freeIdx := rfl

/-! State.respond -/

@[simp] theorem respond_slots (r : Response) (s : State) : (s.respond r).slots = s.slots := rfl
@[simp] theorem respond_mySerial (r : Response) (s : State) : (s.respond r).mySerial = s.mySerial := rfl
@[simp] theorem respond_lastRemoteSerial (r : Response) (s : State) : (s.respond r).lastRemoteSerial = s.lastRemoteSerial := rfl
@[simp] theorem respond_lastAutoSendTime (r : Response) (s : State) : (s.respond r).lastAutoSendTime = s.lastAutoSendTime := rfl
@[simp] theorem respond_waitFirst (r : Response) (s : State) : (s.respond r).waitFirst = s.waitFirst := rfl
@[simp] theorem respond_gotFirst (r : Response) (s : State) : (s.respond r).gotFirst = s.gotFirst := rfl
@[simp] theorem respond_backlog (r : Response) (s : State) : (s.respond r).backlog = s.backlog := rfl
@[simp] theorem respond_inBuf (r : Response) (s : State) : (s.respond r).inBuf = s.inBuf := rfl
@[simp] theorem respond_outBuf (r : Response) (s : State) : (s.respond r).outBuf = s.outBuf := rfl
@[simp] theorem respond_txPending (r : Response) (s : State) : (s.respond r).txPending = s.txPending := rfl
@[simp] theorem respond_txPos (r : Response) (s : State) : (s.respond r).txPos = s.txPos := rfl
@[simp] theorem respond_crcAcc (r : Response) (s : State) : (s.respond r).crcAcc = s.crcAcc := rfl
@[simp] theorem respond_rsp (r : Response) (s : State) : (s.respond r).rsp = r := rfl
@[simp] theorem respond_mem (r : Response) (s : State) : (s.respond r).mem = s.mem := rfl
@[simp] theorem respond_rxHeld (r : Response) (s : State) : (s.respond r).rxHeld = s.rxHeld := rfl
@[simp] theorem respond_rxCounts (r : Response) (s : State) : (s.respond r).rxCounts = s.rxCounts := rfl
@[simp] theorem respond_txSent (r : Response) (s : State) : (s.respond r).txSent = s.txSent := rfl
@[simp] theorem respond_txCounts (r : Response) (s : State) : (s.respond r).txCounts = s.txCounts := rfl
@[simp] theorem respond_hookAnswers (r : Response) (s : State) : (s.respond r).hookAnswers = s.hookAnswers := rfl
@[simp] theorem respond_inputs (r : Response) (s : State) : (s.respond r).inputs = s.inputs := rfl
@[simp] theorem respond_log (r : Response) (s : State) : (s.respond r).log = s.log := rfl
@[simp] theorem respond_result (r : Response) (s : State) : (s.respond r).result = s.result := rfl
@[simp] theorem respond_freeIdx (r : Response) (s : State) : (s.respond r).freeIdx = s.freeIdx := rfl

/-! State.give -/

@[simp] theorem give_slots (r : Result) (s : State) : (s.give r).slots = s.slots := rfl
@[simp] theorem give_mySerial (r : Result) (s : State) : (s.give r).mySerial = s.mySerial := rfl
@[simp] theorem give_lastRemoteSerial (r : Result) (s : State) : (s.give r).lastRemoteSerial = s.lastRemoteSerial := rfl
@[simp] theorem give_lastAutoSendTime (r : Result) (s : State) : (s.give r).lastAutoSendTime = s.lastAutoSendTime := rfl
@[simp] theorem give_waitFirst (r : Result) (s : State) : (s.give r).waitFirst = s.waitFirst := rfl
@[simp] theorem give_gotFirst (r : Result) (s : State) : (s.give r).gotFirst = s.gotFirst := rfl
@[simp] theorem give_backlog (r : Result) (s : State) : (s.give r).backlog = s.backlog := rfl
@[simp] theorem give_inBuf (r : Result) (s : State) : (s.give r).inBuf = s.inBuf := rfl
@[simp] theorem give_outBuf (r : Result) (s : State) : (s.give r).outBuf = s.outBuf := rfl
@[simp] theorem give_txPending (r : Result) (s : State) : (s.give r).txPending = s.txPending := rfl
@[simp] theorem give_txPos (r : Result) (s : State) : (s.give r).txPos = s.txPos := rfl
@[simp] theorem give_crcAcc (r : Result) (s : State) : (s.give r).crcAcc = s.crcAcc := rfl
@[simp] theorem give_rsp (r : Result) (s : State) : (s.give r).rsp = s.rsp := rfl
@[simp] theorem give_mem (r : Result) (s : State) : (s.give r).mem = s.mem := rfl
@[simp] theorem give_rxHeld (r : Result) (s : State) : (s.give r).rxHeld = s.rxHeld := rfl
@[simp] theorem give_rxCounts (r : Result) (s : State) : (s.give r).rxCounts = s.rxCounts := rfl
@[simp] theorem give_txSent (r : Result) (s : State) : (s.give r).txSent = s.txSent := rfl
@[simp] theorem give_txCounts (r : Result) (s : State) : (s.give r).txCounts = s.txCounts := rfl
@[simp] theorem give_hookAnswers (r : Result) (s : State) : (s.give r).hookAnswers = s.hookAnswers := rfl
@[simp] theorem give_inputs (r : Result) (s : State) : (s.give r).inputs = s.inputs := rfl
@[simp] theorem give_log (r : Result) (s : State) : (s.give r).log = s.log := rfl
@[simp] theorem give_result (r : Result) (s : State) : (s.give r).result = r := rfl
@[simp] theorem give_freeIdx (r : Result) (s : State) : (s.give r).freeIdx = s.freeIdx := rfl

/-! State.setSlot -/

@[simp] theorem setSlot_slots (i : SlotIx) (x : Slot) (s : State) : (s.setSlot i x).slots = s.slots.set i x := rfl
@[simp] theorem setSlot_mySerial (i : SlotIx) (x : Slot) (s : State) : (s.setSlot i x).mySerial = s.mySerial := rfl
@[simp] theorem setSlot_lastRemoteSerial (i : SlotIx) (x : Slot) (s : State) : (s.setSlot i x).lastRemoteSerial = s.lastRemoteSerial := rfl
@[simp] theorem setSlot_lastAutoSendTime (i : SlotIx) (x : Slot) (s : State) : (s.setSlot i x).lastAutoSendTime = s.lastAutoSendTime := rfl
@[simp] theorem setSlot_waitFirst (i : SlotIx) (x : Slot) (s : State) : (s.setSlot i x).waitFirst = s.waitFirst := rfl
@[simp] theorem setSlot_gotFirst (i : SlotIx) (x : Slot) (s : State) : (s.setSlot i x).gotFirst = s.gotFirst := rfl
@[simp] theorem setSlot_backlog (i : SlotIx) (x : Slot) (s : State) : (s.setSlot i x).backlog = s.backlog := rfl
@[simp] theorem setSlot_inBuf (i : SlotIx) (x : Slot) (s : State) : (s.setSlot i x).inBuf = s.inBuf := rfl
@[simp] theorem setSlot_outBuf (i : SlotIx) (x : Slot) (s : State) : (s.setSlot i x).outBuf = s.outBuf := rfl
@[simp] theorem setSlot_txPending (i : SlotIx) (x : Slot) (s : State) : (s.setSlot i x).txPending = s.txPending := rfl
@[simp] theorem setSlot_txPos (i : SlotIx) (x : Slot) (s : State) : (s.setSlot i x).txPos = s.txPos := rfl
@[simp] theorem setSlot_crcAcc (i : SlotIx) (x : Slot) (s : State) : (s.setSlot i x).crcAcc = s.crcAcc := rfl
@[simp] theorem setSlot_rsp (i : SlotIx) (x : Slot) (s : State) : (s.setSlot i x).rsp = s.rsp := rfl
@[simp] theorem setSlot_mem (i : SlotIx) (x : Slot) (s : State) : (s.setSlot i x).mem = s.mem := rfl
@[simp] theorem setSlot_rxHeld (i : SlotIx) (x : Slot) (s : State) : (s.setSlot i x).rxHeld = s.rxHeld := rfl
@[simp] theorem setSlot_rxCounts (i : SlotIx) (x : Slot) (s : State) : (s.setSlot i x).rxCounts = s.rxCounts := rfl
@[simp] theorem setSlot_txSent (i : SlotIx) (x : Slot) (s : State) : (s.setSlot i x).txSent = s.txSent := rfl
@[simp] theorem setSlot_txCounts (i : SlotIx) (x : Slot) (s : State) : (s.setSlot i x).txCounts = s.txCounts := rfl
@[simp] theorem setSlot_hookAnswers (i : SlotIx) (x : Slot) (s : State) : (s.setSlot i x).hookAnswers = s.hookAnswers := rfl
@[simp] theorem setSlot_inputs (i : SlotIx) (x : Slot) (s : State) : (s.setSlot i x).inputs = s.inputs := rfl
@[simp] theorem setSlot_log (i : SlotIx) (x : Slot) (s : State) : (s.setSlot i x).log = s.log := rfl
@[simp] theorem setSlot_result (i : SlotIx) (x : Slot) (s : State) : (s.setSlot i x).result = s.result := rfl
@[simp] theorem setSlot_freeIdx (i : SlotIx) (x : Slot) (s : State) : (s.setSlot i x).freeIdx = s.freeIdx := rfl

/-! appStore -/

@[simp] theorem appStore_slots (a : Addr) (v : Byte) (s : State) : (appStore a v s).slots = s.slots := rfl
@[simp] theorem appStore_mySerial (a : Addr) (v : Byte) (s : State) : (appStore a v s).mySerial = s.mySerial := rfl
@[simp] theorem appStore_lastRemoteSerial (a : Addr) (v : Byte) (s : State) : (appStore a v s).lastRemoteSerial = s.lastRemoteSerial := rfl
@[simp] theorem appStore_lastAutoSendTime (a : Addr) (v : Byte) (s : State) : (appStore a v s).lastAutoSendTime = s.lastAutoSendTime := rfl
@[simp] theorem appStore_waitFirst (a : Addr) (v : Byte) (s : State) : (appStore a v s).waitFirst = s.waitFirst := rfl
@[simp] theorem appStore_gotFirst (a : Addr) (v : Byte) (s : State) : (appStore a v s).gotFirst = s.gotFirst := rfl
@[simp] theorem appStore_backlog (a : Addr) (v : Byte) (s : State) : (appStore a v s).backlog = s.backlog := rfl
@[simp] theorem appStore_inBuf (a : Addr) (v : Byte) (s : State) : (appStore a v s).inBuf = s.inBuf := rfl
@[simp] theorem appStore_outBuf (a : Addr) (v : Byte) (s : State) : (appStore a v s).outBuf = s.outBuf := rfl
@[simp] theorem appStore_txPending (a : Addr) (v : Byte) (s : State) : (appStore a v s).txPending = s.txPending := rfl
@[simp] theorem appStore_txPos (a : Addr) (v : Byte) (s : State) : (appStore a v s).txPos = s.txPos := rfl
@[simp] theorem appStore_crcAcc (a : Addr) (v : Byte) (s : State) : (appStore a v s).crcAcc = s.crcAcc := rfl
@[simp] theorem appStore_rsp (a : Addr) (v : Byte) (s : State) : (appStore a v s).rsp = s.rsp := rfl
@[simp] theorem appStore_mem (a : Addr) (v : Byte) (s : State) : (appStore a v s).mem = memPut s.mem a.toNat v := rfl
@[simp] theorem appStore_rxHeld (a : Addr) (v : Byte) (s : State) : (appStore a v s).rxHeld = s.rxHeld := rfl
@[simp] theorem appStore_rxCounts (a : Addr) (v : Byte) (s : State) : (appStore a v s).rxCounts = s.rxCounts := rfl
@[simp] theorem appStore_txSent (a : Addr) (v : Byte) (s : State) : (appStore a v s).txSent = s.txSent := rfl
@[simp] theorem appStore_txCounts (a : Addr) (v : Byte) (s : State) : (appStore a v s).txCounts = s.txCounts := rfl
@[simp] theorem appStore_hookAnswers (a : Addr) (v : Byte) (s : State) : (appStore a v s).hookAnswers = s.hookAnswers := rfl
@[simp] theorem appStore_inputs (a : Addr) (v : Byte) (s : State) : (appStore a v s).inputs = s.inputs := rfl
@[simp] theorem appStore_log (a : Addr) (v : Byte) (s : State) : (appStore a v s).log = s.log := rfl
@[simp] theorem appStore_result (a : Addr) (v : Byte) (s : State) : (appStore a v s).result = s.result := rfl
@[simp] theorem appStore_freeIdx (a : Addr) (v : Byte) (s : State) : (appStore a v s).freeIdx = s.freeIdx := rfl

/-! dropBytes -/

@[simp] theorem dropBytes_slots (m : Nat) (s : State) : (dropBytes m s).slots = s.slots := rfl
@[simp] theorem dropBytes_mySerial (m : Nat) (s : State) : (dropBytes m s).mySerial = s.mySerial := rfl
@[simp] theorem dropBytes_lastRemoteSerial (m : Nat) (s : State) : (dropBytes m s).lastRemoteSerial = s.lastRemoteSerial := rfl
@[simp] theorem dropBytes_lastAutoSendTime (m : Nat) (s : State) : (dropBytes m s).lastAutoSendTime = s.lastAutoSendTime := rfl
@[simp] theorem dropBytes_waitFirst (m : Nat) (s : State) : (dropBytes m s).waitFirst = s.waitFirst := rfl
@[simp] theorem dropBytes_gotFirst (m : Nat) (s : State) : (dropBytes m s).gotFirst = s.gotFirst := rfl
@[simp] theorem dropBytes_backlog (m : Nat) (s : State) : (dropBytes m s).backlog = s.backlog := rfl
@[simp] theorem dropBytes_inBuf (m : Nat) (s : State) : (dropBytes m s).inBuf = s.inBuf.drop m := rfl
@[simp] theorem dropBytes_outBuf (m : Nat) (s : State) : (dropBytes m s).outBuf = s.outBuf := rfl
@[simp] theorem dropBytes_txPending (m : Nat) (s : State) : (dropBytes m s).txPending = s.txPending := rfl
@[simp] theorem dropBytes_txPos (m : Nat) (s : State) : (dropBytes m s).txPos = s.txPos := rfl
@[simp] theorem dropBytes_crcAcc (m : Nat) (s : State) : (dropBytes m s).crcAcc = s.crcAcc := rfl
@[simp] theorem dropBytes_rsp (m : Nat) (s : State) : (dropBytes m s).rsp = s.rsp := rfl
@[simp] theorem dropBytes_mem (m : Nat) (s : State) : (dropBytes m s).mem = s.mem := rfl
@[simp] theorem dropBytes_rxHeld (m : Nat) (s : State) : (dropBytes m s).rxHeld = s.rxHeld := rfl
@[simp] theorem dropBytes_rxCounts (m : Nat) (s : State) : (dropBytes m s).rxCounts = s.rxCounts := rfl
@[simp] theorem dropBytes_txSent (m : Nat) (s : State) : (dropBytes m s).txSent = s.txSent := rfl
@[simp] theorem dropBytes_txCounts (m : Nat) (s : State) : (dropBytes m s).txCounts = s.txCounts := rfl
@[simp] theorem dropBytes_hookAnswers (m : Nat) (s : State) : (dropBytes m s).hookAnswers = s.hookAnswers := rfl
@[simp] theorem dropBytes_inputs (m : Nat) (s : State) : (dropBytes m s).inputs = s.inputs := rfl
@[simp] theorem dropBytes_log (m : Nat) (s : State) : (dropBytes m s).log = s.log := rfl
@[simp] theorem dropBytes_result (m : Nat) (s : State) : (dropBytes m s).result = s.result := rfl
@[simp] theorem dropBytes_freeIdx (m : Nat) (s : State) : (dropBytes m s).freeIdx = s.freeIdx := rfl

/-! stage -/

@[simp] theorem stage_slots (t : Byte) (d : List Byte) (s : State) : (stage t d s).slots = s.slots := rfl
@[simp] theorem stage_mySerial (t : Byte) (d : List Byte) (s : State) : (stage t d s).mySerial = s.mySerial := rfl
@[simp] theorem stage_lastRemoteSerial (t : Byte) (d : List Byte) (s : State) : (stage t d s).lastRemoteSerial = s.lastRemoteSerial := rfl
@[simp] theorem stage_lastAutoSendTime (t : Byte) (d : List Byte) (s : State) : (stage t d s).lastAutoSendTime = s.lastAutoSendTime := rfl
@[simp] theorem stage_waitFirst (t : Byte) (d : List Byte) (s : State) : (stage t d s).waitFirst = s.waitFirst := rfl
@[simp] theorem stage_gotFirst (t : Byte) (d : List Byte) (s : State) : (stage t d s).gotFirst = s.gotFirst := rfl
@[simp] theorem stage_backlog (t : Byte) (d : List Byte) (s : State) : (stage t d s).backlog = s.backlog := rfl
@[simp] theorem stage_inBuf (t : Byte) (d : List Byte) (s : State) : (stage t d s).inBuf = s.inBuf := rfl
@[simp] theorem stage_outBuf (t : Byte) (d : List Byte) (s : State) : (stage t d s).outBuf = s.outBuf ++ t :: d := rfl
@[simp] theorem stage_txPending (t : Byte) (d : List Byte) (s : State) : (stage t d s).txPending = s.txPending := rfl
@[simp] theorem stage_txPos (t : Byte) (d : List Byte) (s : State) : (stage t d s).txPos = s.txPos := rfl
@[simp] theorem stage_crcAcc (t : Byte) (d : List Byte) (s : State) : (stage t d s).crcAcc = s.crcAcc := rfl
@[simp] theorem stage_rsp (t : Byte) (d : List Byte) (s : State) : (stage t d s).rsp = s.rsp := rfl
@[simp] theorem stage_mem (t : Byte) (d : List Byte) (s : State) : (stage t d s).mem = s.mem := rfl
@[simp] theorem stage_rxHeld (t : Byte) (d : List Byte) (s : State) : (stage t d s).rxHeld = s.rxHeld := rfl
@[simp] theorem stage_rxCounts (t : Byte) (d : List Byte) (s : State) : (stage t d s).rxCounts = s.rxCounts := rfl
@[simp] theorem stage_txSent (t : Byte) (d : List Byte) (s : State) : (stage t d s).txSent = s.txSent := rfl
@[simp] theorem stage_txCounts (t : Byte) (d : List Byte) (s : State) : (stage t d s).txCounts = s.txCounts := rfl
@[simp] theorem stage_hookAnswers (t : Byte) (d : List Byte) (s : State) : (stage t d s).hookAnswers = s.hookAnswers := rfl
@[simp] theorem stage_inputs (t : Byte) (d : List Byte) (s : State) : (stage t d s).inputs = s.inputs := rfl
@[simp] theorem stage_log (t : Byte) (d : List Byte) (s : State) : (stage t d s).log = s.log := rfl
@[simp] theorem stage_result (t : Byte) (d : List Byte) (s : State) : (stage t d s).result = s.result := rfl
@[simp] theorem stage_freeIdx (t : Byte) (d : List Byte) (s : State) : (stage t d s).freeIdx = s.freeIdx := rfl

/-! runChecksum -/

@[simp] theorem runChecksum_slots (b : List Byte) (s : State) : (runChecksum b s).slots = s.slots := rfl
@[simp] theorem runChecksum_mySerial (b : List Byte) (s : State) : (runChecksum b s).mySerial = s.mySerial := rfl
@[simp] theorem runChecksum_lastRemoteSerial (b : List Byte) (s : State) : (runChecksum b s).lastRemoteSerial = s.lastRemoteSerial := rfl
@[simp] theorem runChecksum_lastAutoSendTime (b : List Byte) (s : State) : (runChecksum b s).lastAutoSendTime = s.lastAutoSendTime := rfl
@[simp] theorem runChecksum_waitFirst (b : List Byte) (s : State) : (runChecksum b s).waitFirst = s.waitFirst := rfl
@[simp] theorem runChecksum_gotFirst (b : List Byte) (s : State) : (runChecksum b s).gotFirst = s.gotFirst := rfl
@[simp] theorem runChecksum_backlog (b : List Byte) (s : State) : (runChecksum b s).backlog = s.backlog := rfl
@[simp] theorem runChecksum_inBuf (b : List Byte) (s : State) : (runChecksum b s).inBuf = s.inBuf := rfl
@[simp] theorem runChecksum_outBuf (b : List Byte) (s : State) : (runChecksum b s).outBuf = s.outBuf := rfl
@[simp] theorem runChecksum_txPending (b : List Byte) (s : State) : (runChecksum b s).txPending = s.txPending := rfl
@[simp] theorem runChecksum_txPos (b : List Byte) (s : State) : (runChecksum b s).txPos = s.txPos := rfl
@[simp] theorem runChecksum_crcAcc (b : List Byte) (s : State) : (runChecksum b s).crcAcc = checksum16 b := rfl
@[simp] theorem runChecksum_rsp (b : List Byte) (s : State) : (runChecksum b s).rsp = s.rsp := rfl
@[simp] theorem runChecksum_mem (b : List Byte) (s : State) : (runChecksum b s).mem = s.mem := rfl
@[simp] theorem runChecksum_rxHeld (b : List Byte) (s : State) : (runChecksum b s).rxHeld = s.rxHeld := rfl
@[simp] theorem runChecksum_rxCounts (b : List Byte) (s : State) : (runChecksum b s).rxCounts = s.rxCounts := rfl
@[simp] theorem runChecksum_txSent (b : List Byte) (s : State) : (runChecksum b s).txSent = s.txSent := rfl
@[simp] theorem runChecksum_txCounts (b : List Byte) (s : State) : (runChecksum b s).txCounts = s.txCounts := rfl
@[simp] theorem runChecksum_hookAnswers (b : List Byte) (s : State) : (runChecksum b s).hookAnswers = s.hookAnswers := rfl
@[simp] theorem runChecksum_inputs (b : List Byte) (s : State) : (runChecksum b s).inputs = s.inputs := rfl
@[simp] theorem runChecksum_log (b : List Byte) (s : State) : (runChecksum b s).log = s.log := rfl
@[simp] theorem runChecksum_result (b : List Byte) (s : State) : (runChecksum b s).result = s.result := rfl
@[simp] theorem runChecksum_freeIdx (b : List Byte) (s : State) : (runChecksum b s).freeIdx = s.freeIdx := rfl

/-! transportRead -/

@[simp] theorem transportRead_slots (n : Nat) (s : State) : (transportRead n s).slots = s.slots := rfl
@[simp] theorem transportRead_mySerial (n : Nat) (s : State) : (transportRead n s).mySerial = s.mySerial := rfl
@[simp] theorem transportRead_lastRemoteSerial (n : Nat) (s : State) : (transportRead n s).lastRemoteSerial = s.lastRemoteSerial := rfl
@[simp] theorem transportRead_lastAutoSendTime (n : Nat) (s : State) : (transportRead n s).lastAutoSendTime = s.lastAutoSendTime := rfl
@[simp] theorem transportRead_waitFirst (n : Nat) (s : State) : (transportRead n s).waitFirst = s.waitFirst := rfl
@[simp] theorem transportRead_gotFirst (n : Nat) (s : State) : (transportRead n s).gotFirst = s.gotFirst := rfl
@[simp] theorem transportRead_backlog (n : Nat) (s : State) : (transportRead n s).backlog = s.backlog := rfl
@[simp] theorem transportRead_inBuf (n : Nat) (s : State) : (transportRead n s).inBuf = s.inBuf := rfl
@[simp] theorem transportRead_outBuf (n : Nat) (s : State) : (transportRead n s).outBuf = s.outBuf := rfl
@[simp] theorem transportRead_txPending (n : Nat) (s : State) : (transportRead n s).txPending = s.txPending := rfl
@[simp] theorem transportRead_txPos (n : Nat) (s : State) : (transportRead n s).txPos = s.txPos := rfl
@[simp] theorem transportRead_crcAcc (n : Nat) (s : State) : (transportRead n s).crcAcc = s.crcAcc := rfl
@[simp] theorem transportRead_rsp (n : Nat) (s : State) : (transportRead n s).rsp = s.rsp := rfl
@[simp] theorem transportRead_mem (n : Nat) (s : State) : (transportRead n s).mem = s.mem := rfl
@[simp] theorem transportRead_rxHeld (n : Nat) (s : State) : (transportRead n s).rxHeld = s.rxHeld.drop (delivered n s).length := rfl
@[simp] theorem transportRead_rxCounts (n : Nat) (s : State) : (transportRead n s).rxCounts = s.rxCounts.tail := rfl
@[simp] theorem transportRead_txSent (n : Nat) (s : State) : (transportRead n s).txSent = s.txSent := rfl
@[simp] theorem transportRead_txCounts (n : Nat) (s : State) : (transportRead n s).txCounts = s.txCounts := rfl
@[simp] theorem transportRead_hookAnswers (n : Nat) (s : State) : (transportRead n s).hookAnswers = s.hookAnswers := rfl
@[simp] theorem transportRead_inputs (n : Nat) (s : State) : (transportRead n s).inputs = s.inputs := rfl
@[simp] theorem transportRead_log (n : Nat) (s : State) : (transportRead n s).log = s.log ++ [.rx n (delivered n s)] := rfl
@[simp] theorem transportRead_result (n : Nat) (s : State) : (transportRead n s).result = s.result := rfl
@[simp] theorem transportRead_freeIdx (n : Nat) (s : State) : (transportRead n s).freeIdx = s.freeIdx := rfl

/-! transportWrite -/

@[simp] theorem transportWrite_slots (b : List Byte) (s : State) : (transportWrite b s).slots = s.slots := rfl
@[simp] theorem transportWrite_mySerial (b : List Byte) (s : State) : (transportWrite b s).mySerial = s.mySerial := rfl
@[simp] theorem transportWrite_lastRemoteSerial (b : List Byte) (s : State) : (transportWrite b s).lastRemoteSerial = s.lastRemoteSerial := rfl
@[simp] theorem transportWrite_lastAutoSendTime (b : List Byte) (s : State) : (transportWrite b s).lastAutoSendTime = s.lastAutoSendTime := rfl
@[simp] theorem transportWrite_waitFirst (b : List Byte) (s : State) : (transportWrite b s).waitFirst = s.waitFirst := rfl
@[simp] theorem transportWrite_gotFirst (b : List Byte) (s : State) : (transportWrite b s).gotFirst = s.gotFirst := rfl
@[simp] theorem transportWrite_backlog (b : List Byte) (s : State) : (transportWrite b s).backlog = s.backlog := rfl
@[simp] theorem transportWrite_inBuf (b : List Byte) (s : State) : (transportWrite b s).inBuf = s.inBuf := rfl
@[simp] theorem transportWrite_outBuf (b : List Byte) (s : State) : (transportWrite b s).outBuf = s.outBuf := rfl
@[simp] theorem transportWrite_txPending (b : List Byte) (s : State) : (transportWrite b s).txPending = s.txPending := rfl
@[simp] theorem transportWrite_txPos (b : List Byte) (s : State) : (transportWrite b s).txPos = s.txPos := rfl
@[simp] theorem transportWrite_crcAcc (b : List Byte) (s : State) : (transportWrite b s).crcAcc = s.crcAcc := rfl
@[simp] theorem transportWrite_rsp (b : List Byte) (s : State) : (transportWrite b s).rsp = s.rsp := rfl
@[simp] theorem transportWrite_mem (b : List Byte) (s : State) : (transportWrite b s).mem = s.mem := rfl
@[simp] theorem transportWrite_rxHeld (b : List Byte) (s : State) : (transportWrite b s).rxHeld = s.rxHeld := rfl
@[simp] theorem transportWrite_rxCounts (b : List Byte) (s : State) : (transportWrite b s).rxCounts = s.rxCounts := rfl
@[simp] theorem transportWrite_txSent (b : List Byte) (s : State) : (transportWrite b s).txSent = s.txSent ++ b.take (acceptedCount b s) := rfl
@[simp] theorem transportWrite_txCounts (b : List Byte) (s : State) : (transportWrite b s).txCounts = s.txCounts.tail := rfl
@[simp] theorem transportWrite_hookAnswers (b : List Byte) (s : State) : (transportWrite b s).hookAnswers = s.hookAnswers := rfl
@[simp] theorem transportWrite_inputs (b : List Byte) (s : State) : (transportWrite b s).inputs = s.inputs := rfl
@[simp] theorem transportWrite_log (b : List Byte) (s : State) : (transportWrite b s).log = s.log ++ [.tx b (acceptedCount b s)] := rfl
@[simp] theorem transportWrite_result (b : List Byte) (s : State) : (transportWrite b s).result = s.result := rfl
@[simp] theorem transportWrite_freeIdx (b : List Byte) (s : State) : (transportWrite b s).freeIdx = s.freeIdx := rfl

/-! fill -/

@[simp] theorem fill_slots (s : State) : (fill s).slots = s.slots := rfl
@[simp] theorem fill_mySerial (s : State) : (fill s).mySerial = s.mySerial := rfl
@[simp] theorem fill_lastRemoteSerial (s : State) : (fill s).lastRemoteSerial = s.lastRemoteSerial := rfl
@[simp] theorem fill_lastAutoSendTime (s : State) : (fill s).lastAutoSendTime = s.lastAutoSendTime := rfl
@[simp] theorem fill_waitFirst (s : State) : (fill s).waitFirst = s.waitFirst := rfl
@[simp] theorem fill_gotFirst (s : State) : (fill s).gotFirst = s.gotFirst := rfl
@[simp] theorem fill_backlog (s : State) : (fill s).backlog = s.backlog := rfl
@[simp] theorem fill_inBuf (s : State) : (fill s).inBuf = s.inBuf ++ delivered (Config.engine.bufSize - s.inCur) s := rfl
@[simp] theorem fill_outBuf (s : State) : (fill s).outBuf = s.outBuf := rfl
@[simp] theorem fill_txPending (s : State) : (fill s).txPending = s.txPending := rfl
@[simp] theorem fill_txPos (s : State) : (fill s).txPos = s.txPos := rfl
@[simp] theorem fill_crcAcc (s : State) : (fill s).crcAcc = s.crcAcc := rfl
@[simp] theorem fill_rsp (s : State) : (fill s).rsp = s.rsp := rfl
@[simp] theorem fill_mem (s : State) : (fill s).mem = s.mem := rfl
@[simp] theorem fill_rxHeld (s : State) : (fill s).rxHeld = s.rxHeld.drop (delivered (Config.engine.bufSize - s.inCur) s).length := rfl
@[simp] theorem fill_rxCounts (s : State) : (fill s).rxCounts = s.rxCounts.tail := rfl
@[simp] theorem fill_txSent (s : State) : (fill s).txSent = s.txSent := rfl
@[simp] theorem fill_txCounts (s : State) : (fill s).txCounts = s.txCounts := rfl
@[simp] theorem fill_hookAnswers (s : State) : (fill s).hookAnswers = s.hookAnswers := rfl
@[simp] theorem fill_inputs (s : State) : (fill s).inputs = s.inputs := rfl
@[simp] theorem fill_log (s : State) : (fill s).log = s.log ++ [.rx (Config.engine.bufSize - s.inCur) (delivered (Config.engine.bufSize - s.inCur) s)] := rfl
@[simp] theorem fill_result (s : State) : (fill s).result = s.result := rfl
@[simp] theorem fill_freeIdx (s : State) : (fill s).freeIdx = s.freeIdx := rfl

/-! setReceived -/

@[simp] theorem setReceived_slots (i : SlotIx) (b : Bool) (s : State) : (setReceived i b s).slots = s.slots.set i { s.slot i with received := b } := rfl
@[simp] theorem setReceived_mySerial (i : SlotIx) (b : Bool) (s : State) : (setReceived i b s).mySerial = s.mySerial := rfl
@[simp] theorem setReceived_lastRemoteSerial (i : SlotIx) (b : Bool) (s : State) : (setReceived i b s).lastRemoteSerial = s.lastRemoteSerial := rfl
@[simp] theorem setReceived_lastAutoSendTime (i : SlotIx) (b : Bool) (s : State) : (setReceived i b s).lastAutoSendTime = s.lastAutoSendTime := rfl
@[simp] theorem setReceived_waitFirst (i : SlotIx) (b : Bool) (s : State) : (setReceived i b s).waitFirst = s.waitFirst := rfl
@[simp] theorem setReceived_gotFirst (i : SlotIx) (b : Bool) (s : State) : (setReceived i b s).gotFirst = s.gotFirst := rfl
@[simp] theorem setReceived_backlog (i : SlotIx) (b : Bool) (s : State) : (setReceived i b s).backlog = s.backlog := rfl
@[simp] theorem setReceived_inBuf (i : SlotIx) (b : Bool) (s : State) : (setReceived i b s).inBuf = s.inBuf := rfl
@[simp] theorem setReceived_outBuf (i : SlotIx) (b : Bool) (s : State) : (setReceived i b s).outBuf = s.outBuf := rfl
@[simp] theorem setReceived_txPending (i : SlotIx) (b : Bool) (s : State) : (setReceived i b s).txPending = s.txPending := rfl
@[simp] theorem setReceived_txPos (i : SlotIx) (b : Bool) (s : State) : (setReceived i b s).txPos = s.txPos := rfl
@[simp] theorem setReceived_crcAcc (i : SlotIx) (b : Bool) (s : State) : (setReceived i b s).crcAcc = s.crcAcc := rfl
@[simp] theorem setReceived_rsp (i : SlotIx) (b : Bool) (s : State) : (setReceived i b s).rsp = s.rsp := rfl
@[simp] theorem setReceived_mem (i : SlotIx) (b : Bool) (s : State) : (setReceived i b s).mem = s.mem := rfl
@[simp] theorem setReceived_rxHeld (i : SlotIx) (b : Bool) (s : State) : (setReceived i b s).rxHeld = s.rxHeld := rfl
@[simp] theorem setReceived_rxCounts (i : SlotIx) (b : Bool) (s : State) : (setReceived i b s).rxCounts = s.rxCounts := rfl
@[simp] theorem setReceived_txSent (i : SlotIx) (b : Bool) (s : State) : (setReceived i b s).txSent = s.txSent := rfl
@[simp] theorem setReceived_txCounts (i : SlotIx) (b : Bool) (s : State) : (setReceived i b s).txCounts = s.txCounts := rfl
@[simp] theorem setReceived_hookAnswers (i : SlotIx) (b : Bool) (s : State) : (setReceived i b s).hookAnswers = s.hookAnswers := rfl
@[simp] theorem setReceived_inputs (i : SlotIx) (b : Bool) (s : State) : (setReceived i b s).inputs = s.inputs := rfl
@[simp] theorem setReceived_log (i : SlotIx) (b : Bool) (s : State) : (setReceived i b s).log = s.log := rfl
@[simp] theorem setReceived_result (i : SlotIx) (b : Bool) (s : State) : (setReceived i b s).result = s.result := rfl
@[simp] theorem setReceived_freeIdx (i : SlotIx) (b : Bool) (s : State) : (setReceived i b s).freeIdx = s.freeIdx := rfl

/-! setToSend -/

@[simp] theorem setToSend_slots (i : SlotIx) (b : Bool) (s : State) : (setToSend i b s).slots = s.slots.set i { s.slot i with toSend := b } := rfl
@[simp] theorem setToSend_mySerial (i : SlotIx) (b : Bool) (s : State) : (setToSend i b s).mySerial = s.mySerial := rfl
@[simp] theorem setToSend_lastRemoteSerial (i : SlotIx) (b : Bool) (s : State) : (setToSend i b s).lastRemoteSerial = s.lastRemoteSerial := rfl
@[simp] theorem setToSend_lastAutoSendTime (i : SlotIx) (b : Bool) (s : State) : (setToSend i b s).lastAutoSendTime = s.lastAutoSendTime := rfl
@[simp] theorem setToSend_waitFirst (i : SlotIx) (b : Bool) (s : State) : (setToSend i b s).waitFirst = s.waitFirst := rfl
@[simp] theorem setToSend_gotFirst (i : SlotIx) (b : Bool) (s : State) : (setToSend i b s).gotFirst = s.gotFirst := rfl
@[simp] theorem setToSend_backlog (i : SlotIx) (b : Bool) (s : State) : (setToSend i b s).backlog = s.backlog := rfl
@[simp] theorem setToSend_inBuf (i : SlotIx) (b : Bool) (s : State) : (setToSend i b s).inBuf = s.inBuf := rfl
@[simp] theorem setToSend_outBuf (i : SlotIx) (b : Bool) (s : State) : (setToSend i b s).outBuf = s.outBuf := rfl
@[simp] theorem setToSend_txPending (i : SlotIx) (b : Bool) (s : State) : (setToSend i b s).txPending = s.txPending := rfl
@[simp] theorem setToSend_txPos (i : SlotIx) (b : Bool) (s : State) : (setToSend i b s).txPos = s.txPos := rfl
@[simp] theorem setToSend_crcAcc (i : SlotIx) (b : Bool) (s : State) : (setToSend i b s).crcAcc = s.crcAcc := rfl
@[simp] theorem setToSend_rsp (i : SlotIx) (b : Bool) (s : State) : (setToSend i b s).rsp = s.rsp := rfl
@[simp] theorem setToSend_mem (i : SlotIx) (b : Bool) (s : State) : (setToSend i b s).mem = s.mem := rfl
@[simp] theorem setToSend_rxHeld (i : SlotIx) (b : Bool) (s : State) : (setToSend i b s).rxHeld = s.rxHeld := rfl
@[simp] theorem setToSend_rxCounts (i : SlotIx) (b : Bool) (s : State) : (setToSend i b s).rxCounts = s.rxCounts := rfl
@[simp] theorem setToSend_txSent (i : SlotIx) (b : Bool) (s : State) : (setToSend i b s).txSent = s.txSent := rfl
@[simp] theorem setToSend_txCounts (i : SlotIx) (b : Bool) (s : State) : (setToSend i b s).txCounts = s.txCounts := rfl
@[simp] theorem setToSend_hookAnswers (i : SlotIx) (b : Bool) (s : State) : (setToSend i b s).hookAnswers = s.hookAnswers := rfl
@[simp] theorem setToSend_inputs (i : SlotIx) (b : Bool) (s : State) : (setToSend i b s).inputs = s.inputs := rfl
@[simp] theorem setToSend_log (i : SlotIx) (b : Bool) (s : State) : (setToSend i b s).log = s.log := rfl
@[simp] theorem setToSend_result (i : SlotIx) (b : Bool) (s : State) : (setToSend i b s).result = s.result := rfl
@[simp] theorem setToSend_freeIdx (i : SlotIx) (b : Bool) (s : State) : (setToSend i b s).freeIdx = s.freeIdx := rfl

/-! clearRotation -/

@[simp] theorem clearRotation_slots (s : State) : (clearRotation s).slots = s.slots.map fun x => { x with wasAutoSent := false } := rfl
@[simp] theorem clearRotation_mySerial (s : State) : (clearRotation s).mySerial = s.mySerial := rfl
@[simp] theorem clearRotation_lastRemoteSerial (s : State) : (clearRotation s).lastRemoteSerial = s.lastRemoteSerial := rfl
@[simp] theorem clearRotation_lastAutoSendTime (s : State) : (clearRotation s).lastAutoSendTime = s.lastAutoSendTime := rfl
@[simp] theorem clearRotation_waitFirst (s : State) : (clearRotation s).waitFirst = s.waitFirst := rfl
@[simp] theorem clearRotation_gotFirst (s : State) : (clearRotation s).gotFirst = s.gotFirst := rfl
@[simp] theorem clearRotation_backlog (s : State) : (clearRotation s).backlog = s.backlog := rfl
@[simp] theorem clearRotation_inBuf (s : State) : (clearRotation s).inBuf = s.inBuf := rfl
@[simp] theorem clearRotation_outBuf (s : State) : (clearRotation s).outBuf = s.outBuf := rfl
@[simp] theorem clearRotation_txPending (s : State) : (clearRotation s).txPending = s.txPending := rfl
@[simp] theorem clearRotation_txPos (s : State) : (clearRotation s).txPos = s.txPos := rfl
@[simp] theorem clearRotation_crcAcc (s : State) : (clearRotation s).crcAcc = s.crcAcc := rfl
@[simp] theorem clearRotation_rsp (s : State) : (clearRotation s).rsp = s.rsp := rfl
@[simp] theorem clearRotation_mem (s : State) : (clearRotation s).mem = s.mem := rfl
@[simp] theorem clearRotation_rxHeld (s : State) : (clearRotation s).rxHeld = s.rxHeld := rfl
@[simp] theorem clearRotation_rxCounts (s : State) : (clearRotation s).rxCounts = s.rxCounts := rfl
@[simp] theorem clearRotation_txSent (s : State) : (clearRotation s).txSent = s.txSent := rfl
@[simp] theorem clearRotation_txCounts (s : State) : (clearRotation s).txCounts = s.txCounts := rfl
@[simp] theorem clearRotation_hookAnswers (s : State) : (clearRotation s).hookAnswers = s.hookAnswers := rfl
@[simp] theorem clearRotation_inputs (s : State) : (clearRotation s).inputs = s.inputs := rfl
@[simp] theorem clearRotation_log (s : State) : (clearRotation s).log = s.log := rfl
@[simp] theorem clearRotation_result (s : State) : (clearRotation s).result = s.result := rfl
@[simp] theorem clearRotation_freeIdx (s : State) : (clearRotation s).freeIdx = s.freeIdx := rfl

/-! appendSlot -/

@[simp] theorem appendSlot_slots (i : SlotIx) (s : State) : (appendSlot i s).slots = s.slots := rfl
@[simp] theorem appendSlot_mySerial (i : SlotIx) (s : State) : (appendSlot i s).mySerial = s.mySerial := rfl
@[simp] theorem appendSlot_lastRemoteSerial (i : SlotIx) (s : State) : (appendSlot i s).lastRemoteSerial = s.lastRemoteSerial := rfl
@[simp] theorem appendSlot_lastAutoSendTime (i : SlotIx) (s : State) : (appendSlot i s).lastAutoSendTime = s.lastAutoSendTime := rfl
@[simp] theorem appendSlot_waitFirst (i : SlotIx) (s : State) : (appendSlot i s).waitFirst = s.waitFirst := rfl
@[simp] theorem appendSlot_gotFirst (i : SlotIx) (s : State) : (appendSlot i s).gotFirst = s.gotFirst := rfl
@[simp] theorem appendSlot_backlog (i : SlotIx) (s : State) : (appendSlot i s).backlog = s.backlog := rfl
@[simp] theorem appendSlot_inBuf (i : SlotIx) (s : State) : (appendSlot i s).inBuf = s.inBuf := rfl
@[simp] theorem appendSlot_outBuf (i : SlotIx) (s : State) : (appendSlot i s).outBuf = s.outBuf ++ (s.slot i).id :: itemBytes s i := rfl
@[simp] theorem appendSlot_txPending (i : SlotIx) (s : State) : (appendSlot i s).txPending = s.txPending := rfl
@[simp] theorem appendSlot_txPos (i : SlotIx) (s : State) : (appendSlot i s).txPos = s.txPos := rfl
@[simp] theorem appendSlot_crcAcc (i : SlotIx) (s : State) : (appendSlot i s).crcAcc = s.crcAcc := rfl
@[simp] theorem appendSlot_rsp (i : SlotIx) (s : State) : (appendSlot i s).rsp = s.rsp := rfl
@[simp] theorem appendSlot_mem (i : SlotIx) (s : State) : (appendSlot i s).mem = s.mem := rfl
@[simp] theorem appendSlot_rxHeld (i : SlotIx) (s : State) : (appendSlot i s).rxHeld = s.rxHeld := rfl
@[simp] theorem appendSlot_rxCounts (i : SlotIx) (s : State) : (appendSlot i s).rxCounts = s.rxCounts := rfl
@[simp] theorem appendSlot_txSent (i : SlotIx) (s : State) : (appendSlot i s).txSent = s.txSent := rfl
@[simp] theorem appendSlot_txCounts (i : SlotIx) (s : State) : (appendSlot i s).txCounts = s.txCounts := rfl
@[simp] theorem appendSlot_hookAnswers (i : SlotIx) (s : State) : (appendSlot i s).hookAnswers = s.hookAnswers := rfl
@[simp] theorem appendSlot_inputs (i : SlotIx) (s : State) : (appendSlot i s).inputs = s.inputs := rfl
@[simp] theorem appendSlot_log (i : SlotIx) (s : State) : (appendSlot i s).log = s.log ++ readEvents (s.slot i).region (itemBytes s i) := rfl
@[simp] theorem appendSlot_result (i : SlotIx) (s : State) : (appendSlot i s).result = s.result := rfl
@[simp] theorem appendSlot_freeIdx (i : SlotIx) (s : State) : (appendSlot i s).freeIdx = s.freeIdx := rfl

/-! acceptHeader -/

@[simp] theorem acceptHeader_slots (f l : Byte) (p : List Byte) (s : State) : (acceptHeader f l p s).slots = s.slots := rfl
@[simp] theorem acceptHeader_mySerial (f l : Byte) (p : List Byte) (s : State) : (acceptHeader f l p s).mySerial = s.mySerial := rfl
@[simp] theorem acceptHeader_lastRemoteSerial (f l : Byte) (p : List Byte) (s : State) : (acceptHeader f l p s).lastRemoteSerial = f := rfl
@[simp] theorem acceptHeader_lastAutoSendTime (f l : Byte) (p : List Byte) (s : State) : (acceptHeader f l p s).lastAutoSendTime = s.lastAutoSendTime := rfl
@[simp] theorem acceptHeader_waitFirst (f l : Byte) (p : List Byte) (s : State) : (acceptHeader f l p s).waitFirst = s.waitFirst := rfl
@[simp] theorem acceptHeader_gotFirst (f l : Byte) (p : List Byte) (s : State) : (acceptHeader f l p s).gotFirst = true := rfl
@[simp] theorem acceptHeader_backlog (f l : Byte) (p : List Byte) (s : State) : (acceptHeader f l p s).backlog = s.backlog := rfl
@[simp] theorem acceptHeader_inBuf (f l : Byte) (p : List Byte) (s : State) : (acceptHeader f l p s).inBuf = s.inBuf := rfl
@[simp] theorem acceptHeader_outBuf (f l : Byte) (p : List Byte) (s : State) : (acceptHeader f l p s).outBuf = s.outBuf := rfl
@[simp] theorem acceptHeader_txPending (f l : Byte) (p : List Byte) (s : State) : (acceptHeader f l p s).txPending = s.txPending := rfl
@[simp] theorem acceptHeader_txPos (f l : Byte) (p : List Byte) (s : State) : (acceptHeader f l p s).txPos = s.txPos := rfl
@[simp] theorem acceptHeader_crcAcc (f l : Byte) (p : List Byte) (s : State) : (acceptHeader f l p s).crcAcc = frameChecksum p := rfl
@[simp] theorem acceptHeader_rsp (f l : Byte) (p : List Byte) (s : State) : (acceptHeader f l p s).rsp = s.rsp := rfl
@[simp] theorem acceptHeader_mem (f l : Byte) (p : List Byte) (s : State) : (acceptHeader f l p s).mem = s.mem := rfl
@[simp] theorem acceptHeader_rxHeld (f l : Byte) (p : List Byte) (s : State) : (acceptHeader f l p s).rxHeld = s.rxHeld := rfl
@[simp] theorem acceptHeader_rxCounts (f l : Byte) (p : List Byte) (s : State) : (acceptHeader f l p s).rxCounts = s.rxCounts := rfl
@[simp] theorem acceptHeader_txSent (f l : Byte) (p : List Byte) (s : State) : (acceptHeader f l p s).txSent = s.txSent := rfl
@[simp] theorem acceptHeader_txCounts (f l : Byte) (p : List Byte) (s : State) : (acceptHeader f l p s).txCounts = s.txCounts := rfl
@[simp] theorem acceptHeader_hookAnswers (f l : Byte) (p : List Byte) (s : State) : (acceptHeader f l p s).hookAnswers = s.hookAnswers := rfl
@[simp] theorem acceptHeader_inputs (f l : Byte) (p : List Byte) (s : State) : (acceptHeader f l p s).inputs = s.inputs := rfl
@[simp] theorem acceptHeader_log (f l : Byte) (p : List Byte) (s : State) : (acceptHeader f l p s).log = s.log ++ [.accepted f l] := rfl
@[simp] theorem acceptHeader_result (f l : Byte) (p : List Byte) (s : State) : (acceptHeader f l p s).result = s.result := rfl
@[simp] theorem acceptHeader_freeIdx (f l : Byte) (p : List Byte) (s : State) : (acceptHeader f l p s).freeIdx = s.freeIdx := rfl

/-! advanceSerial -/

@[simp] theorem advanceSerial_slots (s : State) : (advanceSerial s).slots = s.slots := rfl
@[simp] theorem advanceSerial_mySerial (s : State) : (advanceSerial s).mySerial = nextSerial s.mySerial := rfl
@[simp] theorem advanceSerial_lastRemoteSerial (s : State) : (advanceSerial s).lastRemoteSerial = s.lastRemoteSerial := rfl
@[simp] theorem advanceSerial_lastAutoSendTime (s : State) : (advanceSerial s).lastAutoSendTime = s.lastAutoSendTime := rfl
@[simp] theorem advanceSerial_waitFirst (s : State) : (advanceSerial s).waitFirst = s.waitFirst := rfl
@[simp] theorem advanceSerial_gotFirst (s : State) : (advanceSerial s).gotFirst = s.gotFirst := rfl
@[simp] theorem advanceSerial_backlog (s : State) : (advanceSerial s).backlog = s.backlog := rfl
@[simp] theorem advanceSerial_inBuf (s : State) : (advanceSerial s).inBuf = s.inBuf := rfl
@[simp] theorem advanceSerial_outBuf (s : State) : (advanceSerial s).outBuf = s.outBuf := rfl
@[simp] theorem advanceSerial_txPending (s : State) : (advanceSerial s).txPending = s.txPending := rfl
@[simp] theorem advanceSerial_txPos (s : State) : (advanceSerial s).txPos = s.txPos := rfl
@[simp] theorem advanceSerial_crcAcc (s : State) : (advanceSerial s).crcAcc = s.crcAcc := rfl
@[simp] theorem advanceSerial_rsp (s : State) : (advanceSerial s).rsp = s.rsp := rfl
@[simp] theorem advanceSerial_mem (s : State) : (advanceSerial s).mem = s.mem := rfl
@[simp] theorem advanceSerial_rxHeld (s : State) : (advanceSerial s).rxHeld = s.rxHeld := rfl
@[simp] theorem advanceSerial_rxCounts (s : State) : (advanceSerial s).rxCounts = s.rxCounts := rfl
@[simp] theorem advanceSerial_txSent (s : State) : (advanceSerial s).txSent = s.txSent := rfl
@[simp] theorem advanceSerial_txCounts (s : State) : (advanceSerial s).txCounts = s.txCounts := rfl
@[simp] theorem advanceSerial_hookAnswers (s : State) : (advanceSerial s).hookAnswers = s.hookAnswers := rfl
@[simp] theorem advanceSerial_inputs (s : State) : (advanceSerial s).inputs = s.inputs := rfl
@[simp] theorem advanceSerial_log (s : State) : (advanceSerial s).log = s.log := rfl
@[simp] theorem advanceSerial_result (s : State) : (advanceSerial s).result = s.result := rfl
@[simp] theorem advanceSerial_freeIdx (s : State) : (advanceSerial s).freeIdx = s.freeIdx := rfl

/-! sealFrame -/

@[simp] theorem sealFrame_slots (s : State) : (sealFrame s).slots = s.slots := rfl
@[simp] theorem sealFrame_mySerial (s : State) : (sealFrame s).mySerial = s.mySerial := rfl
@[simp] theorem sealFrame_lastRemoteSerial (s : State) : (sealFrame s).lastRemoteSerial = s.lastRemoteSerial := rfl
@[simp] theorem sealFrame_lastAutoSendTime (s : State) : (sealFrame s).lastAutoSendTime = s.lastAutoSendTime := rfl
@[simp] theorem sealFrame_waitFirst (s : State) : (sealFrame s).waitFirst = s.waitFirst := rfl
@[simp] theorem sealFrame_gotFirst (s : State) : (sealFrame s).gotFirst = s.gotFirst := rfl
@[simp] theorem sealFrame_backlog (s : State) : (sealFrame s).backlog = s.backlog := rfl
@[simp] theorem sealFrame_inBuf (s : State) : (sealFrame s).inBuf = s.inBuf := rfl
@[simp] theorem sealFrame_outBuf (s : State) : (sealFrame s).outBuf = encodeFrame s.mySerial s.lastRemoteSerial s.staged := rfl
@[simp] theorem sealFrame_txPending (s : State) : (sealFrame s).txPending = s.txPending := rfl
@[simp] theorem sealFrame_txPos (s : State) : (sealFrame s).txPos = s.txPos := rfl
@[simp] theorem sealFrame_crcAcc (s : State) : (sealFrame s).crcAcc = frameChecksum s.staged := rfl
@[simp] theorem sealFrame_rsp (s : State) : (sealFrame s).rsp = s.rsp := rfl
@[simp] theorem sealFrame_mem (s : State) : (sealFrame s).mem = s.mem := rfl
@[simp] theorem sealFrame_rxHeld (s : State) : (sealFrame s).rxHeld = s.rxHeld := rfl
@[simp] theorem sealFrame_rxCounts (s : State) : (sealFrame s).rxCounts = s.rxCounts := rfl
@[simp] theorem sealFrame_txSent (s : State) : (sealFrame s).txSent = s.txSent := rfl
@[simp] theorem sealFrame_txCounts (s : State) : (sealFrame s).txCounts = s.txCounts := rfl
@[simp] theorem sealFrame_hookAnswers (s : State) : (sealFrame s).hookAnswers = s.hookAnswers := rfl
@[simp] theorem sealFrame_inputs (s : State) : (sealFrame s).inputs = s.inputs := rfl
@[simp] theorem sealFrame_log (s : State) : (sealFrame s).log = s.log := rfl
@[simp] theorem sealFrame_result (s : State) : (sealFrame s).result = s.result := rfl
@[simp] theorem sealFrame_freeIdx (s : State) : (sealFrame s).freeIdx = s.freeIdx := rfl

/-! backlogUpdate -/

@[simp] theorem backlogUpdate_slots (s : State) : (backlogUpdate s).slots = s.slots := rfl
@[simp] theorem backlogUpdate_mySerial (s : State) : (backlogUpdate s).mySerial = s.mySerial := rfl
@[simp] theorem backlogUpdate_lastRemoteSerial (s : State) : (backlogUpdate s).lastRemoteSerial = s.lastRemoteSerial := rfl
@[simp] theorem backlogUpdate_lastAutoSendTime (s : State) : (backlogUpdate s).lastAutoSendTime = s.lastAutoSendTime := rfl
@[simp] theorem backlogUpdate_waitFirst (s : State) : (backlogUpdate s).waitFirst = s.waitFirst := rfl
@[simp] theorem backlogUpdate_gotFirst (s : State) : (backlogUpdate s).gotFirst = s.gotFirst := rfl
@[simp] theorem backlogUpdate_backlog (s : State) : (backlogUpdate s).backlog = max s.backlog (leftover s) := rfl
@[simp] theorem backlogUpdate_inBuf (s : State) : (backlogUpdate s).inBuf = s.inBuf := rfl
@[simp] theorem backlogUpdate_outBuf (s : State) : (backlogUpdate s).outBuf = s.outBuf := rfl
@[simp] theorem backlogUpdate_txPending (s : State) : (backlogUpdate s).txPending = s.txPending := rfl
@[simp] theorem backlogUpdate_txPos (s : State) : (backlogUpdate s).txPos = s.txPos := rfl
@[simp] theorem backlogUpdate_crcAcc (s : State) : (backlogUpdate s).crcAcc = s.crcAcc := rfl
@[simp] theorem backlogUpdate_rsp (s : State) : (backlogUpdate s).rsp = s.rsp := rfl
@[simp] theorem backlogUpdate_mem (s : State) : (backlogUpdate s).mem = s.mem := rfl
@[simp] theorem backlogUpdate_rxHeld (s : State) : (backlogUpdate s).rxHeld = s.rxHeld := rfl
@[simp] theorem backlogUpdate_rxCounts (s : State) : (backlogUpdate s).rxCounts = s.rxCounts := rfl
@[simp] theorem backlogUpdate_txSent (s : State) : (backlogUpdate s).txSent = s.txSent := rfl
@[simp] theorem backlogUpdate_txCounts (s : State) : (backlogUpdate s).txCounts = s.txCounts := rfl
@[simp] theorem backlogUpdate_hookAnswers (s : State) : (backlogUpdate s).hookAnswers = s.hookAnswers := rfl
@[simp] theorem backlogUpdate_inputs (s : State) : (backlogUpdate s).inputs = s.inputs := rfl
@[simp] theorem backlogUpdate_log (s : State) : (backlogUpdate s).log = s.log := rfl
@[simp] theorem backlogUpdate_result (s : State) : (backlogUpdate s).result = s.result := rfl
@[simp] theorem backlogUpdate_freeIdx (s : State) : (backlogUpdate s).freeIdx = s.freeIdx := rfl

/-! beginEngine -/

@[simp] theorem beginEngine_slots (w : Bool) (s : State) : (beginEngine w s).slots = s.slots := rfl
@[simp] theorem beginEngine_mySerial (w : Bool) (s : State) : (beginEngine w s).mySerial = 0 := rfl
@[simp] theorem beginEngine_lastRemoteSerial (w : Bool) (s : State) : (beginEngine w s).lastRemoteSerial = 0 := rfl
@[simp] theorem beginEngine_lastAutoSendTime (w : Bool) (s : State) : (beginEngine w s).lastAutoSendTime = 0 := rfl
@[simp] theorem beginEngine_waitFirst (w : Bool) (s : State) : (beginEngine w s).waitFirst = w := rfl
@[simp] theorem beginEngine_gotFirst (w : Bool) (s : State) : (beginEngine w s).gotFirst = false := rfl
@[simp] theorem beginEngine_backlog (w : Bool) (s : State) : (beginEngine w s).backlog = 0 := rfl
@[simp] theorem beginEngine_inBuf (w : Bool) (s : State) : (beginEngine w s).inBuf = [] := rfl
@[simp] theorem beginEngine_outBuf (w : Bool) (s : State) : (beginEngine w s).outBuf = s.outBuf.take Config.engine.hdrLen := rfl
@[simp] theorem beginEngine_txPending (w : Bool) (s : State) : (beginEngine w s).txPending = false := rfl
@[simp] theorem beginEngine_txPos (w : Bool) (s : State) : (beginEngine w s).txPos = 0 := rfl
@[simp] theorem beginEngine_crcAcc (w : Bool) (s : State) : (beginEngine w s).crcAcc = Config.freeCrc s.freeIdx := rfl
@[simp] theorem beginEngine_rsp (w : Bool) (s : State) : (beginEngine w s).rsp = s.rsp := rfl
@[simp] theorem beginEngine_mem (w : Bool) (s : State) : (beginEngine w s).mem = s.mem := rfl
@[simp] theorem beginEngine_rxHeld (w : Bool) (s : State) : (beginEngine w s).rxHeld = s.rxHeld := rfl
@[simp] theorem beginEngine_rxCounts (w : Bool) (s : State) : (beginEngine w s).rxCounts = s.rxCounts := rfl
@[simp] theorem beginEngine_txSent (w : Bool) (s : State) : (beginEngine w s).txSent = s.txSent := rfl
@[simp] theorem beginEngine_txCounts (w : Bool) (s : State) : (beginEngine w s).txCounts = s.txCounts := rfl
@[simp] theorem beginEngine_hookAnswers (w : Bool) (s : State) : (beginEngine w s).hookAnswers = s.hookAnswers := rfl
@[simp] theorem beginEngine_inputs (w : Bool) (s : State) : (beginEngine w s).inputs = s.inputs := rfl
@[simp] theorem beginEngine_log (w : Bool) (s : State) : (beginEngine w s).log = s.log := rfl
@[simp] theorem beginEngine_result (w : Bool) (s : State) : (beginEngine w s).result = s.result := rfl
@[simp] theorem beginEngine_freeIdx (w : Bool) (s : State) : (beginEngine w s).freeIdx = s.freeIdx + 1 := rfl

end Sys2Proof.Machine
end

