-- ==== Sys2Proof/Laws/Memory.lean ====
section
/-! SUPPORT. Application memory: a read after a write, and every memory operation keeps the canonical form
(spec/20_memory.md R60 to R63). -/

namespace Sys2Proof.Machine

theorem memWfFrom_mono {lo lo' : Nat} (h : lo' ≤ lo) : ∀ {m : Memory}, memWfFrom lo m = true → memWfFrom lo' m = true
  | [], _ => rfl
  | (k, v) :: rest, hm => by
    simp only [memWfFrom, Bool.and_eq_true, decide_eq_true_eq] at hm ⊢
    exact ⟨⟨⟨by omega, hm.1.1.2⟩, hm.1.2⟩, hm.2⟩

/-- Below the least listed address a canonical memory reads the unlisted value. -/
theorem memGet_below {lo a : Nat} (ha : a < lo) : ∀ {m : Memory}, memWfFrom lo m = true → memGet m a = Config.unwritten
  | [], _ => rfl
  | (k, v) :: rest, hm => by
    simp only [memWfFrom, Bool.and_eq_true, decide_eq_true_eq] at hm
    have hk : k ≠ a := by omega
    simp only [memGet, if_neg hk]
    exact memGet_below (by omega : a < k + 1) hm.2

/-- A write leaves every other address alone. -/
theorem memGet_memPut_ne {a b : Nat} (v : Byte) (h : b ≠ a) : ∀ m : Memory, memGet (memPut m a v) b = memGet m b
  | [] => by
    unfold memPut; split <;> simp [memGet, Ne.symm h]
  | (k, w) :: rest => by
    unfold memPut
    split
    · split
      · rfl
      · rw [memGet, if_neg (Ne.symm h)]
    · split
      · rename_i hk
        subst hk
        split
        · rw [memGet, if_neg (Ne.symm h)]
        · rw [memGet, if_neg (Ne.symm h), memGet, if_neg (Ne.symm h)]
      · simp only [memGet, memGet_memPut_ne v h rest]

/-- A read after a write to the same address of a canonical memory gives the value written. -/
theorem memGet_memPut_same {a : Nat} (v : Byte) : ∀ {lo : Nat} {m : Memory}, memWfFrom lo m = true →
    memGet (memPut m a v) a = v
  | _, [], _ => by
    unfold memPut; split
    · simp_all [memGet]
    · simp [memGet]
  | _, (k, w) :: rest, hm => by
    simp only [memWfFrom, Bool.and_eq_true, decide_eq_true_eq] at hm
    unfold memPut
    split
    · split
      · rename_i hlt hv
        have hk : k ≠ a := by omega
        rw [memGet, if_neg hk, memGet_below (by omega : a < k + 1) hm.2, hv]
      · simp [memGet]
    · split
      · rename_i hk
        subst hk
        split
        · rename_i hv
          rw [memGet_below (by omega : a < a + 1) hm.2, hv]
        · simp [memGet]
      · rename_i hlt hne
        have hk : k ≠ a := by omega
        rw [memGet, if_neg hk]
        exact memGet_memPut_same v hm.2

/-- A write keeps the canonical form. -/
theorem memPut_wf {a : Nat} (v : Byte) (ha : a < 2 ^ 32) : ∀ {lo : Nat} {m : Memory}, lo ≤ a → memWfFrom lo m = true →
    memWfFrom lo (memPut m a v) = true
  | lo, [], hlo, _ => by
    have ha' : a < 4294967296 := ha
    unfold memPut; split
    · rfl
    · rename_i hv; simp [memWfFrom, hlo, ha', hv]
  | lo, (k, w) :: rest, hlo, hm => by
    have hm' := hm
    simp only [memWfFrom, Bool.and_eq_true, decide_eq_true_eq] at hm
    unfold memPut
    split
    · split
      · exact hm'
      · rename_i hlt hv
        have hk : a + 1 ≤ k := by omega
        have ha' : a < 4294967296 := ha
        have hk' : k < 4294967296 := hm.1.1.2
        simp [memWfFrom, hlo, ha', hv, hk, hk', hm.1.2, hm.2]
    · split
      · rename_i hk
        subst hk
        split
        · exact memWfFrom_mono (by omega) hm.2
        · rename_i hv
          have ha' : a < 4294967296 := ha
          simp [memWfFrom, hlo, ha', hv, hm.2]
      · rename_i hlt hne
        have hk : k + 1 ≤ a := by omega
        simp only [memWfFrom, Bool.and_eq_true, decide_eq_true_eq]
        exact ⟨⟨⟨hm.1.1.1, hm.1.1.2⟩, hm.1.2⟩, memPut_wf v ha hk hm.2⟩

/-! One byte of the application's memory -/

theorem byteAt_appStore_ne {a b : Addr} (v : Byte) (s : State) (h : b ≠ a) :
    (appStore a v s).byteAt b = s.byteAt b :=
  memGet_memPut_ne v (fun e => h (BitVec.eq_of_toNat_eq e)) s.mem

theorem byteAt_appStore_same {a : Addr} (v : Byte) {s : State} (h : s.mem.wf = true) :
    (appStore a v s).byteAt a = v :=
  memGet_memPut_same v h

theorem appStore_wf (a : Addr) (v : Byte) {s : State} (h : s.mem.wf = true) : (appStore a v s).mem.wf = true :=
  memPut_wf v a.isLt (Nat.zero_le _) h

@[simp] theorem byteAt_emit (e : Event) (s : State) (a : Addr) : (s.emit e).byteAt a = s.byteAt a := rfl
@[simp] theorem byteAt_fail (c : ErrorCode) (s : State) (a : Addr) : (s.fail c).byteAt a = s.byteAt a := rfl
@[simp] theorem byteAt_setSlot (i : SlotIx) (x : Slot) (s : State) (a : Addr) : (s.setSlot i x).byteAt a = s.byteAt a := rfl

/-- Two states with one memory read the same bytes. -/
theorem byteAt_of_mem {s t : State} (h : t.mem = s.mem) (a : Addr) : t.byteAt a = s.byteAt a := by
  simp [State.byteAt, h]

theorem bytesAt_of_mem {s t : State} (h : t.mem = s.mem) : ∀ (n : Nat) (a : Addr), bytesAt t a n = bytesAt s a n
  | 0, _ => rfl
  | n + 1, a => by simp [bytesAt, byteAt_of_mem h, bytesAt_of_mem h n]

@[simp] theorem bytesAt_length (s : State) : ∀ (n : Nat) (a : Addr), (bytesAt s a n).length = n
  | 0, _ => rfl
  | n + 1, a => by simp [bytesAt, bytesAt_length s n]

/-- The address `k` bytes above the next one is `k + 1` bytes above this one. -/
theorem addr_succ (a : Addr) (k : Nat) : a + 1 + BitVec.ofNat 32 k = a + BitVec.ofNat 32 (k + 1) := by
  rw [BitVec.add_assoc, BitVec.ofNat_add]
  congr 1
  exact BitVec.add_comm _ _

/-! The region copy (R62, R134) -/

/-- A region copy changes memory and the log, nothing else. -/
theorem memWriteAll_eq : ∀ (d : List Byte) (a : Addr) (s : State), ∃ m l, memWriteAll a d s = { s with mem := m, log := l }
  | [], _, s => ⟨s.mem, s.log, rfl⟩
  | b :: rest, a, s => by
    obtain ⟨m, l, h⟩ := memWriteAll_eq rest (a + 1) (memWrite a b s)
    exact ⟨m, l, h⟩

theorem memWriteAll_wf : ∀ (d : List Byte) (a : Addr) {s : State}, s.mem.wf = true → (memWriteAll a d s).mem.wf = true
  | [], _, _, h => h
  | b :: rest, a, _, h => memWriteAll_wf rest (a + 1) (appStore_wf a b h)

/-- The log of a region copy: one write per byte, in ascending order (R62, R74). -/
def writeEvents : Addr → List Byte → List Event
  | _, [] => []
  | a, b :: rest => .memWrite a b :: writeEvents (a + 1) rest

theorem memWriteAll_log : ∀ (d : List Byte) (a : Addr) (s : State),
    (memWriteAll a d s).log = s.log ++ writeEvents a d
  | [], _, s => by simp [memWriteAll, writeEvents]
  | b :: rest, a, s => by
    rw [memWriteAll, memWriteAll_log rest (a + 1)]
    simp [memWrite, writeEvents]

/-- A byte outside the bytes copied keeps its value. -/
theorem byteAt_memWriteAll_out : ∀ (d : List Byte) (a b : Addr) (s : State),
    (∀ k, k < d.length → b ≠ a + BitVec.ofNat 32 k) → (memWriteAll a d s).byteAt b = s.byteAt b
  | [], _, _, _, _ => rfl
  | x :: rest, a, b, s, h => by
    rw [memWriteAll, byteAt_memWriteAll_out rest (a + 1) b]
    · have h0 := h 0 (by simp)
      simp only [memWrite, byteAt_emit]
      exact byteAt_appStore_ne x s (by simpa using h0)
    · intro k hk e
      exact h (k + 1) (by simpa using hk) (e.trans (addr_succ a k))

/-- Byte `k` of the bytes copied stands at base plus `k`. -/
theorem byteAt_memWriteAll_in : ∀ (d : List Byte) (a : Addr) {s : State} (k : Nat) (hk : k < d.length),
    d.length ≤ 2 ^ 32 → s.mem.wf = true → (memWriteAll a d s).byteAt (a + BitVec.ofNat 32 k) = d[k]
  | x :: rest, a, s, 0, _, hlen, h => by
    rw [memWriteAll, byteAt_memWriteAll_out rest (a + 1)]
    · simpa [memWrite] using byteAt_appStore_same x h
    · intro k hk e
      have : BitVec.ofNat 32 (k + 1) = 0 := by
        rw [addr_succ] at e
        simpa using e.symm
      have h2 := congrArg BitVec.toNat this
      simp only [BitVec.toNat_ofNat, List.length_cons] at h2 hlen
      have h3 : (0 : BitVec 32).toNat = 0 := rfl
      rw [h3] at h2
      omega
  | x :: rest, a, s, k + 1, hk, hlen, h => by
    have := byteAt_memWriteAll_in rest (a + 1) (s := memWrite a x s) k (by simpa using hk) (by simp at hlen; omega)
      (appStore_wf a x h : (memWrite a x s).mem.wf = true)
    rw [addr_succ] at this
    exact this

/-! The writes of a hook (R240) -/

theorem hookStores_eq : ∀ (w : List (Addr × Byte)) (s : State), ∃ m, hookStores w s = { s with mem := m }
  | [], s => ⟨s.mem, rfl⟩
  | (a, v) :: rest, s => by
    obtain ⟨m, h⟩ := hookStores_eq rest (appStore a v s)
    exact ⟨m, h⟩

theorem hookStores_wf : ∀ (w : List (Addr × Byte)) {s : State}, s.mem.wf = true → (hookStores w s).mem.wf = true
  | [], _, h => h
  | (a, v) :: rest, _, h => hookStores_wf rest (appStore_wf a v h)

end Sys2Proof.Machine
end

