-- ==== Sys2Proof/Laws/Registry.lean ====
section
/-! SUPPORT. The registry: what a scan finds, what a slot update changes, and what each registry operation can do
(spec/41_registry.md). -/

namespace Sys2Proof.Machine

/-! Slots -/

@[simp] theorem slot_setSlot_same (i : SlotIx) (x : Slot) (s : State) : (s.setSlot i x).slot i = x := by
  simp [State.slot]

theorem slot_setSlot_ne {i j : SlotIx} (x : Slot) (s : State) (h : j ≠ i) : (s.setSlot i x).slot j = s.slot j := by
  simp only [State.slot, setSlot_slots]
  exact Vector.getElem_set_ne _ _ (fun e => h (Fin.ext e.symm))

theorem slot_setSlot (i j : SlotIx) (x : Slot) (s : State) :
    (s.setSlot i x).slot j = if j = i then x else s.slot j := by
  split
  · rename_i h; rw [h, slot_setSlot_same]
  · rename_i h; exact slot_setSlot_ne x s h

/-- Two states with one registry have the same slots. -/
theorem slot_of_slots {s t : State} (h : t.slots = s.slots) (i : SlotIx) : t.slot i = s.slot i := by
  simp [State.slot, h]

/-- Registries with the same slots are one registry. -/
theorem slots_ext {s t : State} (h : ∀ i, t.slot i = s.slot i) : t.slots = s.slots := by
  apply Vector.ext
  intro i hi
  exact h ⟨i, hi⟩

@[simp] theorem slot_emit (e : Event) (s : State) (i : SlotIx) : (s.emit e).slot i = s.slot i := rfl
@[simp] theorem slot_fail (c : ErrorCode) (s : State) (i : SlotIx) : (s.fail c).slot i = s.slot i := rfl
@[simp] theorem slot_respond (r : Response) (s : State) (i : SlotIx) : (s.respond r).slot i = s.slot i := rfl
@[simp] theorem slot_give (r : Result) (s : State) (i : SlotIx) : (s.give r).slot i = s.slot i := rfl
@[simp] theorem slot_stage (t : Byte) (d : List Byte) (s : State) (i : SlotIx) : (stage t d s).slot i = s.slot i := rfl
@[simp] theorem slot_appendSlot (j : SlotIx) (s : State) (i : SlotIx) : (appendSlot j s).slot i = s.slot i := rfl

theorem slot_setReceived (i j : SlotIx) (b : Bool) (s : State) :
    (setReceived i b s).slot j = if j = i then { s.slot j with received := b } else s.slot j := by
  rw [setReceived, slot_setSlot]; split <;> simp_all

theorem slot_setToSend (i j : SlotIx) (b : Bool) (s : State) :
    (setToSend i b s).slot j = if j = i then { s.slot j with toSend := b } else s.slot j := by
  rw [setToSend, slot_setSlot]; split <;> simp_all

@[simp] theorem slot_clearRotation (s : State) (j : SlotIx) :
    (clearRotation s).slot j = { s.slot j with wasAutoSent := false } := by
  simp [State.slot]

/-! Scans (R130, R131, R132, R199) -/

/-- Every scan goes over the eight slots of the registry (R8). -/
theorem slotIndices_eq : slotIndices = List.finRange 8 := by decide

theorem mem_slotIndices (i : SlotIx) : i ∈ slotIndices := slotIndices_eq ▸ List.mem_finRange i

theorem slotIndices_pairwise : slotIndices.Pairwise (· < ·) := by decide

/-- A scan finds the lowest slot that satisfies its test. -/
theorem firstSlot_eq_some {p : Slot → Bool} {s : State} {i : SlotIx} :
    firstSlot p s = some i ↔ Lowest (fun j => p (s.slot j) = true) i := by
  rw [firstSlot, slotIndices_eq, List.find?_eq_some_iff_getElem]
  constructor
  · rintro ⟨hp, n, hn, hi, hlt⟩
    refine ⟨hp, fun j hj hpj => ?_⟩
    have e : n = i.val := by rw [← hi]; simp
    have := hlt j.val (by rw [e]; exact hj)
    simp [hpj] at this
  · rintro ⟨hp, hlt⟩
    refine ⟨hp, i.val, by simp, by simp, fun j hj => ?_⟩
    have hj8 : j < Config.sizes.maxItems := lt_trans hj i.isLt
    have := hlt ⟨j, hj8⟩ hj
    simpa using this

/-- A scan finds nothing exactly when no slot satisfies its test. -/
theorem firstSlot_eq_none {p : Slot → Bool} {s : State} :
    firstSlot p s = none ↔ ∀ j, ¬p (s.slot j) = true := by
  rw [firstSlot, slotIndices_eq, List.find?_eq_none]
  simp

theorem lookup_eq_some {id : Byte} {s : State} {i : SlotIx} : lookup id s = some i ↔ Lowest (HoldsId s id) i := by
  unfold lookup
  rw [firstSlot_eq_some]
  simp [Lowest, HoldsId]

theorem lookup_eq_none {id : Byte} {s : State} : lookup id s = none ↔ ∀ j, ¬HoldsId s id j := by
  unfold lookup
  rw [firstSlot_eq_none]
  simp [HoldsId]

theorem lookupByRegion_eq_some {r : Addr} {s : State} {i : SlotIx} :
    lookupByRegion r s = some i ↔ Lowest (HoldsRegion s r) i := by
  unfold lookupByRegion
  rw [firstSlot_eq_some]
  simp [Lowest, HoldsRegion]

theorem lookupByRegion_eq_none {r : Addr} {s : State} : lookupByRegion r s = none ↔ ∀ j, ¬HoldsRegion s r j := by
  unfold lookupByRegion
  rw [firstSlot_eq_none]
  simp [HoldsRegion]

theorem freeSlot_eq_some {s : State} {i : SlotIx} :
    freeSlot s = some i ↔ Lowest (fun j => (s.slot j).used = false) i := by
  unfold freeSlot
  rw [firstSlot_eq_some]
  simp [Lowest]

theorem freeSlot_eq_none {s : State} : freeSlot s = none ↔ ∀ j, (s.slot j).used = true := by
  unfold freeSlot
  rw [firstSlot_eq_none]
  simp

/-- A slot found by id holds it. -/
theorem lookup_holds {id : Byte} {s : State} {i : SlotIx} (h : lookup id s = some i) : HoldsId s id i :=
  (lookup_eq_some.mp h).1

theorem anyToSend_iff {s : State} : anyToSend s = true ↔ ∃ i, (s.slot i).used = true ∧ (s.slot i).toSend = true := by
  simp [anyToSend, slotIndices_eq]

theorem rotationDone_iff {s : State} :
    rotationDone s = true ↔ ∀ i, (s.slot i).used = true → (s.slot i).autoSend = true → (s.slot i).wasAutoSent = true := by
  simp only [rotationDone, slotIndices_eq, List.all_eq_true, List.mem_finRange, forall_const]
  refine forall_congr' fun i => ?_
  cases (s.slot i).used <;> cases (s.slot i).autoSend <;> cases (s.slot i).wasAutoSent <;> simp

/-! What each operation can do -/

/-- `bind` leaves the state but for one slot, or but for the log (R132). -/
theorem bindItem_cases (id : Byte) (region : Addr) (size : Byte) (autoSend : Bool) (s : State) :
    (region = Config.engine.nullAddr ∧ ∃ i, lookup id s = some i ∧ bindItem id region size autoSend s = s.setSlot i Slot.free) ∨
    (region = Config.engine.nullAddr ∧ lookup id s = none ∧ bindItem id region size autoSend s = s) ∨
    (region ≠ Config.engine.nullAddr ∧ (size.toNat > 56 ∨ region.toNat + size.toNat > 2 ^ 32) ∧
      bindItem id region size autoSend s = s.fail .arg) ∨
    (region ≠ Config.engine.nullAddr ∧ size.toNat ≤ 56 ∧ region.toNat + size.toNat ≤ 2 ^ 32 ∧
      ∃ i, slotFor id s = some i ∧ bindItem id region size autoSend s = s.setSlot i (boundSlot id region size autoSend)) ∨
    (region ≠ Config.engine.nullAddr ∧ size.toNat ≤ 56 ∧ region.toNat + size.toNat ≤ 2 ^ 32 ∧ slotFor id s = none ∧
      bindItem id region size autoSend s = s.fail .full) := by
  have hmax : Config.engine.maxItemSize = 56 := rfl
  unfold bindItem
  by_cases hr : region = Config.engine.nullAddr
  · simp only [if_pos hr]
    cases h : lookup id s with
    | none => exact .inr (.inl ⟨hr, rfl, rfl⟩)
    | some i => exact .inl ⟨hr, i, rfl, rfl⟩
  · simp only [if_neg hr, crossesTop, hmax, Config.appAW_eq]
    by_cases hs : size.toNat > 56 ∨ region.toNat + size.toNat > 2 ^ 32
    · refine .inr (.inr (.inl ⟨hr, hs, ?_⟩))
      rw [if_pos (by simpa using hs)]
    · rw [if_neg (by simpa using hs)]
      have h56 : size.toNat ≤ 56 ∧ region.toNat + size.toNat ≤ 2 ^ 32 := by omega
      cases h : slotFor id s with
      | none => exact .inr (.inr (.inr (.inr ⟨hr, h56.1, h56.2, rfl, rfl⟩)))
      | some i => exact .inr (.inr (.inr (.inl ⟨hr, h56.1, h56.2, i, rfl, rfl⟩)))

/-- The slot a binding takes holds the id already, or is the lowest free one and no slot holds the id (R132). -/
theorem slotFor_eq_some {id : Byte} {s : State} {i : SlotIx} :
    slotFor id s = some i ↔ Lowest (HoldsId s id) i ∨
      ((∀ j, ¬HoldsId s id j) ∧ Lowest (fun j => (s.slot j).used = false) i) := by
  unfold slotFor
  cases h : lookup id s with
  | none =>
    have hn := lookup_eq_none.mp h
    simp only [Option.orElse_none, freeSlot_eq_some]
    exact ⟨fun hf => .inr ⟨hn, hf⟩, fun hc => hc.elim (fun hl => absurd hl.1 (hn i)) (·.2)⟩
  | some k =>
    have hk := lookup_eq_some.mp h
    simp only [Option.orElse_some, Option.some.injEq]
    constructor
    · rintro rfl; exact .inl hk
    · rintro (hl | ⟨hn, -⟩)
      · exact Option.some.inj (h.symm.trans (lookup_eq_some.mpr hl))
      · exact absurd hk.1 (hn k)

/-- No slot is left for a binding exactly when the id is new and every slot is used (R132). -/
theorem slotFor_eq_none {id : Byte} {s : State} :
    slotFor id s = none ↔ (∀ j, ¬HoldsId s id j) ∧ ∀ j, (s.slot j).used = true := by
  unfold slotFor
  cases h : lookup id s with
  | none => simp only [Option.orElse_none, freeSlot_eq_none]; exact ⟨fun hf => ⟨lookup_eq_none.mp h, hf⟩, (·.2)⟩
  | some k =>
    simp only [Option.orElse_some, reduceCtorEq, false_iff]
    exact fun hn => hn.1 k (lookup_holds h)

/-- `markReceived` changes memory, the log, and the `Received` flag of the slot that holds the id (R134). -/
theorem markReceived_cases (id : Byte) (src : List Byte) (s : State) :
    (lookup id s = none ∧ markReceived id src s = s) ∨
    ∃ i m l, lookup id s = some i ∧
      markReceived id src s = { s with slots := s.slots.set i { s.slot i with received := true }, mem := m, log := l } := by
  unfold markReceived
  cases h : lookup id s with
  | none => exact .inl ⟨rfl, rfl⟩
  | some i =>
    obtain ⟨m, l, hw⟩ := memWriteAll_eq (src.take (s.slot i).size.toNat) (s.slot i).region s
    exact .inr ⟨i, m, l, rfl, by simp only [hw]; rfl⟩

theorem markReceived_wf (id : Byte) (src : List Byte) {s : State} (h : s.mem.wf = true) :
    (markReceived id src s).mem.wf = true := by
  unfold markReceived
  cases lookup id s with
  | none => exact h
  | some i => exact memWriteAll_wf _ _ h

end Sys2Proof.Machine
end

