-- ==== Sys2Proof/Laws/Codec.lean ====
section
/-! SUPPORT. The hooks and the codec: what a hook call, a decoded payload and an encoded payload can do
(spec/42_codec.md R150 to R163, spec/60_exceptions.md R236 to R240). -/

namespace Sys2Proof.Machine

/-! Outcomes -/

@[simp] theorem andThen_next {α β : Type} (a : α) (f : α → Host.Outcome β Fault Refusal) : andThen (.next a) f = f a := rfl
@[simp] theorem andThen_fault {α β : Type} (r : Fault) (f : α → Host.Outcome β Fault Refusal) :
    andThen (.fault r) f = .fault r := rfl
@[simp] theorem andThen_refused {α β : Type} (r : Refusal) (f : α → Host.Outcome β Fault Refusal) :
    andThen (.refused r) f = .refused r := rfl

/-- A sequence answers a next state exactly when both parts do. -/
theorem andThen_eq_next {α β : Type} {o : Host.Outcome α Fault Refusal} {f : α → Host.Outcome β Fault Refusal} {b : β} :
    andThen o f = .next b ↔ ∃ a, o = .next a ∧ f a = .next b := by
  cases o with
  | next a => simp
  | fault r => simp
  | refused r => simp

/-! What decoding may change (R150, R187) -/

/-- `a` is no byte of the region of a used slot (R61). -/
def Outside (s : State) (a : Addr) : Prop :=
  ∀ i, (s.slot i).used = true → ∀ k, k < (s.slot i).size.toNat → a ≠ (s.slot i).region + BitVec.ofNat 32 k

/-- What a decoded payload may do: memory, the `Received` flags, the hook answers and the log change, nothing else; a
`Received` flag is only set, and of used slots only; the canonical form is kept; without hook writes no byte outside the
bound regions changes. -/
structure Decoded (s t : State) : Prop where
  eq : t = { s with slots := t.slots, mem := t.mem, hookAnswers := t.hookAnswers, log := t.log }
  slot : ∀ i, t.slot i = { s.slot i with received := (t.slot i).received }
  sets : ∀ i, (s.slot i).received = true → (t.slot i).received = true
  free : ∀ i, (s.slot i).used = false → t.slot i = s.slot i
  wf : s.mem.wf = true → t.mem.wf = true
  hooks : t.hookAnswers <:+ s.hookAnswers
  log : s.log <+: t.log
  outside : HooksWriteNothing s → ∀ a, Outside s a → t.byteAt a = s.byteAt a

theorem Decoded.refl (s : State) : Decoded s s where
  eq := rfl
  slot _ := rfl
  sets _ h := h
  free _ _ := rfl
  wf h := h
  hooks := List.suffix_refl _
  log := List.prefix_refl _
  outside _ _ _ := rfl

theorem Decoded.hooksReturn {s t : State} (h : Decoded s t) (hs : HooksReturn s) : HooksReturn t :=
  fun hm => hs (h.hooks.subset hm)

theorem Decoded.writeNothing {s t : State} (h : Decoded s t) (hs : HooksWriteNothing s) : HooksWriteNothing t :=
  fun x hx => hs x (h.hooks.subset hx)

theorem Decoded.outside_iff {s t : State} (h : Decoded s t) (a : Addr) : Outside t a ↔ Outside s a := by
  unfold Outside
  refine forall_congr' fun i => ?_
  rw [h.slot i]

theorem Decoded.trans {s t u : State} (h : Decoded s t) (h' : Decoded t u) : Decoded s u where
  eq := by
    have e := h'.eq
    rw [h.eq] at e
    exact e
  slot i := by rw [h'.slot i, h.slot i]
  sets i hr := h'.sets i (h.sets i hr)
  free i hu := (h'.free i (by rw [h.slot i]; exact hu)).trans (h.free i hu)
  wf hw := h'.wf (h.wf hw)
  hooks := h'.hooks.trans h.hooks
  log := h.log.trans h'.log
  outside hw a ha := (h'.outside (h.writeNothing hw) a ((h.outside_iff a).mpr ha)).trans (h.outside hw a ha)

theorem Decoded.emit (e : Event) (s : State) : Decoded s (s.emit e) where
  eq := rfl
  slot _ := rfl
  sets _ h := h
  free _ _ := rfl
  wf h := h
  hooks := List.suffix_refl _
  log := List.prefix_append _ _
  outside _ _ _ := rfl

/-! Hook calls (R236 to R240) -/

/-- What a hook call can do: it hangs, or it takes one answer (or the default) and may write memory. -/
theorem callHook_cases (s : State) :
    (∃ rest, s.hookAnswers = .hangs :: rest ∧ callHook s = .fault .hookHangs) ∨
    (s.hookAnswers = [] ∧ callHook s = .next (s, 0)) ∨
    ∃ c w rest m, s.hookAnswers = .returns c w :: rest ∧ hookStores w s = { s with mem := m } ∧
      callHook s = .next ({ s with mem := m, hookAnswers := rest }, c) := by
  unfold callHook
  rcases h : s.hookAnswers with _ | ⟨_ | _, rest⟩
  · exact .inr (.inl ⟨rfl, rfl⟩)
  · rename_i c w
    obtain ⟨m, hm⟩ := hookStores_eq w s
    refine .inr (.inr ⟨c, w, rest, m, rfl, by rw [hm, h], ?_⟩)
    have : ∀ (w : List (Addr × Byte)) (s : State),
        hookStores w { s with hookAnswers := rest } = { hookStores w s with hookAnswers := rest } := by
      intro w
      induction w with
      | nil => intro s; rfl
      | cons x xs ih => intro s; exact ih (appStore x.1 x.2 s)
    simp [this, hm]
  · exact .inl ⟨rest, rfl, rfl⟩

theorem callHook_decoded {s : State} {r : State × Nat} (h : callHook s = .next r) : Decoded s r.1 := by
  rcases callHook_cases s with ⟨_, _, h'⟩ | ⟨_, h'⟩ | ⟨c, w, rest, m, ha, hm, h'⟩
  · rw [h'] at h; cases h
  · rw [h'] at h; cases h; exact Decoded.refl s
  · rw [h'] at h
    cases h
    refine ⟨rfl, fun _ => rfl, fun _ hr => hr, fun _ _ => rfl, fun hw => ?_, ?_, List.prefix_refl _, fun hn a _ => ?_⟩
    · have := hookStores_wf w hw
      rw [hm] at this
      exact this
    · simp [ha]
    · have hw0 : w = [] := hn (.returns c w) (by simp [ha])
      subst hw0
      have hm0 : s.mem = m := by simpa [hookStores] using congrArg State.mem hm
      subst hm0
      rfl

theorem callHook_completes {s : State} (h : HooksReturn s) : ∃ r, callHook s = .next r := by
  rcases callHook_cases s with ⟨rest, ha, _⟩ | ⟨_, h'⟩ | ⟨_, _, _, _, _, _, h'⟩
  · exact absurd (by simp [ha]) h
  · exact ⟨_, h'⟩
  · exact ⟨_, h'⟩

theorem unknownHook_decoded {t : Byte} {rest : List Byte} {s : State} {r : State × Nat}
    (h : unknownHook t rest s = .next r) : Decoded s r.1 :=
  (Decoded.emit _ s).trans (callHook_decoded h)

theorem notifyDiscard_decoded {b : List Byte} {s t : State} (h : notifyDiscard b s = .next t) : Decoded s t := by
  obtain ⟨r, hr, e⟩ := andThen_eq_next.mp h
  cases e
  exact (Decoded.emit _ s).trans (callHook_decoded hr)

theorem unknownHook_completes {s : State} (h : HooksReturn s) (t : Byte) (rest : List Byte) :
    ∃ r, unknownHook t rest s = .next r :=
  callHook_completes (s := s.emit (.unknownHook t rest)) h

theorem notifyDiscard_completes {s : State} (h : HooksReturn s) (b : List Byte) : ∃ t, notifyDiscard b s = .next t := by
  obtain ⟨r, hr⟩ := callHook_completes (s := s.emit (.discard b)) h
  exact ⟨r.1, by rw [notifyDiscard, hr]; rfl⟩

/-! Decoding (R152) -/

theorem markReceived_decoded (id : Byte) (src : List Byte) (s : State) : Decoded s (markReceived id src s) := by
  unfold markReceived
  cases h : lookup id s with
  | none => exact Decoded.refl s
  | some i =>
    obtain ⟨hu, -⟩ := lookup_holds h
    obtain ⟨m, l, hw⟩ := memWriteAll_eq (src.take (s.slot i).size.toNat) (s.slot i).region s
    have hslot : ∀ j, (memWriteAll (s.slot i).region (src.take (s.slot i).size.toNat) s).slot j = s.slot j := by
      intro j; rw [hw]; rfl
    refine ⟨?_, fun j => ?_, fun j hr => ?_, fun j hj => ?_, fun hwf => memWriteAll_wf _ _ hwf, ?_, ?_, fun _ a ha => ?_⟩
    · dsimp only
      rw [hw]
      rfl
    · dsimp only
      rw [slot_setReceived, hslot]
      split <;> simp_all
    · dsimp only
      rw [slot_setReceived, hslot]
      split <;> simp_all
    · dsimp only
      have hne : j ≠ i := fun e => by rw [e, hu] at hj; cases hj
      rw [slot_setReceived, hslot, if_neg hne]
    · dsimp only
      rw [setReceived_hookAnswers, hw]
    · dsimp only
      rw [setReceived_log, memWriteAll_log]
      exact List.prefix_append _ _
    · refine (byteAt_setSlot _ _ _ _).trans (byteAt_memWriteAll_out _ _ _ _ fun k hk => ?_)
      refine ha i hu k ?_
      simp at hk
      omega

/-- One pass of the decoding loop: what it changes, and that what is left to decode is shorter. -/
theorem decodePass_decoded {left : List Byte} {s : State} {r : State × Option (List Byte)}
    (h : decodePass left s = .next r) : Decoded s r.1 ∧ ∀ rest, r.2 = some rest → rest.length < left.length := by
  unfold decodePass at h
  rcases left with _ | ⟨t, rest⟩
  · simp only [decodeSub] at h
    cases h
    exact ⟨Decoded.refl s, by simp⟩
  simp only [decodeSub] at h
  cases hb : boundSize s t with
  | some n =>
    simp only [hb] at h
    by_cases hn : n > rest.length
    · simp only [if_pos hn] at h
      cases h
      exact ⟨Decoded.emit _ s, by simp⟩
    · simp only [if_neg hn] at h
      cases h
      refine ⟨markReceived_decoded _ _ s, ?_⟩
      rintro r' ⟨⟩
      simp
  | none =>
    simp only [hb] at h
    obtain ⟨u, hu, e⟩ := andThen_eq_next.mp h
    cases e
    refine ⟨(Decoded.emit _ s).trans (unknownHook_decoded hu), ?_⟩
    intro r' hr'
    dsimp only at hr'
    split at hr'
    · cases hr'
    · cases hr'
      simp

theorem decodePass_completes {s : State} (h : HooksReturn s) (left : List Byte) : ∃ r, decodePass left s = .next r := by
  unfold decodePass
  cases decodeSub (boundSize s) left with
  | done => exact ⟨_, rfl⟩
  | known t d r => exact ⟨_, rfl⟩
  | truncated t => exact ⟨_, rfl⟩
  | unknown t rest =>
    obtain ⟨r, hr⟩ := unknownHook_completes (s := s.fail .unknown) h t rest
    exact ⟨_, by simp only [hr, andThen_next]; rfl⟩

theorem decodeLoop_decoded : ∀ (n : Nat) {left : List Byte} {s t : State}, decodeLoop n left s = .next t → Decoded s t
  | 0, _, s, _, h => by cases h; exact Decoded.refl s
  | n + 1, left, s, t, h => by
    obtain ⟨r, hr, e⟩ := andThen_eq_next.mp h
    have hp := (decodePass_decoded hr).1
    rcases r with ⟨u, _ | rest⟩
    · cases e; exact hp
    · exact hp.trans (decodeLoop_decoded n e)

theorem decodeLoop_completes : ∀ (n : Nat) {s : State}, HooksReturn s → ∀ left, ∃ t, decodeLoop n left s = .next t
  | 0, s, _, _ => ⟨s, rfl⟩
  | n + 1, s, h, left => by
    obtain ⟨⟨u, r⟩, hr⟩ := decodePass_completes h left
    rw [decodeLoop, hr, andThen_next]
    rcases r with _ | rest
    · exact ⟨u, rfl⟩
    · exact decodeLoop_completes n ((decodePass_decoded hr).1.hooksReturn h) rest

/-- More passes than bytes change nothing: the loop ends by itself (R158). -/
theorem decodeLoop_fuel : ∀ (n : Nat) {left : List Byte} {s : State}, left.length ≤ n →
    decodeLoop n left s = decodeLoop left.length left s
  | 0, [], _, _ => rfl
  | n + 1, [], s, _ => by simp [decodeLoop, decodePass, decodeSub]
  | n + 1, x :: xs, s, h => by
    simp only [decodeLoop, List.length_cons]
    cases hp : decodePass (x :: xs) s with
    | fault f => rfl
    | refused f => rfl
    | next r =>
      simp only [andThen_next]
      rcases hr : r.2 with _ | rest
      · rfl
      · have := (decodePass_decoded hp).2 rest hr
        simp only [List.length_cons] at this h
        dsimp only
        have h1 : rest.length ≤ n := by omega
        have h2 : rest.length ≤ xs.length := by omega
        have h3 : xs.length < n + 1 := by omega
        rw [decodeLoop_fuel n h1, decodeLoop_fuel xs.length h2]
  termination_by n => n

/-- A payload with a first byte is one pass and then the rest (R152). -/
theorem decodePayload_cons (t : Byte) (rest : List Byte) (s : State) :
    decodePayload (t :: rest) s = andThen (decodePass (t :: rest) s) fun r =>
      match r.2 with
      | none => .next r.1
      | some left => decodePayload left r.1 := by
  unfold decodePayload
  rw [List.length_cons, decodeLoop]
  cases hp : decodePass (t :: rest) s with
  | fault f => rfl
  | refused f => rfl
  | next r =>
    simp only [andThen_next]
    rcases hr : r.2 with _ | left
    · rfl
    · have := (decodePass_decoded hp).2 left hr
      simp only [List.length_cons] at this
      dsimp only
      rw [decodeLoop_fuel rest.length (by omega)]

theorem decodePayload_decoded {p : List Byte} {s t : State} (h : decodePayload p s = .next t) : Decoded s t :=
  decodeLoop_decoded _ h

theorem decodePayload_completes {s : State} (h : HooksReturn s) (p : List Byte) : ∃ t, decodePayload p s = .next t :=
  decodeLoop_completes _ h p

/-! Encoding (R160) -/

theorem packet_length (s : State) (i : SlotIx) : (packet s i).length = 1 + (s.slot i).size.toNat := by
  simp [packet]; omega

theorem packet_congr {s t : State} {i : SlotIx} (hm : t.mem = s.mem) (hi : (t.slot i).id = (s.slot i).id)
    (hr : (t.slot i).region = (s.slot i).region) (hz : (t.slot i).size = (s.slot i).size) : packet t i = packet s i := by
  simp [packet, hi, hr, hz, bytesAt_of_mem hm]

theorem packetReads_congr {s t : State} {i : SlotIx} (hm : t.mem = s.mem)
    (hr : (t.slot i).region = (s.slot i).region) (hz : (t.slot i).size = (s.slot i).size) :
    packetReads t i = packetReads s i := by
  simp [packetReads, hr, hz, bytesAt_of_mem hm]

@[simp] theorem load_nil (s : State) : load s [] = 0 := rfl
@[simp] theorem load_cons (s : State) (i : SlotIx) (l : List SlotIx) :
    load s (i :: l) = 1 + (s.slot i).size.toNat + load s l := rfl
theorem load_append (s : State) (l m : List SlotIx) : load s (l ++ m) = load s l + load s m := by
  simp [load]

theorem load_congr {s t : State} {l : List SlotIx} (h : ∀ i ∈ l, (t.slot i).size = (s.slot i).size) :
    load t l = load s l := by
  induction l with
  | nil => rfl
  | cons i l ih =>
    rw [load_cons, load_cons, ih fun j hj => h j (List.mem_cons_of_mem _ hj), h i (List.mem_cons_self ..)]

theorem flatMap_packet_length (s : State) (l : List SlotIx) : (l.flatMap (packet s)).length = load s l := by
  induction l with
  | nil => rfl
  | cons i l ih => simp [packet_length, ih]

@[simp] theorem packet_fail (c : ErrorCode) (s : State) : packet (s.fail c) = packet s :=
  funext fun _ => packet_congr rfl rfl rfl rfl

@[simp] theorem packetReads_fail (c : ErrorCode) (s : State) : packetReads (s.fail c) = packetReads s :=
  funext fun _ => packetReads_congr rfl rfl rfl

@[simp] theorem isRead_memRead (a : Addr) (v : Byte) : (Event.memRead a v).isRead = true := rfl

theorem readEvents_isRead : ∀ (d : List Byte) (a : Addr), (readEvents a d).filter Event.isRead = readEvents a d
  | [], _ => rfl
  | b :: rest, a => by
    rw [readEvents, List.filter_cons_of_pos (isRead_memRead a b), readEvents_isRead rest]

theorem fits_iff {s : State} {i : SlotIx} : fits s i = true ↔ s.outCur + 1 + (s.slot i).size.toNat ≤ 62 := by
  have : stageLimit = 62 := rfl
  simp [fits, roomFor, this]

/-- What a pass over some slots does: it appends the sub-packets of the items it takes, in the order of the slots, and
marks their flags; it takes a wanted item exactly when there is room left after those taken before it. -/
structure Scanned (want : Slot → Bool) (mark : Slot → Slot) (l : List SlotIx) (s : State) (inc : List SlotIx)
    (r : State × List SlotIx) (added : List SlotIx) : Prop where
  incEq : r.2 = inc ++ added
  sub : added.Sublist l
  wanted : ∀ i ∈ added, want (s.slot i) = true ∧ i ∉ inc
  eq : r.1 = { s with slots := r.1.slots, outBuf := s.outBuf ++ added.flatMap (packet s), log := r.1.log }
  slot : ∀ i, r.1.slot i = if i ∈ added then mark (s.slot i) else s.slot i
  room : s.outCur ≤ 62 → r.1.outCur ≤ 62
  greedy : ∀ i ∈ l, want (s.slot i) = true → i ∉ inc →
    (i ∈ added ↔ s.outCur + load s (added.filter (· < i)) + 1 + (s.slot i).size.toNat ≤ 62)
  log : s.log <+: r.1.log
  reads : r.1.log.filter Event.isRead = s.log.filter Event.isRead ++ added.flatMap (packetReads s)

theorem scan_spec (want : Slot → Bool) (mark : Slot → Slot) : ∀ (l : List SlotIx), l.Pairwise (· < ·) →
    ∀ (s : State) (inc : List SlotIx), ∃ added, Scanned want mark l s inc (l.foldl (scanSlot want mark) (s, inc)) added
  | [], _, s, inc => ⟨[], by simp, by simp, by simp, by simp, by simp, fun h => h, by simp, List.prefix_refl _, by simp⟩
  | i :: l, hn, s, inc => by
    obtain ⟨hil, hl⟩ := List.pairwise_cons.mp hn
    rw [List.foldl_cons]
    by_cases hw : want (s.slot i) = true ∧ i ∉ inc
    · have hcond : (want ((s, inc).1.slot i) && !(s, inc).2.contains i) = true := by simp [hw.1, hw.2]
      by_cases hf : fits s i = true
      · -- the item is included
        have hstep : scanSlot want mark (s, inc) i =
            ((appendSlot i s).setSlot i (mark (s.slot i)), inc ++ [i]) := by
          unfold scanSlot; rw [if_pos hcond]; dsimp only; rw [if_pos hf]
        rw [hstep]
        obtain ⟨added, h⟩ := scan_spec want mark l hl ((appendSlot i s).setSlot i (mark (s.slot i))) (inc ++ [i])
        have hs1 : ∀ j, j ≠ i → ((appendSlot i s).setSlot i (mark (s.slot i))).slot j = s.slot j := fun j hj => by
          rw [slot_setSlot_ne _ _ hj, slot_appendSlot]
        have hlt : ∀ j ∈ added, i < j := fun j hj => hil j (h.sub.subset hj)
        have hmem : ∀ j ∈ added, j ≠ i := fun j hj => (hlt j hj).ne'
        have hpk : added.flatMap (packet ((appendSlot i s).setSlot i (mark (s.slot i)))) = added.flatMap (packet s) := by
          refine List.flatMap_congr fun j hj => packet_congr rfl ?_ ?_ ?_ <;> rw [hs1 j (hmem j hj)]
        have hrd : added.flatMap (packetReads ((appendSlot i s).setSlot i (mark (s.slot i)))) =
            added.flatMap (packetReads s) := by
          refine List.flatMap_congr fun j hj => packetReads_congr rfl ?_ ?_ <;> rw [hs1 j (hmem j hj)]
        have hcur : ((appendSlot i s).setSlot i (mark (s.slot i))).outCur = s.outCur + 1 + (s.slot i).size.toNat := by
          simp [State.outCur, itemBytes]; omega
        refine ⟨i :: added, ?_, h.sub.cons_cons i, ?_, ?_, ?_, ?_, ?_, ?_, ?_⟩
        · rw [h.incEq]; simp
        · intro j hj
          rcases List.mem_cons.mp hj with rfl | hj
          · exact hw
          · have := h.wanted j hj
            rw [hs1 j (hmem j hj)] at this
            exact ⟨this.1, fun hm => this.2 (by simp [hm])⟩
        · have e := h.eq
          rw [hpk] at e
          rw [e]
          simp [packet, itemBytes, State.setSlot, appendSlot, stage]
        · intro j
          rw [h.slot j]
          by_cases hji : j = i
          · subst hji
            have : j ∉ added := fun hm => hmem j hm rfl
            simp [this]
          · rw [hs1 j hji]
            simp [hji]
        · intro _
          exact h.room (by rw [hcur]; exact fits_iff.mp hf)
        · intro j hj hwj hij
          rcases List.mem_cons.mp hj with rfl | hjl
          · have h0 : added.filter (· < j) = [] := by
              rw [List.filter_eq_nil_iff]
              intro k hk
              have := hlt k hk
              simp [this.le]
            have := fits_iff.mp hf
            simp [h0]
            omega
          · have hji := (hil j hjl)
            have hj' : j ≠ i := hji.ne'
            have hg := h.greedy j hjl (by rw [hs1 j hj']; exact hwj) (by simp [hij, hj'])
            have hld : load ((appendSlot i s).setSlot i (mark (s.slot i))) (added.filter (· < j)) =
                load s (added.filter (· < j)) :=
              load_congr fun k hk => by rw [hs1 k (hmem k (List.mem_of_mem_filter hk))]
            rw [hs1 j hj', hcur, hld] at hg
            simp only [List.mem_cons, hj', false_or, List.filter_cons, hji, decide_true, if_true, load_cons]
            rw [hg]
            omega
        · exact (List.prefix_append _ _).trans h.log
        · rw [h.reads, hrd]
          simp [appendSlot, readEvents_isRead, packetReads, itemBytes]
      · -- it does not fit: deferred
        have hstep : scanSlot want mark (s, inc) i = (s.fail .defer, inc) := by
          unfold scanSlot; rw [if_pos hcond]; dsimp only; rw [if_neg hf]
        rw [hstep]
        obtain ⟨added, h⟩ := scan_spec want mark l hl (s.fail .defer) inc
        have hlt : ∀ j ∈ added, i < j := fun j hj => hil j (h.sub.subset hj)
        have hia : i ∉ added := fun hm => (hlt i hm).ne rfl
        refine ⟨added, h.incEq, h.sub.cons i, h.wanted, ?_, h.slot, h.room, ?_, (List.prefix_append _ _).trans h.log, ?_⟩
        · have e := h.eq
          rw [packet_fail] at e
          exact e
        · intro j hj hwj hij
          rcases List.mem_cons.mp hj with rfl | hj
          · have h0 : added.filter (· < j) = [] := by
              rw [List.filter_eq_nil_iff]
              intro k hk
              have := hlt k hk
              simp [this.le]
            have : ¬ s.outCur + 1 + (s.slot j).size.toNat ≤ 62 := fun hle => hf (fits_iff.mpr hle)
            simp only [hia, h0, load_nil, false_iff]
            omega
          · exact h.greedy j hj hwj hij
        · have e := h.reads
          have h1 : (s.fail .defer).log.filter Event.isRead = s.log.filter Event.isRead := by
            simp [Event.isRead]
          rw [h1, packetReads_fail] at e
          exact e
    · have hstep : scanSlot want mark (s, inc) i = (s, inc) := by
        unfold scanSlot
        rw [if_neg]
        simp only [Bool.and_eq_true, Bool.not_eq_true', List.contains_eq_mem, decide_eq_false_iff_not]
        exact hw
      rw [hstep]
      obtain ⟨added, h⟩ := scan_spec want mark l hl s inc
      refine ⟨added, h.incEq, h.sub.cons i, h.wanted, h.eq, h.slot, h.room, ?_, h.log, h.reads⟩
      intro j hj hwj hij
      rcases List.mem_cons.mp hj with rfl | hj
      · exact absurd ⟨hwj, hij⟩ hw
      · exact h.greedy j hj hwj hij

theorem scanPass_spec (want : Slot → Bool) (mark : Slot → Slot) (s : State) (inc : List SlotIx) :
    ∃ r added, scanPass want mark (s, inc) = (r, inc ++ added) ∧
      Scanned want mark slotIndices s inc (r, inc ++ added) added := by
  obtain ⟨added, h⟩ := scan_spec want mark slotIndices slotIndices_pairwise s inc
  have e : scanPass want mark (s, inc) = ((scanPass want mark (s, inc)).1, inc ++ added) := Prod.ext rfl h.incEq
  refine ⟨_, added, e, ?_⟩
  rw [← e]
  exact h

/-- A pass over all slots takes what R160 says. -/
theorem Scanned.taken {want : Slot → Bool} {mark : Slot → Slot} {s : State} {inc : List SlotIx}
    {r : State × List SlotIx} {added : List SlotIx} (h : Scanned want mark slotIndices s inc r added) :
    TakenInOrder s s.outCur (fun i => want (s.slot i) = true ∧ i ∉ inc) added :=
  ⟨slotIndices_pairwise.sublist h.sub, fun i =>
    ⟨fun hi => ⟨h.wanted i hi, (h.greedy i (mem_slotIndices i) (h.wanted i hi).1 (h.wanted i hi).2).mp hi⟩,
     fun hi => (h.greedy i (mem_slotIndices i) hi.1.1 hi.1.2).mpr hi.2⟩⟩

theorem Scanned.mem {want : Slot → Bool} {mark : Slot → Slot} {l : List SlotIx} {s : State} {inc : List SlotIx}
    {r : State × List SlotIx} {added : List SlotIx} (h : Scanned want mark l s inc r added) : r.1.mem = s.mem := by
  have e := congrArg State.mem h.eq
  exact e

theorem Scanned.outCur {want : Slot → Bool} {mark : Slot → Slot} {l : List SlotIx} {s : State} {inc : List SlotIx}
    {r : State × List SlotIx} {added : List SlotIx} (h : Scanned want mark l s inc r added) :
    r.1.outCur = s.outCur + load s added := by
  rw [h.eq]; simp only [State.outCur, List.length_append, flatMap_packet_length]

theorem TakenInOrder.congr {s t : State} {cur cur' : Nat} {p q : SlotIx → Prop} {l : List SlotIx}
    (h : TakenInOrder t cur p l) (hc : cur = cur') (hp : ∀ i, p i ↔ q i)
    (hz : ∀ i, (t.slot i).size = (s.slot i).size) : TakenInOrder s cur' q l := by
  subst hc
  refine ⟨h.1, fun i => ?_⟩
  rw [h.2 i, hp i, hz i, load_congr (s := s) (t := t) fun j _ => hz j]

/-- What EncodePayload does: `a`, `b`, `c` are the slots taken by the passes A, B1, B2 (R160). -/
structure Encoded (due : Bool) (s t : State) (a b c : List SlotIx) : Prop where
  passA : TakenInOrder s s.outCur (fun i => (s.slot i).used = true ∧ (s.slot i).toSend = true) a
  noB : due = false → b = [] ∧ c = []
  passB1 : due = true → TakenInOrder s (s.outCur + load s a)
    (fun i => (s.slot i).used = true ∧ (s.slot i).autoSend = true ∧ (s.slot i).wasAutoSent = false ∧ i ∉ a) b
  passB2 : due = true → TakenInOrder s (s.outCur + load s a + load s b)
    (fun i => (s.slot i).used = true ∧ (s.slot i).autoSend = true ∧ (s.slot i).wasAutoSent = true ∧ i ∉ a) c
  eq : t = { s with slots := t.slots, outBuf := s.outBuf ++ (a ++ b ++ c).flatMap (packet s), log := t.log }
  slot : ∀ i, t.slot i = { s.slot i with
    toSend := (s.slot i).toSend && !decide (i ∈ a)
    wasAutoSent := ((s.slot i).wasAutoSent || due && ((s.slot i).autoSend && decide (i ∈ a) || decide (i ∈ b))) &&
      !(due && decide (∀ j, (s.slot j).used = true → (s.slot j).autoSend = true →
        (s.slot j).wasAutoSent = true ∨ j ∈ a ∨ j ∈ b)) }
  room : s.outCur ≤ 62 → t.outCur ≤ 62
  log : s.log <+: t.log
  reads : t.log.filter Event.isRead = s.log.filter Event.isRead ++ (a ++ b ++ c).flatMap (packetReads s)

/-- The three passes of an autosend cycle and the end of a rotation, from what each pass does. -/
theorem encoded_auto {s s1 s2 s3 : State} {a b c inc : List SlotIx}
    (ha : Scanned wantA (markA true) slotIndices s [] (s1, a) a)
    (hb : Scanned wantB1 markB1 slotIndices s1 a (s2, a ++ b) b)
    (hc : Scanned wantB2 id slotIndices s2 (a ++ b) (s3, inc) c) : Encoded true s (passB3 s3) a b c := by
  have hA : TakenInOrder s s.outCur (fun i => (s.slot i).used = true ∧ (s.slot i).toSend = true) a :=
    ha.taken.congr rfl (fun i => by simp [wantA]) (fun _ => rfl)
  have hs1 : ∀ i, s1.slot i = if i ∈ a then markA true (s.slot i) else s.slot i := ha.slot
  have hs2 : ∀ i, s2.slot i = if i ∈ b then markB1 (s1.slot i) else s1.slot i := hb.slot
  have k1 : ∀ i, (s1.slot i).size = (s.slot i).size := fun i => by rw [hs1 i]; split <;> rfl
  have k2 : ∀ i, (s2.slot i).size = (s.slot i).size := fun i => by
    rw [hs2 i]; split
    · exact k1 i
    · exact k1 i
  have hB : TakenInOrder s (s.outCur + load s a) (fun i => (s.slot i).used = true ∧ (s.slot i).autoSend = true ∧
      (s.slot i).wasAutoSent = false ∧ i ∉ a) b := by
    refine hb.taken.congr ha.outCur (fun i => ?_) k1
    rw [hs1 i]
    by_cases hi : i ∈ a <;> simp [hi, wantB1, and_assoc]
  have hmemb (i : SlotIx) (hi : i ∈ b) := ((hB.2 i).mp hi).1
  have hslot2 : ∀ i, s2.slot i = { s.slot i with
      toSend := (s.slot i).toSend && !decide (i ∈ a)
      wasAutoSent := (s.slot i).wasAutoSent || ((s.slot i).autoSend && decide (i ∈ a) || decide (i ∈ b)) } := by
    intro i
    rw [hs2 i, hs1 i]
    by_cases hib : i ∈ b
    · have := hmemb i hib
      simp [hib, this.2.2.2, markB1]
    · by_cases hia : i ∈ a <;> simp [hia, hib, markA]
  have hC : TakenInOrder s (s.outCur + load s a + load s b) (fun i => (s.slot i).used = true ∧
      (s.slot i).autoSend = true ∧ (s.slot i).wasAutoSent = true ∧ i ∉ a) c := by
    refine hc.taken.congr ?_ (fun i => ?_) k2
    · rw [hb.outCur, ha.outCur, load_congr fun i _ => k1 i]
    · rw [hslot2 i]
      by_cases hib : i ∈ b
      · have := hmemb i hib
        simp [hib, this.2.2.1]
      · by_cases hia : i ∈ a <;> simp [hia, hib, wantB2, and_assoc]
  have hslot3 : ∀ i, s3.slot i = s2.slot i := fun i => (hc.slot i).trans (by split <;> rfl)
  have ham : s1.mem = s.mem := ha.mem
  have hbm : s2.mem = s.mem := hb.mem.trans ham
  have k1' : packet s1 = packet s := funext fun i => by
    refine packet_congr ham ?_ ?_ (k1 i) <;> (rw [hs1 i]; split <;> rfl)
  have k2' : packet s2 = packet s := funext fun i => by
    refine packet_congr hbm ?_ ?_ (k2 i) <;> rw [hslot2 i]
  have q1' : packetReads s1 = packetReads s := funext fun i => by
    refine packetReads_congr ham ?_ (k1 i); rw [hs1 i]; split <;> rfl
  have q2' : packetReads s2 = packetReads s := funext fun i => by
    refine packetReads_congr hbm ?_ (k2 i); rw [hslot2 i]
  have heq3 : s3 = { s with slots := s3.slots, outBuf := s.outBuf ++ (a ++ b ++ c).flatMap (packet s), log := s3.log } := by
    have e1 : s1 = { s with slots := s1.slots, outBuf := s.outBuf ++ a.flatMap (packet s), log := s1.log } := ha.eq
    have e2 : s2 = { s1 with slots := s2.slots, outBuf := s1.outBuf ++ b.flatMap (packet s1), log := s2.log } := hb.eq
    have e3 : s3 = { s2 with slots := s3.slots, outBuf := s2.outBuf ++ c.flatMap (packet s2), log := s3.log } := hc.eq
    rw [k2', e2, k1', e1] at e3
    simpa [List.flatMap_append] using e3
  have hrot : rotationDone s3 = decide (∀ j, (s.slot j).used = true → (s.slot j).autoSend = true →
      (s.slot j).wasAutoSent = true ∨ j ∈ a ∨ j ∈ b) := by
    rw [Bool.eq_iff_iff, rotationDone_iff, decide_eq_true_iff]
    refine forall_congr' fun j => ?_
    rw [hslot3, hslot2]
    dsimp only
    refine imp_congr Iff.rfl (forall_congr' fun hau => ?_)
    simp [hau]
  refine ⟨hA, nofun, fun _ => hB, fun _ => hC, ?_, ?_, ?_, ?_, ?_⟩
  · rw [passB3]
    split
    · show clearRotation s3 = { s with slots := (clearRotation s3).slots, outBuf := _, log := s3.log }
      conv_lhs => rw [heq3]
      conv_rhs => rw [heq3]
      rfl
    · exact heq3
  · intro i
    rw [passB3, hrot]
    split
    · rename_i h
      rw [slot_clearRotation, hslot3, hslot2]
      simp [h]
    · rename_i h
      rw [hslot3, hslot2]
      simp only [Bool.not_eq_true] at h
      simp [h]
  · intro h
    have h3 : s3.outCur ≤ 62 := hc.room (hb.room (ha.room h))
    rw [passB3]; split <;> exact h3
  · have h3 : s.log <+: s3.log := ha.log.trans (hb.log.trans hc.log)
    rw [passB3]; split <;> exact h3
  · have h3 : s3.log.filter Event.isRead = _ := hc.reads
    rw [hb.reads, ha.reads, q1', q2'] at h3
    rw [passB3]
    split <;> simpa [List.flatMap_append] using h3

theorem encodePayload_spec (due : Bool) (s : State) : ∃ a b c, Encoded due s (encodePayload due s) a b c := by
  obtain ⟨s1, a, h1, ha⟩ := scanPass_spec wantA (markA due) s []
  rw [List.nil_append] at h1 ha
  cases due with
  | false =>
    have hA : TakenInOrder s s.outCur (fun i => (s.slot i).used = true ∧ (s.slot i).toSend = true) a :=
      ha.taken.congr rfl (fun i => by simp [wantA]) (fun _ => rfl)
    have hr : encodePayload false s = s1 := by rw [encodePayload, h1]; rfl
    refine ⟨a, [], [], hr ▸ ⟨hA, fun _ => ⟨rfl, rfl⟩, nofun, nofun, ?_, ?_, ha.room, ha.log, ?_⟩⟩
    · simpa using ha.eq
    · intro i
      refine (ha.slot i).trans ?_
      by_cases hi : i ∈ a <;> simp [hi, markA]
    · simpa using ha.reads
  | true =>
    obtain ⟨s2, b, h2, hb⟩ := scanPass_spec wantB1 markB1 s1 a
    obtain ⟨s3, c, h3, hc⟩ := scanPass_spec wantB2 id s2 (a ++ b)
    have hr : encodePayload true s = passB3 s3 := by
      rw [encodePayload, h1, if_pos rfl, passB, h2, h3]
    exact ⟨a, b, c, hr ▸ encoded_auto ha hb hc⟩

end Sys2Proof.Machine
end

