-- ==== Sys2Proof/Laws/Reader.lean ====
section
/-! SUPPORT. The Reader: what a pass and a whole phase can do, that they end, and how the bytes at the head of the buffer
decide (spec/43_reader.md R170 to R187). -/

namespace Sys2Proof.Machine

/-- What the Reader may do: bytes leave the front of the buffer; `lastRemoteSerial`, `gotFirst`, the accumulator,
memory, the `Received` flags, the hook answers and the log change, nothing else (R187). -/
structure Reads (s t : State) : Prop where
  eq : t = { s with slots := t.slots, lastRemoteSerial := t.lastRemoteSerial, gotFirst := t.gotFirst, inBuf := t.inBuf,
                    crcAcc := t.crcAcc, mem := t.mem, hookAnswers := t.hookAnswers, log := t.log }
  slot : ∀ i, t.slot i = { s.slot i with received := (t.slot i).received }
  sets : ∀ i, (s.slot i).received = true → (t.slot i).received = true
  free : ∀ i, (s.slot i).used = false → t.slot i = s.slot i
  got : s.gotFirst = true → t.gotFirst = true
  wf : s.mem.wf = true → t.mem.wf = true
  inBuf : t.inBuf <:+ s.inBuf
  hooks : t.hookAnswers <:+ s.hookAnswers
  log : s.log <+: t.log
  outside : HooksWriteNothing s → ∀ a, Outside s a → t.byteAt a = s.byteAt a

theorem Reads.refl (s : State) : Reads s s where
  eq := rfl
  slot _ := rfl
  sets _ h := h
  free _ _ := rfl
  got h := h
  wf h := h
  inBuf := List.suffix_refl _
  hooks := List.suffix_refl _
  log := List.prefix_refl _
  outside _ _ _ := rfl

theorem Reads.outside_iff {s t : State} (h : Reads s t) (a : Addr) : Outside t a ↔ Outside s a := by
  unfold Outside
  refine forall_congr' fun i => ?_
  rw [h.slot i]

theorem Reads.hooksReturn {s t : State} (h : Reads s t) (hs : HooksReturn s) : HooksReturn t :=
  fun hm => hs (h.hooks.subset hm)

theorem Reads.trans {s t u : State} (h : Reads s t) (h' : Reads t u) : Reads s u where
  eq := by
    have e := h'.eq
    rw [h.eq] at e
    exact e
  slot i := by rw [h'.slot i, h.slot i]
  sets i hr := h'.sets i (h.sets i hr)
  free i hu := (h'.free i (by rw [h.slot i]; exact hu)).trans (h.free i hu)
  got hg := h'.got (h.got hg)
  wf hw := h'.wf (h.wf hw)
  inBuf := h'.inBuf.trans h.inBuf
  hooks := h'.hooks.trans h.hooks
  log := h.log.trans h'.log
  outside hw a ha := (h'.outside (fun x hx => hw x (h.hooks.subset hx)) a ((h.outside_iff a).mpr ha)).trans
    (h.outside hw a ha)

/-- What decoding may do, the Reader may do. -/
theorem Decoded.reads {s t : State} (h : Decoded s t) : Reads s t where
  eq := by rw [h.eq]
  slot := h.slot
  sets := h.sets
  free := h.free
  got hg := by rw [h.eq]; exact hg
  wf := h.wf
  inBuf := by rw [h.eq]
  hooks := h.hooks
  log := h.log
  outside := h.outside

theorem Decoded.inBuf {s t : State} (h : Decoded s t) : t.inBuf = s.inBuf := by
  have e := congrArg State.inBuf h.eq
  exact e

theorem dropBytes_reads (m : Nat) (s : State) : Reads s (dropBytes m s) where
  eq := rfl
  slot _ := rfl
  sets _ h := h
  free _ _ := rfl
  got h := h
  wf h := h
  inBuf := List.drop_suffix m s.inBuf
  hooks := List.suffix_refl _
  log := List.prefix_refl _
  outside _ _ _ := rfl

theorem crcAcc_reads (c : Half) (s : State) : Reads s { s with crcAcc := c } where
  eq := rfl
  slot _ := rfl
  sets _ h := h
  free _ _ := rfl
  got h := h
  wf h := h
  inBuf := List.suffix_refl _
  hooks := List.suffix_refl _
  log := List.prefix_refl _
  outside _ _ _ := rfl

/-! The primitives (R172) -/

/-- `Discard(m)` tells the hook and then drops the bytes. -/
theorem discardBytes_eq_next {m : Nat} {s t : State} (h : discardBytes m s = .next t) :
    ∃ u, notifyDiscard (s.inBuf.take m) s = .next u ∧ Decoded s u ∧ t = dropBytes m u ∧ Reads s t ∧
      t.inBuf = s.inBuf.drop m := by
  obtain ⟨u, hu, e⟩ := andThen_eq_next.mp h
  cases e
  have hd := notifyDiscard_decoded hu
  refine ⟨u, hu, hd, rfl, hd.reads.trans (dropBytes_reads m u), ?_⟩
  simp [hd.inBuf]

theorem discardBytes_completes {s : State} (h : HooksReturn s) (m : Nat) : ∃ t, discardBytes m s = .next t := by
  obtain ⟨u, hu⟩ := notifyDiscard_completes h (s.inBuf.take m)
  exact ⟨dropBytes m u, by rw [discardBytes, hu]; rfl⟩

/-! Acceptance (R180) -/

theorem acceptHeader_reads (f l : Byte) (p : List Byte) (s : State) : Reads s (acceptHeader f l p s) where
  eq := rfl
  slot _ := rfl
  sets _ h := h
  free _ _ := rfl
  got _ := rfl
  wf h := h
  inBuf := List.suffix_refl _
  hooks := List.suffix_refl _
  log := List.prefix_append _ _
  outside _ _ _ := rfl

theorem acceptFrame_eq_next {f l : Byte} {p : List Byte} {s t : State} (h : acceptFrame f l p s = .next t) :
    ∃ u, decodePayload p (acceptHeader f l p s) = .next u ∧ Decoded (acceptHeader f l p s) u ∧
      t = dropBytes (7 + p.length) u ∧ Reads s t ∧ t.inBuf = s.inBuf.drop (7 + p.length) ∧
      t.lastRemoteSerial = f ∧ t.gotFirst = true := by
  obtain ⟨u, hu, e⟩ := andThen_eq_next.mp h
  cases e
  have hm : Config.engine.hdrLen + p.length + Config.engine.crcLen = 7 + p.length := by
    rw [Config.hdrLen_eq, Config.crcLen_eq]
    omega
  rw [hm]
  have hd := decodePayload_decoded hu
  have e1 := congrArg State.lastRemoteSerial hd.eq
  have e2 := congrArg State.gotFirst hd.eq
  refine ⟨u, hu, hd, rfl, ((acceptHeader_reads f l p s).trans hd.reads).trans (dropBytes_reads _ u), ?_, e1, e2⟩
  rw [dropBytes_inBuf, hd.inBuf]
  rfl

theorem acceptFrame_completes {s : State} (h : HooksReturn s) (f l : Byte) (p : List Byte) :
    ∃ t, acceptFrame f l p s = .next t := by
  obtain ⟨u, hu⟩ := decodePayload_completes (s := acceptHeader f l p s) h p
  exact ⟨_, by rw [acceptFrame, hu]; rfl⟩

/-! One pass (R173) -/

/-- What one pass can do: nothing more, at rest; or it removes at least one byte (R184). -/
theorem readerPass_eq_next {s : State} {r : Option State} (h : readerPass s = .next r) :
    (r = none ∧ ∃ st, decodeWire s.inBuf = .wait st ∧ st ≠ .dispatch) ∨
    ∃ t, r = some t ∧ Reads s t ∧ t.inCur < s.inCur := by
  have hcur : s.inCur = s.inBuf.length := rfl
  unfold readerPass at h
  rcases decodeWire_spec s.inBuf with ⟨st, e, hst, _⟩ | ⟨e, hl⟩ | ⟨e, hl⟩ | ⟨len, c, e, hlen, hl⟩ | ⟨f, l, p, rest, e, hp, hb⟩
  · rw [e] at h
    cases h
    exact .inl ⟨rfl, st, e, hst⟩
  · rw [e] at h
    cases h
    refine .inr ⟨_, rfl, (Decoded.emit _ s).reads.trans (dropBytes_reads _ _), ?_⟩
    simp [State.inCur]
    omega
  · rw [e] at h
    obtain ⟨t, ht, e'⟩ := andThen_eq_next.mp h
    cases e'
    obtain ⟨u, _, _, _, hr, hb⟩ := discardBytes_eq_next ht
    refine .inr ⟨t, rfl, (Decoded.emit _ s).reads.trans hr, ?_⟩
    simp [State.inCur, hb]
    omega
  · rw [e] at h
    obtain ⟨t, ht, e'⟩ := andThen_eq_next.mp h
    cases e'
    obtain ⟨u, _, _, _, hr, hb⟩ := discardBytes_eq_next ht
    refine .inr ⟨t, rfl, ((crcAcc_reads c s).trans (Decoded.emit _ _).reads).trans hr, ?_⟩
    simp [State.inCur, hb, Config.hdrLen_eq, Config.crcLen_eq]
    omega
  · rw [e] at h
    obtain ⟨t, ht, e'⟩ := andThen_eq_next.mp h
    cases e'
    obtain ⟨u, _, _, _, hr, hb', _⟩ := acceptFrame_eq_next ht
    refine .inr ⟨t, rfl, hr, ?_⟩
    simp [State.inCur, hb', hb, encodeFrame_length]

theorem readerPass_completes {s : State} (h : HooksReturn s) : ∃ r, readerPass s = .next r := by
  unfold readerPass
  cases decodeWire s.inBuf with
  | wait st => exact ⟨_, rfl⟩
  | badMagic => exact ⟨_, rfl⟩
  | badLength =>
    obtain ⟨t, ht⟩ := discardBytes_completes (s := s.fail .len) h s.inCur
    exact ⟨some t, by simp only [ht, andThen_next]⟩
  | badChecksum len c =>
    obtain ⟨t, ht⟩ := discardBytes_completes (s := ({ s with crcAcc := c } : State).fail .crc) h
      (Config.engine.hdrLen + len + Config.engine.crcLen)
    exact ⟨some t, by simp only [ht, andThen_next]⟩
  | frame f l p =>
    obtain ⟨t, ht⟩ := acceptFrame_completes h f l p
    exact ⟨some t, by simp only [ht, andThen_next]⟩

/-- At rest a pass does nothing. -/
theorem readerPass_rest {s : State} (h : readerState s ≠ .dispatch) : readerPass s = .next none := by
  obtain ⟨st, hst, -⟩ := readerState_rest.mp h
  rw [readerPass, hst]

/-! The loop (R173, R184) -/

theorem readerPhase_eq (s : State) : readerPhase s = parse (fill s) := rfl

/-- More passes than buffered bytes change nothing (R184). -/
theorem readerLoop_fuel : ∀ (n : Nat) {s : State}, s.inCur ≤ n → readerLoop n s = parse s
  | 0, s, h => by
    have : s.inCur = 0 := by omega
    rw [parse, this]
  | n + 1, s, h => by
    unfold parse
    rcases hc : s.inCur with _ | m
    · have hb : s.inBuf = [] := List.eq_nil_of_length_eq_zero hc
      have hp : readerPass s = .next none := by rw [readerPass, hb]; rfl
      simp only [readerLoop, hp, andThen_next]
    · rw [readerLoop, readerLoop]
      cases hp : readerPass s with
      | fault f => rfl
      | refused f => rfl
      | next r =>
        simp only [andThen_next]
        rcases readerPass_eq_next hp with ⟨rfl, _⟩ | ⟨t, rfl, _, hlt⟩
        · rfl
        · have h1 : t.inCur ≤ n := by omega
          have h2 : t.inCur ≤ m := by omega
          have h3 : m < n + 1 := by omega
          dsimp only
          rw [readerLoop_fuel n h1, readerLoop_fuel m h2]
  termination_by n => n

/-- The loop is one pass and then the loop again. -/
theorem parse_step (s : State) : parse s = andThen (readerPass s) fun r =>
    match r with
    | none => .next s
    | some t => parse t := by
  rw [← readerLoop_fuel (s.inCur + 1) (Nat.le_succ _), readerLoop]
  cases hp : readerPass s with
  | fault f => rfl
  | refused f => rfl
  | next r =>
    simp only [andThen_next]
    rcases readerPass_eq_next hp with ⟨rfl, _⟩ | ⟨t, rfl, _, hlt⟩
    · rfl
    · exact readerLoop_fuel s.inCur (by omega)

theorem parse_rest {s : State} (h : readerState s ≠ .dispatch) : parse s = .next s := by
  rw [parse_step, readerPass_rest h]
  rfl

/-- What the parsing loop can do, and that it ends at rest (R185). -/
theorem readerLoop_eq_next : ∀ (n : Nat) {s t : State}, s.inCur ≤ n → readerLoop n s = .next t →
    Reads s t ∧ readerState t ≠ .dispatch
  | 0, s, t, hn, h => by
    cases h
    have hb : s.inBuf = [] := List.eq_nil_of_length_eq_zero (by simpa [State.inCur] using hn)
    exact ⟨Reads.refl s, readerState_rest.mpr ⟨.scanning, by rw [hb]; rfl, by decide⟩⟩
  | n + 1, s, t, hn, h => by
    obtain ⟨r, hr, e⟩ := andThen_eq_next.mp h
    rcases readerPass_eq_next hr with ⟨rfl, hst⟩ | ⟨u, rfl, hu, hlt⟩
    · cases e
      exact ⟨Reads.refl s, readerState_rest.mpr hst⟩
    · obtain ⟨h1, h2⟩ := readerLoop_eq_next n (by omega) e
      exact ⟨hu.trans h1, h2⟩

theorem parse_eq_next {s t : State} (h : parse s = .next t) : Reads s t ∧ readerState t ≠ .dispatch :=
  readerLoop_eq_next _ (Nat.le_refl _) h

theorem readerLoop_completes : ∀ (n : Nat) {s : State}, HooksReturn s → ∃ t, readerLoop n s = .next t
  | 0, s, _ => ⟨s, rfl⟩
  | n + 1, s, h => by
    obtain ⟨r, hr⟩ := readerPass_completes h
    rw [readerLoop, hr, andThen_next]
    rcases readerPass_eq_next hr with ⟨rfl, _⟩ | ⟨t, rfl, ht, _⟩
    · exact ⟨s, rfl⟩
    · exact readerLoop_completes n (ht.hooksReturn h)

/-! The phase (R173) -/

theorem readerPhase_completes {s : State} (h : HooksReturn s) : ∃ t, readerPhase s = .next t :=
  readerLoop_completes _ (s := fill s) h

/-- What a Reader phase can do: the fill, and then what the parsing loop does to the filled state. -/
theorem readerPhase_eq_next {s t : State} (h : readerPhase s = .next t) :
    Reads (fill s) t ∧ readerState t ≠ .dispatch := parse_eq_next h

/-- `Fill` keeps the buffer within its 64 bytes (R172, R34). -/
theorem fill_inCur {s : State} (h : s.inCur ≤ 64) : (fill s).inCur ≤ 64 := by
  have h1 : (delivered (Config.engine.bufSize - s.inCur) s).length ≤ Config.engine.bufSize - s.inCur := by
    simp only [delivered, List.length_take, chosenCount]
    split <;> omega
  simp only [State.inCur, fill_inBuf, List.length_append, Config.bufSize_eq] at *
  omega

end Sys2Proof.Machine
end

