-- ==== Sys2Proof/Laws/Writer.lean ====
section
/-! SUPPORT. The Writer: what constructing a frame, a transmission attempt and a whole phase can do, and that they keep the
invariant of the engine registers (spec/44_writer.md R190 to R210). -/

namespace Sys2Proof.Machine

/-! The serial number (R195) -/

theorem nextSerial_ne_zero (n : Byte) : nextSerial n ≠ 0 := by
  unfold nextSerial
  split
  · decide
  · rename_i h
    intro e
    apply h
    have := congrArg (· - 1) e
    simpa using this

/-! Pacing (R205) -/

theorem pace_eq (b : Nat) : pace b = 500 + 7500 * b / 64 := rfl

theorem pace_mono {a b : Nat} (h : a ≤ b) : pace a ≤ pace b := by
  rw [pace_eq, pace_eq]
  omega

theorem elapsed_eq (now : Time) (s : State) : elapsed now s = (now - s.lastAutoSendTime).toNat :=
  Nat.mod_eq_of_lt (now - s.lastAutoSendTime).isLt

/-- An autosend cycle is due when the elapsed time has reached the threshold (R194). -/
theorem autoDue_eq (now : Time) (s : State) :
    autoDue now s = decide (500 + 7500 * s.backlog / 64 ≤ (now - s.lastAutoSendTime).toNat) := by
  rw [autoDue, elapsed_eq, pace_eq]

/-- For every admissible `PACE`: no autosend cycle is due before `AUTOSEND_MIN`, and one is from `AUTOSEND_MAX` on
(R205, R207). -/
theorem autoDue_bounds (cfg : Config.Params) {now : Time} {s : State} (h : s.backlog ≤ cfg.bufSize) :
    (autoDue now s cfg = true → cfg.autosendMin ≤ elapsed now s cfg) ∧
    (cfg.autosendMax ≤ elapsed now s cfg → autoDue now s cfg = true) := by
  obtain ⟨hlo, hhi⟩ := cfg.paceRange s.backlog h
  exact ⟨fun hd => hlo.trans (of_decide_eq_true hd), fun he => decide_eq_true (hhi.trans he)⟩

/-! Transmission (R200, R206) -/

theorem chosenCount_le (counts : List Nat) (limit : Nat) : chosenCount counts limit ≤ limit := by
  unfold chosenCount
  split
  · exact Nat.le_refl _
  · exact Nat.min_le_right _ _

theorem acceptedCount_le (bytes : List Byte) (s : State) : acceptedCount bytes s ≤ bytes.length := chosenCount_le _ _

/-- What an attempt can do: the frame is wholly accepted and the buffer is free again, or it stays held (R200). -/
theorem txAttempt_cases (s : State) :
    (s.txPos + acceptedCount (unsent s) s = s.outCur ∧
      txAttempt s = { transportWrite (unsent s) s with txPending := false, txPos := 0, outBuf := s.outBuf.take 5 }) ∨
    (s.txPos + acceptedCount (unsent s) s ≠ s.outCur ∧
      txAttempt s = { transportWrite (unsent s) s with txPos := s.txPos + acceptedCount (unsent s) s }) := by
  unfold txAttempt
  by_cases h : s.txPos + acceptedCount (unsent s) s = s.outCur
  · exact .inl ⟨h, by simp only [if_pos h]; rfl⟩
  · exact .inr ⟨h, by simp only [if_neg h]⟩

theorem unsent_length (s : State) : (unsent s).length = s.outCur - s.txPos := by
  simp [unsent, State.outCur]

/-! Frame construction (R195 to R198) -/

theorem drop5_append {a b : List Byte} (h : 5 ≤ a.length) : (a ++ b).drop 5 = a.drop 5 ++ b := by
  rw [List.drop_append_of_le_length h]

/-- What constructing a frame does: `a`, `b`, `c` are the slots of the passes of EncodePayload, `u` the state after it. -/
theorem constructFrame_spec (now : Time) (due : Bool) {s : State} (h5 : 5 ≤ s.outCur) :
    ∃ a b c u, Encoded due (advanceSerial s) u a b c ∧
      u.staged = s.staged ++ (a ++ b ++ c).flatMap (packet s) ∧
      u.outCur = 5 + u.staged.length ∧
      constructFrame now due s =
        { s with
          slots := u.slots, mySerial := nextSerial s.mySerial,
          lastAutoSendTime := if due then now else s.lastAutoSendTime,
          backlog := if due then 0 else s.backlog,
          outBuf := encodeFrame (nextSerial s.mySerial) s.lastRemoteSerial u.staged,
          txPending := true, txPos := 0, crcAcc := frameChecksum u.staged, log := u.log } := by
  obtain ⟨a, b, c, hu⟩ := encodePayload_spec due (advanceSerial s)
  have hpk : packet (advanceSerial s) = packet s := funext fun _ => packet_congr rfl rfl rfl rfl
  generalize hd : encodePayload due (advanceSerial s) = u at hu
  have he := hu.eq
  have hb : u.outBuf = s.outBuf ++ (a ++ b ++ c).flatMap (packet s) := by
    have e := congrArg State.outBuf he
    rw [hpk] at e
    exact e
  have hm : u.mySerial = nextSerial s.mySerial := by
    have e := congrArg State.mySerial he
    exact e
  have hr : u.lastRemoteSerial = s.lastRemoteSerial := by
    have e := congrArg State.lastRemoteSerial he
    exact e
  refine ⟨a, b, c, u, hu, ?_, ?_, ?_⟩
  · rw [State.staged, hb]; exact drop5_append h5
  · have h5' : 5 ≤ s.outBuf.length := h5
    simp only [State.outCur, State.staged, hb, List.length_append, List.length_drop, Config.hdrLen_eq]
    omega
  · unfold constructFrame
    rw [hd]
    have hs : sealFrame u =
        { u with outBuf := encodeFrame u.mySerial u.lastRemoteSerial u.staged
                 crcAcc := frameChecksum u.staged } := rfl
    rw [hs, hm, hr]
    generalize encodeFrame (nextSerial s.mySerial) s.lastRemoteSerial u.staged = o
    generalize frameChecksum u.staged = k
    rw [he]
    cases due <;> rfl

/-- The serial number of a frame under construction (R195). -/
theorem constructFrame_mySerial (now : Time) (due : Bool) (s : State) :
    (constructFrame now due s).mySerial = nextSerial s.mySerial := by
  obtain ⟨a, b, c, h⟩ := encodePayload_spec due (advanceSerial s)
  have e := congrArg State.mySerial h.eq
  unfold constructFrame
  generalize encodePayload due (advanceSerial s) = u at e
  cases due <;> exact e

/-- An autosend cycle is dated; any other frame leaves the date (R198). -/
theorem constructFrame_lastAutoSendTime (now : Time) (due : Bool) (s : State) :
    (constructFrame now due s).lastAutoSendTime = if due then now else s.lastAutoSendTime := by
  obtain ⟨a, b, c, h⟩ := encodePayload_spec due (advanceSerial s)
  have e := congrArg State.lastAutoSendTime h.eq
  unfold constructFrame
  generalize encodePayload due (advanceSerial s) = u at e
  cases due
  · exact e
  · rfl

/-- A frame just constructed is held (R198). -/
theorem constructFrame_txPending (now : Time) (due : Bool) (s : State) : (constructFrame now due s).txPending = true := by
  unfold constructFrame
  generalize encodePayload due (advanceSerial s) = u
  cases due <;> rfl

/-- What an attempt leaves alone of the registers a frame is built from (R200, R201). -/
theorem txAttempt_keeps (s : State) : (txAttempt s).mySerial = s.mySerial ∧
    (txAttempt s).lastAutoSendTime = s.lastAutoSendTime ∧ (txAttempt s).backlog = s.backlog ∧
    (txAttempt s).slots = s.slots := by
  rcases txAttempt_cases s with ⟨_, e⟩ | ⟨_, e⟩ <;> rw [e] <;> exact ⟨rfl, rfl, rfl, rfl⟩

/-- The bytes an attempt hands to the transport (R200). -/
theorem txAttempt_txSent (s : State) :
    (txAttempt s).txSent = s.txSent ++ (unsent s).take (acceptedCount (unsent s) s) := by
  rcases txAttempt_cases s with ⟨_, e⟩ | ⟨_, e⟩ <;> rw [e] <;> rfl

/-! The held frame (R42) -/

theorem encodeFrame_getD (f l : Byte) (p : List Byte) :
    (encodeFrame f l p).getD 0 0 = 0x55 ∧ (encodeFrame f l p).getD 1 0 = 0xAA ∧ (encodeFrame f l p).getD 2 0 = f ∧
    (encodeFrame f l p).getD 4 0 = lengthByte p := by
  simp [encodeFrame, Config.magic0_eq, Config.magic1_eq]

theorem encodeFrame_split (f l : Byte) (p : List Byte) : encodeFrame f l p =
    (Config.engine.magic0 :: Config.engine.magic1 :: f :: l :: lengthByte p :: p) ++
      [checksumLow (frameChecksum p), checksumHigh (frameChecksum p)] := rfl

/-- A frame just built is a whole frame (R42, R197). -/
theorem heldFrame_of_encode {s : State} {l : Byte} {p : List Byte} (hp : p.length ≤ 57) (hm : s.mySerial ≠ 0)
    (hb : s.outBuf = encodeFrame s.mySerial l p) (hpos : s.txPos < 7 + p.length) : HeldFrame s := by
  have hlen : s.outCur = 7 + p.length := by rw [State.outCur, hb, encodeFrame_length]
  obtain ⟨g0, g1, g2, g4⟩ := encodeFrame_getD s.mySerial l p
  have hlb := lengthByte_toNat hp
  have hcov : (s.outBuf.drop 4).take (s.outCur - 6) = lengthByte p :: p := by
    rw [hlen, hb, encodeFrame_split]
    have : 7 + p.length - 6 = (lengthByte p :: p).length := by simp; omega
    rw [this]
    simp
  have hsplit := encodeFrame_split s.mySerial l p
  refine ⟨?_, ?_, ?_, ?_, ?_, ?_, ?_, ?_, ?_⟩
  · rw [hlen, hb, g4, hlb]
  · rw [hb, g4, hlb]; exact hp
  · rw [hb]; exact g0
  · rw [hb]; exact g1
  · rw [hb, g2]; exact hm
  · rw [hb, g2]
  · omega
  · rw [hcov, hlen, hb, hsplit]
    have : 7 + p.length - 2 = (Config.engine.magic0 :: Config.engine.magic1 :: s.mySerial :: l :: lengthByte p :: p).length := by
      simp; omega
    rw [this]
    simp [frameChecksum]
  · rw [hcov, hlen, hb, hsplit]
    have : 7 + p.length - 1 = (Config.engine.magic0 :: Config.engine.magic1 :: s.mySerial :: l :: lengthByte p :: p).length + 1 := by
      simp; omega
    rw [this, List.getD_append_right _ _ _ _ (by omega)]
    simp [frameChecksum]

/-! The invariant of the engine registers through a Writer phase -/

/-- The part of the invariant that the output side needs (R42). -/
structure OutInv (s : State) : Prop where
  lo : 5 ≤ s.outCur
  hi : s.outCur ≤ 64
  free : s.txPending = false → s.txPos = 0 ∧ s.outCur ≤ 62
  held : s.txPending = true → HeldFrame s
  backlog : s.backlog ≤ 64

theorem EngineInv.out {s : State} (h : EngineInv s) : OutInv s :=
  ⟨h.2.2.1, h.2.2.2.1, h.2.2.2.2.1, h.2.2.2.2.2.1, h.2.2.2.2.2.2.1⟩

theorem OutInv.txAttempt {s : State} (h : OutInv s) (hp : s.txPending = true) : OutInv (txAttempt s) := by
  have hH := h.held hp
  have hle := acceptedCount_le (unsent s) s
  rw [unsent_length] at hle
  have hlt : s.txPos < s.outCur := hH.2.2.2.2.2.2.1
  rcases txAttempt_cases s with ⟨hk, e⟩ | ⟨hk, e⟩
  · rw [e]
    have hl : (s.outBuf.take 5).length = 5 := by
      have := h.lo
      simp only [State.outCur] at this
      simp; omega
    refine ⟨?_, ?_, fun _ => ⟨rfl, ?_⟩, nofun, h.backlog⟩ <;> simp only [State.outCur, hl] <;> omega
  · rw [e]
    refine ⟨h.lo, h.hi, fun hf => ?_, fun _ => ?_, h.backlog⟩
    · exact absurd hp (by rw [show s.txPending = false from hf]; decide)
    · obtain ⟨h1, h2, h3, h4, h5, h6, h7, h8, h9⟩ := hH
      exact ⟨h1, h2, h3, h4, h5, h6, by
        show s.txPos + acceptedCount (unsent s) s < s.outCur
        omega, h8, h9⟩

theorem OutInv.backlogUpdate {s : State} (h : OutInv s) : OutInv (backlogUpdate s) := by
  refine ⟨h.lo, h.hi, h.free, h.held, ?_⟩
  have h1 := h.hi
  have h2 := h.backlog
  show max s.backlog (leftover s) ≤ 64
  unfold leftover
  split <;> omega

theorem OutInv.constructFrame {s : State} (h : OutInv s) (hp : s.txPending = false) (now : Time) (due : Bool) :
    OutInv (constructFrame now due s) ∧ (Machine.constructFrame now due s).txPending = true := by
  obtain ⟨a, b, c, u, hu, hst, hcur, e⟩ := constructFrame_spec now due h.lo
  have hlen : u.staged.length ≤ 57 := by
    have h62 : u.outCur ≤ 62 := hu.room (h.free hp).2
    omega
  have hout : (Machine.constructFrame now due s).outCur = 7 + u.staged.length := by
    rw [e]; exact encodeFrame_length _ _ _
  refine ⟨⟨by omega, by omega, fun hf => ?_, fun _ => ?_, ?_⟩, by rw [e]⟩
  · rw [e] at hf; cases hf
  · refine heldFrame_of_encode (l := s.lastRemoteSerial) hlen ?_ ?_ ?_
    · rw [e]; exact nextSerial_ne_zero _
    · rw [e]
    · rw [e]; show 0 < 7 + _; omega
  · have := h.backlog
    rw [e]
    show (if due = true then 0 else s.backlog) ≤ 64
    split <;> omega

/-- What a Writer phase can do (R190). -/
theorem writerPhase_cases (now : Time) (s : State) :
    (suppressed s = true ∧ writerPhase now s = s) ∨
    (suppressed s = false ∧ s.txPending = true ∧ writerPhase now s = backlogUpdate (txAttempt s)) ∨
    (suppressed s = false ∧ s.txPending = false ∧ wantsFrame now s = true ∧
      writerPhase now s = backlogUpdate (txAttempt (constructFrame now (autoDue now s) s))) ∨
    (suppressed s = false ∧ s.txPending = false ∧ wantsFrame now s = false ∧ writerPhase now s = s) := by
  unfold writerPhase
  cases suppressed s <;> cases s.txPending <;> cases wantsFrame now s <;> simp

theorem OutInv.writerPhase {s : State} (h : OutInv s) (now : Time) : OutInv (writerPhase now s) := by
  rcases writerPhase_cases now s with ⟨_, e⟩ | ⟨_, hp, e⟩ | ⟨_, hp, _, e⟩ | ⟨_, _, _, e⟩ <;> rw [e]
  · exact h
  · exact (h.txAttempt hp).backlogUpdate
  · obtain ⟨h1, h2⟩ := h.constructFrame hp now (autoDue now s)
    exact (h1.txAttempt h2).backlogUpdate
  · exact h

/-! What the Writer may change (R210) -/

/-- What the Writer may do: the output side, the flags `ToSend` (which it only clears) and `WasAutoSent`, and the log
change, nothing else; bytes are only added to what the transport was given. -/
structure Writes (s t : State) : Prop where
  eq : t = { s with slots := t.slots, mySerial := t.mySerial, lastAutoSendTime := t.lastAutoSendTime,
                    backlog := t.backlog, outBuf := t.outBuf, txPending := t.txPending, txPos := t.txPos,
                    crcAcc := t.crcAcc, txSent := t.txSent, txCounts := t.txCounts, log := t.log }
  slot : ∀ i, t.slot i = { s.slot i with toSend := (t.slot i).toSend, wasAutoSent := (t.slot i).wasAutoSent }
  clears : ∀ i, (t.slot i).toSend = true → (s.slot i).toSend = true
  sent : s.txSent <+: t.txSent
  log : s.log <+: t.log

theorem Writes.refl (s : State) : Writes s s where
  eq := rfl
  slot _ := rfl
  clears _ h := h
  sent := List.prefix_refl _
  log := List.prefix_refl _

theorem Writes.trans {s t u : State} (h : Writes s t) (h' : Writes t u) : Writes s u where
  eq := by
    have e := h'.eq
    rw [h.eq] at e
    exact e
  slot i := by rw [h'.slot i, h.slot i]
  clears i hr := h.clears i (h'.clears i hr)
  sent := h.sent.trans h'.sent
  log := h.log.trans h'.log

theorem Encoded.writes {due : Bool} {s t : State} {a b c : List SlotIx} (h : Encoded due s t a b c) : Writes s t where
  eq := by rw [h.eq]
  slot i := by rw [h.slot i]
  clears i hr := by
    rw [h.slot i] at hr
    simp only [Bool.and_eq_true] at hr
    exact hr.1
  sent := by rw [h.eq]
  log := h.log

theorem advanceSerial_writes (s : State) : Writes s (advanceSerial s) :=
  ⟨rfl, fun _ => rfl, fun _ h => h, List.prefix_refl _, List.prefix_refl _⟩

theorem sealFrame_writes (s : State) : Writes s (sealFrame s) :=
  ⟨rfl, fun _ => rfl, fun _ h => h, List.prefix_refl _, List.prefix_refl _⟩

theorem holdFrame_writes (now : Time) (due : Bool) (s : State) : Writes s (holdFrame now due s) := by
  cases due <;> exact ⟨rfl, fun _ => rfl, fun _ h => h, List.prefix_refl _, List.prefix_refl _⟩

theorem encodePayload_writes (due : Bool) (s : State) : Writes s (encodePayload due s) := by
  obtain ⟨a, b, c, h⟩ := encodePayload_spec due s
  exact h.writes

theorem constructFrame_writes (now : Time) (due : Bool) (s : State) : Writes s (constructFrame now due s) :=
  (((advanceSerial_writes s).trans (encodePayload_writes due _)).trans (sealFrame_writes _)).trans
    (holdFrame_writes now due _)

theorem txAttempt_writes (s : State) : Writes s (txAttempt s) := by
  rcases txAttempt_cases s with ⟨_, e⟩ | ⟨_, e⟩ <;> rw [e] <;>
    exact ⟨rfl, fun _ => rfl, fun _ h => h, List.prefix_append _ _, List.prefix_append _ _⟩

theorem backlogUpdate_writes (s : State) : Writes s (backlogUpdate s) :=
  ⟨rfl, fun _ => rfl, fun _ h => h, List.prefix_refl _, List.prefix_refl _⟩

theorem writerPhase_writes (now : Time) (s : State) : Writes s (writerPhase now s) := by
  rcases writerPhase_cases now s with ⟨_, e⟩ | ⟨_, _, e⟩ | ⟨_, _, _, e⟩ | ⟨_, _, _, e⟩ <;> rw [e]
  · exact Writes.refl s
  · exact (txAttempt_writes s).trans (backlogUpdate_writes _)
  · exact ((constructFrame_writes now _ s).trans (txAttempt_writes _)).trans (backlogUpdate_writes _)
  · exact Writes.refl s

/-- On a registry whose free slots are cleared, the Writer changes no free slot (R22, R160). -/
theorem encodePayload_free (due : Bool) {s : State} {i : SlotIx} (hu : (s.slot i).used = false)
    (hw : (s.slot i).wasAutoSent = false) : (encodePayload due s).slot i = s.slot i := by
  obtain ⟨a, b, c, h⟩ := encodePayload_spec due s
  have ha : i ∉ a := fun hi => by
    have := ((h.passA.2 i).mp hi).1.1
    rw [hu] at this; cases this
  have hb : i ∉ b := fun hi => by
    cases due with
    | false => rw [(h.noB rfl).1] at hi; cases hi
    | true =>
      have := (((h.passB1 rfl).2 i).mp hi).1.1
      rw [hu] at this; cases this
  have e : ∀ x : Slot, x.wasAutoSent = false → { x with toSend := x.toSend, wasAutoSent := false } = x := by
    rintro ⟨⟩ h; cases h; rfl
  rw [h.slot i]
  simp only [ha, hb, hw, decide_false, Bool.not_false, Bool.and_true, Bool.and_false, Bool.or_false, Bool.false_and]
  exact e _ hw

theorem writerPhase_free (now : Time) {s : State} {i : SlotIx} (hu : (s.slot i).used = false)
    (hw : (s.slot i).wasAutoSent = false) : (writerPhase now s).slot i = s.slot i := by
  have ht : ∀ u : State, (backlogUpdate (txAttempt u)).slot i = u.slot i := fun u => by
    rcases txAttempt_cases u with ⟨_, e⟩ | ⟨_, e⟩ <;> rw [e] <;> rfl
  rcases writerPhase_cases now s with ⟨_, e⟩ | ⟨_, _, e⟩ | ⟨_, _, _, e⟩ | ⟨_, _, _, e⟩ <;> rw [e]
  · exact ht s
  · rw [ht]
    have : ∀ d u, (holdFrame now d u).slot i = u.slot i := fun d u => by cases d <;> rfl
    rw [constructFrame, this]
    exact encodePayload_free (s := advanceSerial s) _ hu hw

end Sys2Proof.Machine
end

