-- ==== Sys2Proof/Laws/Invariant.lean ====
section
/-! SUPPORT. The invariant of the registry, operation by operation (spec/10_state.md R22 to R27), and what a tick can do
(spec/45_engine.md R218). -/

namespace Sys2Proof.Machine

/-- An operation that leaves every binding and every free slot alone keeps the invariant of the registry. -/
theorem RegistryInv.of_slots {s t : State} (h : RegistryInv s)
    (hb : ∀ i, (t.slot i).used = (s.slot i).used ∧ (t.slot i).id = (s.slot i).id ∧
      (t.slot i).region = (s.slot i).region ∧ (t.slot i).size = (s.slot i).size)
    (hf : ∀ i, (s.slot i).used = false → t.slot i = s.slot i) : RegistryInv t := by
  refine ⟨fun i => ?_, fun i j hi hj e => h.2 i j ?_ ?_ ?_⟩
  · have hl := h.1 i
    cases hu : (s.slot i).used with
    | false => rw [hf i hu]; exact hl
    | true =>
      obtain ⟨h1, _, h3, h4⟩ := hb i
      simp only [Slot.legal, h1, h3, h4, hu, if_true] at hl ⊢
      exact hl
  · rw [← (hb i).1]; exact hi
  · rw [← (hb j).1]; exact hj
  · rw [← (hb i).2.1, ← (hb j).2.1]; exact e

theorem RegistryInv.reads {s t : State} (h : RegistryInv s) (hr : Reads s t) : RegistryInv t :=
  h.of_slots (fun i => by rw [hr.slot i]; exact ⟨rfl, rfl, rfl, rfl⟩) hr.free

theorem RegistryInv.writerPhase {s : State} (h : RegistryInv s) (now : Time) : RegistryInv (writerPhase now s) := by
  refine h.of_slots (fun i => ?_) (fun i hu => writerPhase_free now hu ?_)
  · rw [(writerPhase_writes now s).slot i]; exact ⟨rfl, rfl, rfl, rfl⟩
  · have := h.1 i
    rw [Slot.legal, if_neg (by rw [hu]; decide)] at this
    rw [this]; rfl

/-- Freeing a slot keeps the invariant of the registry (R22). -/
theorem RegistryInv.unbind {s : State} (h : RegistryInv s) (i : SlotIx) : RegistryInv (s.setSlot i Slot.free) := by
  have hu : ∀ j, ((s.setSlot i Slot.free).slot j).used = true → j ≠ i ∧ (s.setSlot i Slot.free).slot j = s.slot j := by
    intro j hj
    rw [slot_setSlot] at hj
    have hne : j ≠ i := fun e => by rw [if_pos e] at hj; cases hj
    exact ⟨hne, slot_setSlot_ne _ _ hne⟩
  refine ⟨fun j => ?_, fun j k hj hk e => ?_⟩
  · rw [slot_setSlot]
    split
    · simp [Slot.legal, Slot.free]
    · exact h.1 j
  · obtain ⟨_, ej⟩ := hu j hj
    obtain ⟨_, ek⟩ := hu k hk
    rw [ej] at hj e
    rw [ek] at hk e
    exact h.2 j k hj hk e

/-- A legal binding keeps the invariant of the registry (R27, R132). -/
theorem RegistryInv.bind {s : State} (h : RegistryInv s) {id : Byte} {region : Addr} {size : Byte} {autoSend : Bool}
    {i : SlotIx} (hr : region ≠ 0) (hz : size.toNat ≤ 56) (ht : region.toNat + size.toNat ≤ 2 ^ 32)
    (hi : slotFor id s = some i) : RegistryInv (s.setSlot i (boundSlot id region size autoSend)) := by
  have hother : ∀ j, j ≠ i → (s.slot j).used = true → (s.slot j).id ≠ id := by
    intro j hj hu e
    rcases slotFor_eq_some.mp hi with hl | ⟨hn, -⟩
    · exact hj (h.2 j i hu hl.1.1 (e.trans hl.1.2.symm))
    · exact hn j ⟨hu, e⟩
  refine ⟨fun j => ?_, fun j k hj hk e => ?_⟩
  · rw [slot_setSlot]
    split
    · exact ⟨hr, hz, ht⟩
    · exact h.1 j
  · rw [slot_setSlot] at hj e
    rw [slot_setSlot] at hk e
    by_cases hji : j = i <;> by_cases hki : k = i
    · rw [hji, hki]
    · rw [if_pos hji, if_neg hki] at e
      rw [if_neg hki] at hk
      exact absurd e.symm (hother k hki hk)
    · rw [if_neg hji, if_pos hki] at e
      rw [if_neg hji] at hj
      exact absurd e (hother j hji hj)
    · rw [if_neg hji, if_neg hki] at e
      rw [if_neg hji] at hj
      rw [if_neg hki] at hk
      exact h.2 j k hj hk e

theorem RegistryInv.bindItem {s : State} (h : RegistryInv s) (id : Byte) (region : Addr) (size : Byte) (autoSend : Bool) :
    RegistryInv (bindItem id region size autoSend s) := by
  rcases bindItem_cases id region size autoSend s with ⟨_, i, _, e⟩ | ⟨_, _, e⟩ | ⟨_, _, e⟩ | ⟨hr, hz, ht, i, hi, e⟩ |
    ⟨_, _, _, _, e⟩ <;> rw [e]
  · exact h.unbind i
  · exact h
  · exact h
  · exact h.bind hr hz ht hi
  · exact h

/-- Setting or clearing `Received` or `ToSend` of a used slot keeps the invariant of the registry (R142). -/
theorem RegistryInv.setReceived {s : State} (h : RegistryInv s) {i : SlotIx} (hu : (s.slot i).used = true) (b : Bool) :
    RegistryInv (setReceived i b s) := by
  refine h.of_slots (fun j => ?_) (fun j hj => ?_)
  · rw [slot_setReceived]; split <;> exact ⟨rfl, rfl, rfl, rfl⟩
  · rw [slot_setReceived, if_neg (fun e => by rw [e, hu] at hj; cases hj)]

theorem RegistryInv.setToSend {s : State} (h : RegistryInv s) {i : SlotIx} (hu : (s.slot i).used = true) (b : Bool) :
    RegistryInv (setToSend i b s) := by
  refine h.of_slots (fun j => ?_) (fun j hj => ?_)
  · rw [slot_setToSend]; split <;> exact ⟨rfl, rfl, rfl, rfl⟩
  · rw [slot_setToSend, if_neg (fun e => by rw [e, hu] at hj; cases hj)]

/-! A tick (R218) -/

/-- What a tick can do: the fill, what the parsing may do to the filled state, then the Writer phase. -/
theorem tick_eq_next {now : Time} {s t : State} (h : tick now s = .next t) :
    ∃ u, readerPhase s = .next u ∧ Reads (fill s) u ∧ readerState u ≠ .dispatch ∧ t = writerPhase now u := by
  obtain ⟨u, hu, e⟩ := andThen_eq_next.mp h
  cases e
  exact ⟨u, hu, (readerPhase_eq_next hu).1, (readerPhase_eq_next hu).2, rfl⟩

theorem tick_completes {s : State} (h : HooksReturn s) (now : Time) : ∃ t, tick now s = .next t := by
  obtain ⟨u, hu⟩ := readerPhase_completes h
  exact ⟨_, by rw [tick, hu]; rfl⟩

/-- The output side of the invariant reads only the output side of the state. -/
theorem OutInv.congr {s t : State} (h : OutInv s) (h1 : t.outBuf = s.outBuf) (h2 : t.txPending = s.txPending)
    (h3 : t.txPos = s.txPos) (h4 : t.backlog = s.backlog) (h5 : t.mySerial = s.mySerial) : OutInv t := by
  have hc : t.outCur = s.outCur := by rw [State.outCur, h1]; rfl
  refine ⟨by rw [hc]; exact h.lo, by rw [hc]; exact h.hi, fun hp => ?_, fun hp => ?_, by rw [h4]; exact h.backlog⟩
  · rw [hc, h3]; exact h.free (h2 ▸ hp)
  · have := h.held (h2 ▸ hp)
    simp only [HeldFrame, hc, h1, h3, h5] at this ⊢
    exact this

end Sys2Proof.Machine
end

