-- ==== Sys2Proof/Laws/PerInstr.lean ====
section
/-! SUPPORT. Families of statements made for each instruction as syntax. `HasWords`: an operation has words exactly
when its row of the table is a command, the pseudo-operation or a wire format (spec/30_encoding.md R92, R94, R95). -/

/-- The encoder gives words to the operation exactly when its row has a code or a wire format. -/
def Sys2Proof.Laws.HasWords.Statement (i : Sys2Proof.Instr) : Prop := (Sys2Proof.encode i).isSome = i.hasCode

namespace Sys2Proof.Laws

theorem HasWords.bind (id : Byte) (region : Addr) (size : Byte) (autoSend : Bool) : HasWords.Statement (.bind id region size autoSend) := rfl
theorem HasWords.beginCmd (waitFirst : Bool) : HasWords.Statement (.beginCmd waitFirst) := rfl
theorem HasWords.stepCmd (now : Time) : HasWords.Statement (.stepCmd now) := rfl
theorem HasWords.rser : HasWords.Statement .rser := rfl
theorem HasWords.isrx (id : Byte) : HasWords.Statement (.isrx id) := rfl
theorem HasWords.clrx (id : Byte) : HasWords.Statement (.clrx id) := rfl
theorem HasWords.take (id : Byte) : HasWords.Statement (.take id) := rfl
theorem HasWords.takep (region : Addr) : HasWords.Statement (.takep region) := rfl
theorem HasWords.send (id : Byte) : HasWords.Statement (.send id) := rfl
theorem HasWords.sendp (region : Addr) : HasWords.Statement (.sendp region) := rfl
theorem HasWords.enq (id : Byte) (data : List Byte) (length : Byte) : HasWords.Statement (.enq id data length) := rfl
theorem HasWords.reserved (op : Byte) : HasWords.Statement (.reserved op) := rfl
theorem HasWords.unbind (id : Byte) : HasWords.Statement (.unbind id) := rfl
theorem HasWords.frame (frameId lastSeen : Byte) (payload : List Byte) : HasWords.Statement (.frame frameId lastSeen payload) := rfl
theorem HasWords.subpacket (typ : Byte) (data : List Byte) : HasWords.Statement (.subpacket typ data) := rfl
theorem HasWords.checksum16 (bytes : List Byte) : HasWords.Statement (.checksum16 bytes) := rfl
theorem HasWords.crcInit : HasWords.Statement .crcInit := rfl
theorem HasWords.crcByte (b : Byte) : HasWords.Statement (.crcByte b) := rfl
theorem HasWords.lookup (id : Byte) : HasWords.Statement (.lookup id) := rfl
theorem HasWords.lookupByRegion (region : Addr) : HasWords.Statement (.lookupByRegion region) := rfl
theorem HasWords.markReceived (id : Byte) (src : List Byte) : HasWords.Statement (.markReceived id src) := rfl
theorem HasWords.markToSend (id : Byte) : HasWords.Statement (.markToSend id) := rfl
theorem HasWords.decodePayload (payload : List Byte) : HasWords.Statement (.decodePayload payload) := rfl
theorem HasWords.dispatchItem (typ : Byte) (data : List Byte) : HasWords.Statement (.dispatchItem typ data) := rfl
theorem HasWords.encodePayload (autoDue : Bool) : HasWords.Statement (.encodePayload autoDue) := rfl
theorem HasWords.append (slot : SlotIx) : HasWords.Statement (.append slot) := rfl
theorem HasWords.fits (slot : SlotIx) : HasWords.Statement (.fits slot) := rfl
theorem HasWords.fill : HasWords.Statement .fill := rfl
theorem HasWords.drop (m : Nat) : HasWords.Statement (.drop m) := rfl
theorem HasWords.discard (m : Nat) : HasWords.Statement (.discard m) := rfl
theorem HasWords.readerPhase : HasWords.Statement .readerPhase := rfl
theorem HasWords.writerPhase (now : Time) : HasWords.Statement (.writerPhase now) := rfl
theorem HasWords.constructFrame (now : Time) (autoDue : Bool) : HasWords.Statement (.constructFrame now autoDue) := rfl
theorem HasWords.txAttempt : HasWords.Statement .txAttempt := rfl
theorem HasWords.pace (backlog : Nat) : HasWords.Statement (.pace backlog) := rfl
theorem HasWords.backlogUpdate : HasWords.Statement .backlogUpdate := rfl
theorem HasWords.notifyDiscard (bytes : List Byte) : HasWords.Statement (.notifyDiscard bytes) := rfl
theorem HasWords.unknownHook (typ : Byte) (rest : List Byte) : HasWords.Statement (.unknownHook typ rest) := rfl
theorem HasWords.transportRead (max : Nat) : HasWords.Statement (.transportRead max) := rfl
theorem HasWords.transportWrite (bytes : List Byte) : HasWords.Statement (.transportWrite bytes) := rfl

end Sys2Proof.Laws
end

