-- ==== Sys2Proof/Tests/Slice0.lean ====
section
/-! SUPPORT. Tests of the model: the refusals of WellFormed, the decoding of words written out from the spec's encodings,
one step of every operation against the vectors and examples of the spec (each test names its source), and for every
obligation with hypotheses a witness that meets them together. -/

namespace Sys2Proof.Tests

open Sys2Proof.Machine

/-! Helpers -/

/-- The outcome is a next state with this property. -/
def after (o : Host.Outcome State Fault Refusal) (p : State → Bool) : Bool :=
  match o with
  | .next s => p s
  | _ => false

theorem after_spec {o : Host.Outcome State Fault Refusal} {p : State → Bool} (h : after o p = true) :
    ∃ t, o = .next t ∧ p t = true := by
  cases o with
  | next t => exact ⟨t, rfl, h⟩
  | fault _ => cases h
  | refused _ => cases h

/-- Two items bound, `0x10` of size 2 at 0x1000 and `0x20` of size 4 at 0x2000 with AutoSend (V2.1); the first region
holds AA BB. -/
def two : State :=
  { State.reset with
    slots := (State.reset.slots.set 0 (boundSlot 0x10 0x1000 2 false)).set 1 (boundSlot 0x20 0x2000 4 true)
    mem := [(0x1000, 0xAA), (0x1001, 0xBB)] }

/-- `two` with item `0x10` fresh and asked for. -/
def marked : State := two.setSlot 0 { boundSlot 0x10 0x1000 2 false with received := true, toSend := true }

/-- All eight slots used. -/
def full : State :=
  { State.reset with slots := Vector.ofFn fun i => boundSlot (BitVec.ofNat 8 (0x10 + i)) (BitVec.ofNat 32 (0x1000 + 256 * i)) 1 false }

/-- The frame of R209's example: item `0x10` = AA BB, frameId 1. -/
def frame1 : List Byte := [0x55, 0xAA, 0x01, 0x00, 0x03, 0x10, 0xAA, 0xBB, 0x8F, 0xF9]

/-- `two` holding `frame1`, of which the transport has taken 4 bytes. -/
def held : State := { two with mySerial := 1, outBuf := frame1, txPending := true, txPos := 4, backlog := 6 }

/-- `two` with the receive transport holding these bytes. -/
def hears (b : List Byte) : State := { two with rxHeld := b }

/-- `two` with these bytes in the input buffer. -/
def buffered (b : List Byte) : State := { two with inBuf := b }

/-- `s` with a hook that answers `c` and writes a byte of application memory. -/
def hooked (c : Nat) (s : State) : State := { s with hookAnswers := [.returns c [(0x3000, 0x77)]] }

/-- `two` with a command presented. -/
def asked (p : PortCmd) (s : State) : State := { s with inputs := [.command p] }

/-! WellFormed: each check refuses a term that breaks it -/

theorem test_wf_enq_short : (Instr.enq 0x10 [0x01] 2).wf = false := by decide
theorem test_wf_enq_long : (Instr.enq 0x10 [0x01, 0x02, 0x03] 2).wf = false := by decide
theorem test_wf_reserved_command : (Instr.reserved 0x01).wf = false ∧ (Instr.reserved 0x0B).wf = false := by decide
theorem test_wf_reserved : (Instr.reserved 0x00).wf = true ∧ (Instr.reserved 0x0C).wf = true := by decide
theorem test_wf_frame_long : (Instr.frame 1 0 (List.replicate 58 0)).wf = false := by decide
theorem test_wf_frame_longest : (Instr.frame 1 0 (List.replicate 57 0)).wf = true := by decide
theorem test_wf_subpacket_long : (Instr.subpacket 1 (List.replicate 57 0)).wf = false := by decide
theorem test_wf_decodePayload_long : (Instr.decodePayload (List.replicate 58 0)).wf = false := by decide
theorem test_wf_dispatchItem_long : (Instr.dispatchItem 1 (List.replicate 57 0)).wf = false := by decide
theorem test_wf_drop_range : (Instr.drop 0).wf = false ∧ (Instr.drop 65).wf = false := by decide
theorem test_wf_discard_range : (Instr.discard 0).wf = false ∧ (Instr.discard 65).wf = false := by decide
theorem test_wf_pace_range : (Instr.pace 65).wf = false := by decide
theorem test_wf_notifyDiscard_first : (Instr.notifyDiscard [0x00]).wf = false ∧ (Instr.notifyDiscard []).wf = false := by
  decide
theorem test_wf_notifyDiscard_long : (Instr.notifyDiscard (List.replicate 65 0x55)).wf = false := by decide
theorem test_wf_unknownHook_long : (Instr.unknownHook 1 (List.replicate 57 0)).wf = false := by decide
theorem test_wf_transportRead_range : (Instr.transportRead 65).wf = false := by decide
theorem test_wf_transportWrite_long : (Instr.transportWrite (List.replicate 65 0)).wf = false := by decide

/-- A record with two slots, 16-bit times and 16-bit addresses, and a constant curve of pacing (R8, R205). -/
def small : Config.Params :=
  { Config.engine with
    maxItems := 2, timeW := 16, appAW := 16, fits := by decide
    pace := fun _ => 600, paceMono := fun _ _ _ _ => Nat.le_refl _, paceRange := fun _ _ => by decide }

theorem test_wf_slot_range : (Instr.append 2).wf small = false ∧ (Instr.fits 2).wf small = false ∧
    (Instr.append 1).wf small = true ∧ (Instr.append 7).wf = true := by decide
theorem test_wf_address_width : (Instr.bind 1 0x10000 1 false).wf small = false ∧ (Instr.takep 0x10000).wf small = false ∧
    (Instr.sendp 0x10000).wf small = false ∧ (Instr.lookupByRegion 0x10000).wf small = false ∧
    (Instr.bind 1 0xFFFF 1 false).wf small = true ∧ (Instr.bind 1 0xFFFFFFFF 1 false).wf = true := by decide
theorem test_wf_time_width : (Instr.stepCmd 0x10000).wf small = false ∧ (Instr.writerPhase 0x10000).wf small = false ∧
    (Instr.constructFrame 0x10000 true).wf small = false ∧ (Instr.stepCmd 0xFFFF).wf small = true ∧
    (Instr.stepCmd 0xFFFFFFFF).wf = true := by decide

-- R8, R132, R194, R205: the operations read the record they are given
theorem test_parameters_are_read : (bindItem 0x30 0x3000 1 false two small).log = [.error .full] ∧
    (bindItem 0x10 0xFFFF 2 false two small).log = [.error .arg] ∧
    elapsed 0x10 { two with lastAutoSendTime := 0xFFF0 } small = 0x20 ∧
    autoDue 599 two small = false ∧ autoDue 600 two small = true := by decide

/-! Decoding: words written out from R90 to R93 (codes and ports), R80 (frame) and R85 (sub-packet) -/

theorem test_decode_bind : decode (.port { op := 0b00000001, id := 0x10, region := 0x1000, size := 2, flag := true }) =
    .ok (.bind 0x10 0x1000 2 true) := rfl
theorem test_decode_unbind : decode (.port { op := 0b00000001, id := 0x10 }) = .ok (.bind 0x10 0 0 false) := rfl
theorem test_decode_begin : decode (.port { op := 0b00000010, flag := true }) = .ok (.beginCmd true) := rfl
theorem test_decode_step : decode (.port { op := 0b00000011, now := 0xFFFFFF00 }) = .ok (.stepCmd 0xFFFFFF00) := rfl
theorem test_decode_rser : decode (.port { op := 0b00000100 }) = .ok .rser := rfl
theorem test_decode_isrx : decode (.port { op := 0b00000101, id := 0x10 }) = .ok (.isrx 0x10) := rfl
theorem test_decode_clrx : decode (.port { op := 0b00000110, id := 0x10 }) = .ok (.clrx 0x10) := rfl
theorem test_decode_take : decode (.port { op := 0b00000111, id := 0x10 }) = .ok (.take 0x10) := rfl
theorem test_decode_takep : decode (.port { op := 0b00001000, region := 0x1000 }) = .ok (.takep 0x1000) := rfl
theorem test_decode_send : decode (.port { op := 0b00001001, id := 0x10 }) = .ok (.send 0x10) := rfl
theorem test_decode_sendp : decode (.port { op := 0b00001010, region := 0x1000 }) = .ok (.sendp 0x1000) := rfl
theorem test_decode_enq : decode (.port { op := 0b00001011, id := 0x77, size := 2, data := [0xDE, 0xAD] }) =
    .ok (.enq 0x77 [0xDE, 0xAD] 2) := rfl
theorem test_decode_enq_short : decode (.port { op := 0x0B, size := 2, data := [0xDE] }) = .error .shortData := rfl
theorem test_decode_reserved : decode (.port { op := 0x0C, id := 0x10 }) = .ok (.reserved 0x0C) ∧
    decode (.port { op := 0x00 }) = .ok (.reserved 0x00) := ⟨rfl, rfl⟩
theorem test_decode_frame : decode (.wire frame1) = .ok (.frame 0x01 0x00 [0x10, 0xAA, 0xBB]) := by decide +kernel
theorem test_decode_frame_magic : decode (.wire [0x55, 0xAB, 0x01]) = .error .badMagic := by decide
theorem test_decode_frame_length : decode (.wire [0x55, 0xAA, 0x01, 0x00, 0x3A]) = .error .badLength := by decide
theorem test_decode_frame_checksum : decode (.wire [0x55, 0xAA, 0x01, 0x00, 0x00, 0x01, 0x00]) = .error .badChecksum := by
  decide +kernel
theorem test_decode_frame_waits : decode (.wire [0x55]) = .error (.incomplete .scanning) ∧
    decode (.wire (frame1.take 4)) = .error (.incomplete .headerWait) ∧
    decode (.wire (frame1.take 7)) = .error (.incomplete .payloadWait) ∧
    decode (.wire (frame1.take 9)) = .error (.incomplete .checksumWait) := by decide
theorem test_decode_subpacket : decode (.sub 2 [0x10, 0xAA, 0xBB, 0x20]) = .ok (.subpacket 0x10 [0xAA, 0xBB]) := rfl
theorem test_decode_subpacket_truncated : decode (.sub 2 [0x10, 0xAA]) = .error .truncated := rfl
theorem test_decode_subpacket_none : decode (.sub 2 []) = .error .noSubPacket := rfl
theorem test_table_words : decodeTableWord 8 0x01 = some (.bind 0 0 0 false) ∧ decodeTableWord 8 0xFF = some (.reserved 0xFF) ∧
    decodeTableWord 16 0x55AA = some (.frame 0 0 []) := by decide +kernel

/-! One step of every operation -/

-- V2.1, the second bind
theorem test_bind_new : after (exec (.bind 0x30 0x3000 1 true) two) (fun t => decide (t.slot 2 = boundSlot 0x30 0x3000 1 true)) = true := by
  decide
-- V2.6: region + size = 2^32 accepted, one more refused
theorem test_bind_top : after (exec (.bind 0x41 0xFFFFFFF0 16 false) two) (fun t => (t.slot 2).used) = true ∧
    after (exec (.bind 0x42 0xFFFFFFF0 17 false) two) (fun t => decide (t.slots = two.slots)) = true := by decide
-- V2.2
theorem test_unbind : after (exec (.unbind 0x10) two) (fun t => decide (t.slot 0 = Slot.free ∧ lookup 0x20 t = some 1)) = true := by
  decide
-- R217: begin keeps ToSend and drops what is buffered
theorem test_begin : after (exec (.beginCmd true) { marked with inBuf := [0x55], outBuf := List.replicate 8 1 })
    (fun t => (t.slot 0).toSend && t.waitFirst && decide (t.inCur = 0 ∧ t.outCur = 5)) = true := by decide
-- R218's example, from reset; R209: sendNow(0x10) then step(100)
theorem test_step : after (exec (.stepCmd 500) { State.reset with rxHeld := [0x55, 0xAA, 0x07, 0x00, 0x00, 0x00, 0x00] })
    (fun t => decide (t.lastRemoteSerial = 7 ∧ t.txSent = [0x55, 0xAA, 0x01, 0x07, 0x00, 0x00, 0x00])) = true ∧
    after (exec (.stepCmd 100) marked) (fun t => decide (t.txSent = frame1 ∧ t.lastAutoSendTime = 0)) = true := by
  decide +kernel
-- R220's example
theorem test_rser : after (exec .rser { two with lastRemoteSerial := 7 }) (fun t => decide (t.rsp = .val 0x07)) = true := by decide
-- V2.10
theorem test_isrx : after (exec (.isrx 0x10) marked) (fun t => decide (t.rsp = .bool true ∧ t.slots = marked.slots)) = true := by
  decide
-- V2.14
theorem test_isrx_unbound : after (exec (.isrx 0x55) marked) (fun t => decide (t.rsp = .bool false)) = true := by decide
-- R137
theorem test_clrx : after (exec (.clrx 0x10) marked) (fun t => !(t.slot 0).received && (t.slot 0).toSend) = true := by decide
-- V2.10
theorem test_take : after (exec (.take 0x10) marked) (fun t => decide (t.rsp = .bool true) && !(t.slot 0).received) = true := by
  decide
-- V2.13: of two slots with one base address the lowest is taken
theorem test_takep : after (exec (.takep 0x1000) (marked.setSlot 2 { boundSlot 0x11 0x1000 2 false with received := true }))
    (fun t => decide (t.rsp = .bool true) && !(t.slot 0).received && (t.slot 2).received) = true := by decide
-- V2.12
theorem test_send : after (exec (.send 0x10) two) (fun t => decide (t.rsp = .bool true ∧ t.txSent = []) && (t.slot 0).toSend) = true := by
  decide
theorem test_sendp : after (exec (.sendp 0x1000) two) (fun t => decide (t.rsp = .bool true) && (t.slot 0).toSend) = true ∧
    after (exec (.sendp 0x1001) two) (fun t => decide (t.rsp = .bool false)) = true := by decide
-- V3.12, first call, and V3.13, second call
theorem test_enq : after (exec (.enq 0x77 [0xDE, 0xAD] 2) two)
    (fun t => decide (t.rsp = .bool true ∧ t.staged = [0x77, 0xDE, 0xAD] ∧ t.outCur = 8)) = true := by decide
theorem test_enq_full : after (exec (.enq 0x78 [] 0) { two with outBuf := List.replicate 62 0 })
    (fun t => decide (t.rsp = .bool false ∧ t.outCur = 62)) = true := by decide
-- R93
theorem test_reserved : after (exec (.reserved 0x0C) { marked with rsp := .val 1 })
    (fun t => decide (t = { marked with rsp := .none })) = true := by decide
-- R183, fourth row, with a payload
theorem test_frame : after (exec (.frame 0x01 0x00 [0x10, 0xAA, 0xBB]) (buffered (frame1 ++ [0x99])))
    (fun t => decide (t.lastRemoteSerial = 1 ∧ t.inBuf = [0x99]) && t.gotFirst && (t.slot 0).received) = true := by decide
-- V3.1 by one sub-packet
theorem test_subpacket : after (exec (.subpacket 0x10 [0xCC, 0xDD]) two)
    (fun t => decide (t.byteAt 0x1000 = 0xCC ∧ t.byteAt 0x1001 = 0xDD ∧ t.result = .consumed (some 2))) = true := by decide
-- V1.12
theorem test_checksum16 : after (exec (.checksum16 [0x03, 0x10, 0xAA, 0xBB]) two)
    (fun t => decide (t.result = .word 0xF98F ∧ t.crcAcc = 0xF98F)) = true := by decide +kernel
-- R114; the trace of V1.12
theorem test_crcInit : after (exec .crcInit { two with crcAcc := 0x1234 }) (fun t => decide (t.crcAcc = 0)) = true := by decide
theorem test_crcByte : after (exec (.crcByte 0x10) { two with crcAcc := 0x329B }) (fun t => decide (t.crcAcc = 0x3AE9)) = true := by
  decide
-- R130, R131: their examples
theorem test_lookup : after (exec (.lookup 0x20) two) (fun t => decide (t.result = .slot (some 1))) = true ∧
    after (exec (.lookup 0x30) two) (fun t => decide (t.result = .slot none)) = true := by decide
theorem test_lookupByRegion : after (exec (.lookupByRegion 0x2000) two) (fun t => decide (t.result = .slot (some 1))) = true ∧
    after (exec (.lookupByRegion 0x2001) two) (fun t => decide (t.result = .slot none)) = true := by decide
-- V2.9, both calls
theorem test_markReceived_long : after (exec (.markReceived 0x10 [0xCC, 0xDD, 0xEE]) two)
    (fun t => decide (t.byteAt 0x1000 = 0xCC ∧ t.byteAt 0x1001 = 0xDD ∧ t.byteAt 0x1002 = 0) && (t.slot 0).received) = true := by
  decide
theorem test_markReceived_short : after (exec (.markReceived 0x10 [0xEE]) two)
    (fun t => decide (t.byteAt 0x1000 = 0xEE ∧ t.byteAt 0x1001 = 0xBB) && (t.slot 0).received) = true := by decide
-- R135's example
theorem test_markToSend : after (exec (.markToSend 0x10) two) (fun t => decide (t.result = .bool true) && (t.slot 0).toSend) = true ∧
    after (exec (.markToSend 0x99) two) (fun t => decide (t.result = .bool false)) = true := by decide
-- V3.2; V3.8
theorem test_decodePayload_twice : after (exec (.decodePayload [0x10, 0xAA, 0xBB, 0x10, 0xCC, 0xDD]) two)
    (fun t => decide (t.byteAt 0x1000 = 0xCC ∧ t.byteAt 0x1001 = 0xDD)) = true := by decide
theorem test_decodePayload_skips : after (exec (.decodePayload [0x77, 0x01, 0x02, 0x10, 0xCC, 0xDD]) (hooked 2 two))
    (fun t => decide (t.byteAt 0x1000 = 0xCC) && (t.slot 0).received) = true := by decide
-- R155
theorem test_dispatchItem : after (exec (.dispatchItem 0x10 [0xCC, 0xDD]) two)
    (fun t => decide (t.log = [.memWrite 0x1000 0xCC, .memWrite 0x1001 0xDD]) && (t.slot 0).received) = true := by decide
-- V3.15's order: the queued item of slot 1 before the autosend item of slot 0; R163: of 30, 30 and 10 bytes, the second
-- is skipped
theorem test_encodePayload : after (exec (.encodePayload true)
      ((two.setSlot 0 (boundSlot 0x10 0x1000 2 true)).setSlot 1 { boundSlot 0x20 0x2000 1 true with toSend := true }))
    (fun t => decide (t.staged = [0x20, 0x00, 0x10, 0xAA, 0xBB]) && !(t.slot 0).wasAutoSent && !(t.slot 1).toSend) = true ∧
    after (exec (.encodePayload true)
      (((State.reset.setSlot 0 (boundSlot 0xA0 0x1000 30 true)).setSlot 1 (boundSlot 0xB0 0x2000 30 true)).setSlot 2 (boundSlot 0xC0 0x3000 10 true)))
    (fun t => decide (t.outCur = 47) && (t.slot 0).wasAutoSent && !(t.slot 1).wasAutoSent && (t.slot 2).wasAutoSent) = true := by
  decide +kernel
-- R161
theorem test_append : after (exec (.append 0) two)
    (fun t => decide (t.staged = [0x10, 0xAA, 0xBB] ∧ t.log = [.memRead 0x1000 0xAA, .memRead 0x1001 0xBB])) = true := by decide
-- R163: `5 + 31 + 31 = 67 > 62` does not fit; the last item that does
theorem test_fits : after (exec (.fits 0) { two with outBuf := List.replicate 59 0 }) (fun t => decide (t.result = .bool true)) = true ∧
    after (exec (.fits 0) { two with outBuf := List.replicate 60 0 }) (fun t => decide (t.result = .bool false)) = true := by decide
-- R172: as many bytes as the transport chooses
theorem test_fill : after (exec .fill { hears [0x01, 0x02, 0x03] with rxCounts := [2], inBuf := [0x55] })
    (fun t => decide (t.inBuf = [0x55, 0x01, 0x02] ∧ t.rxHeld = [0x03])) = true := by decide
theorem test_drop : after (exec (.drop 2) (buffered [1, 2, 3])) (fun t => decide (t.inBuf = [3] ∧ t.log = [])) = true := by decide
theorem test_discard : after (exec (.discard 2) (buffered [0x55, 2, 3]))
    (fun t => decide (t.inBuf = [3] ∧ t.log = [.discard [0x55, 2]])) = true := by decide
-- R183: two frames in one tick; the last row (the valid frame is lost)
theorem test_readerPhase : after (exec .readerPhase (hears (frame1 ++ [0x55, 0xAA, 0x02, 0x01, 0x00, 0x00, 0x00])))
    (fun t => decide (t.lastRemoteSerial = 2 ∧ t.inCur = 0)) = true ∧
    after (exec .readerPhase (hears [0x55, 0xAA, 0x09, 0x09, 0x02, 0x55, 0xAA, 0x01, 0x00, 0x00, 0x00, 0x00]))
    (fun t => !t.gotFirst && decide (t.inCur = 0)) = true := by decide +kernel
-- R209: `step(500)` with nothing queued sends the autosend item; a clock that wrapped is not yet due
theorem test_writerPhase_due : after (exec (.writerPhase 500) two)
    (fun t => decide (t.mySerial = 1 ∧ t.lastAutoSendTime = 500 ∧ t.txSent.take 5 = [0x55, 0xAA, 0x01, 0x00, 0x05])) = true := by decide +kernel
theorem test_writerPhase_wrap : after (exec (.writerPhase 0x10) { two with lastAutoSendTime := 0xFFFFFF00 })
    (fun t => decide (t.txSent = [])) = true := by decide
-- R195 on wrap: after 255 comes 1
theorem test_constructFrame : after (exec (.constructFrame 100 false) { marked with mySerial := 255 })
    (fun t => decide (t.outBuf = frame1 ∧ t.mySerial = 1) && t.txPending) = true := by decide +kernel
-- R209: the transport takes 4 of 10, then 6
theorem test_txAttempt_part : after (exec .txAttempt { held with txPos := 0, txCounts := [4] })
    (fun t => decide (t.txPos = 4 ∧ t.txSent = [0x55, 0xAA, 0x01, 0x00]) && t.txPending) = true := by decide
theorem test_txAttempt_rest : after (exec .txAttempt held)
    (fun t => decide (t.txPos = 0 ∧ t.outCur = 5 ∧ t.txSent = [0x03, 0x10, 0xAA, 0xBB, 0x8F, 0xF9]) && !t.txPending) = true := by
  decide
-- R205
theorem test_pace : after (exec (.pace 63) two) (fun t => decide (t.result = .count 7882)) = true := by decide
-- R209: 6 of 10 bytes left
theorem test_backlogUpdate : after (exec .backlogUpdate { held with backlog := 0 }) (fun t => decide (t.backlog = 6)) = true ∧
    after (exec .backlogUpdate { held with backlog := 64 }) (fun t => decide (t.backlog = 64)) = true := by decide
-- R236, R238, R240
theorem test_notifyDiscard : after (exec (.notifyDiscard [0x55]) (hooked 9 two))
    (fun t => decide (t.log = [.discard [0x55]] ∧ t.byteAt 0x3000 = 0x77)) = true := by decide
theorem test_unknownHook : after (exec (.unknownHook 0x77 [1]) (hooked 1 two))
    (fun t => decide (t.result = .count 1 ∧ t.byteAt 0x3000 = 0x77 ∧ t.hookAnswers = [])) = true := by decide
-- R247, R248
theorem test_transportRead : after (exec (.transportRead 2) (hears [1, 2, 3]))
    (fun t => decide (t.result = .bytes [1, 2] ∧ t.rxHeld = [3])) = true := by decide
theorem test_transportWrite : after (exec (.transportWrite [1, 2, 3]) { two with txCounts := [2] })
    (fun t => decide (t.result = .count 2 ∧ t.txSent = [1, 2])) = true := by decide
-- R260
theorem test_reset_input : after (step { marked with inputs := [.env .reset] })
    (fun t => decide (t.slots = State.reset.slots ∧ t.mem = marked.mem)) = true := by decide
-- R248: from reset, the transport that has announced 4 takes 4 bytes of the frame offered
theorem test_txChoices : after (step { State.reset with inputs := [.env (.txChoices [4])] })
    (fun t => after (exec (.stepCmd 500) t) (fun u => decide (u.txSent = [0x55, 0xAA, 0x01, 0x00]) && u.txPending)) = true := by
  decide +kernel

/-! Witnesses: a concrete state and operands that meet the hypotheses of each obligation, clause by clause -/

/-- The outcome is a next state. -/
theorem exists_next {o : Host.Outcome State Fault Refusal} (h : after o (fun _ => true) = true) : ∃ t, o = .next t :=
  let ⟨t, e, _⟩ := after_spec h
  ⟨t, e⟩

theorem witness_ResetAndBeginValues : 5 ≤ State.reset.outCur := by decide

theorem witness_BeginResetsTheEngineAlone : 5 ≤ held.outCur := by decide

theorem witness_ResetInputIsResetThenBeginFalse :
    { held with inputs := [.env .reset, .command { op := 0x02, flag := false }] }.inputs =
      .env .reset :: .command { op := 0x02, flag := false } :: [] := rfl

theorem witness_StepRunsTheDecodedCommand :
    (asked { op := 0x05, id := 0x10 } two).inputs = .command { op := 0x05, id := 0x10 } :: [] ∧
    decode (.port { op := 0x05, id := 0x10 }) = .ok (.isrx 0x10) ∧ two.inputs = [] := ⟨rfl, rfl, rfl⟩

theorem witness_OutsideEventsReachMemoryAndTransport :
    { two with inputs := [.env (.appWrite 0xFFFFFFFF 0)] }.inputs = .env (.appWrite 0xFFFFFFFF 0) :: [] ∧
    two.mem.wf = true ∧ { two with inputs := [.env (.arrive [1])] }.inputs = .env (.arrive [1]) :: [] ∧
    { two with inputs := [.env (.rxChoices [6])] }.inputs = .env (.rxChoices [6]) :: [] ∧
    { two with inputs := [.env (.txChoices [4])] }.inputs = .env (.txChoices [4]) :: [] ∧
    { two with inputs := [.env (.hookChoices [.hangs])] }.inputs = .env (.hookChoices [.hangs]) :: [] :=
  ⟨rfl, by decide, rfl, rfl, rfl, rfl⟩

theorem witness_inv_two : Inv two := by decide

theorem witness_inv_held : Inv held := by decide +kernel

theorem witness_EveryStepKeepsTheInvariant : Inv held ∧ ∃ t, step (asked { op := 0x03, now := 500 } held) = .next t :=
  ⟨witness_inv_held, exists_next (by decide)⟩

theorem witness_NoStepStops :
    HooksReturn (asked { op := 0x0B, size := 1, data := [0xEE] } (hooked 1 two)) ∧
    Presentable (asked { op := 0x0B, size := 1, data := [0xEE] } (hooked 1 two)) := ⟨by decide, fun _ => by decide⟩

theorem witness_TickIsReaderThenWriter : HooksReturn (hooked 1 (hears frame1)) := by decide

theorem witness_CommandCodesSelectTheOperation :
    ({ op := 0x0B, size := 2, data := [1, 2] } : PortCmd).size.toNat ≤ ({ op := 0x0B, size := 2, data := [1, 2] } : PortCmd).data.length ∧
    0x0C ≤ ({ op := 0x0C } : PortCmd).op.toNat ∧ 0x0C ≤ ({ op := 0xFF } : PortCmd).op.toNat ∧ ({ op := 0 } : PortCmd).op = 0 := by
  decide

theorem witness_DecodeOfEncodeIsTheInstruction :
    (Instr.frame 1 0 (List.replicate 57 0xFF)).wf = true ∧ (encode (.frame 1 0 (List.replicate 57 0xFF))).isSome ∧
    (Instr.enq 0x10 [1] 1).wf = true ∧ (encode (.enq 0x10 [1] 1)).isSome := ⟨by decide, rfl, by decide, rfl⟩

theorem witness_ChecksumIsLinear : ([0x01, 0x02] : List Byte).length = ([0x03, 0x04] : List Byte).length := rfl

/-- An error of exactly 16 consecutive bits: bit 0 of the first byte to bit 7 of the second. -/
theorem witness_BurstErrorsAreDetected : ([] : List Byte).length ≤ 57 ∧
    ([0x01, 0x80] : List Byte).length = ([] : List Byte).length + 2 ∧
    (∃ k j, j < 8 ∧ (([0x01, 0x80] : List Byte).getD k 0).getLsbD j = true) ∧
    ∀ k j, j < 8 → (([0x01, 0x80] : List Byte).getD k 0).getLsbD j = true → 0 ≤ 8 * k + j ∧ 8 * k + j < 0 + 16 := by
  refine ⟨by decide, rfl, ⟨0, 0, by decide, by decide⟩, fun k j hj h => ⟨Nat.zero_le _, ?_⟩⟩
  rcases k with _ | _ | k
  · omega
  · omega
  · simp at h

theorem witness_LookupsFindTheLowestSlot : Lowest (HoldsId two 0x20) 1 ∧ (∀ j, ¬HoldsId two 0x30 j) ∧
    Lowest (HoldsRegion (two.setSlot 7 (boundSlot 0x11 0x1000 2 false)) 0x1000) 0 ∧ ∀ j, ¬HoldsRegion two 0x1001 j := by decide

theorem witness_BindFollowsItsRule_unbind : (0 : Addr) = 0 ∧ Lowest (HoldsId two 0x20) 1 ∧ ∀ j, ¬HoldsId two 0x99 j := by decide

theorem witness_BindFollowsItsRule_refused : (0x1000 : Addr) ≠ 0 ∧ (57 : Byte).toNat > 56 ∧
    (0xFFFFFFFF : Addr) ≠ 0 ∧ (0xFFFFFFFF : Addr).toNat + (2 : Byte).toNat > 2 ^ 32 := by decide

theorem witness_BindFollowsItsRule_bound : (0xFFFFFFC8 : Addr) ≠ 0 ∧ (56 : Byte).toNat ≤ 56 ∧
    (0xFFFFFFC8 : Addr).toNat + (56 : Byte).toNat ≤ 2 ^ 32 ∧ Lowest (HoldsId two 0x20) 1 ∧
    ((∀ j, ¬HoldsId two 0x99 j) ∧ Lowest (fun j => (two.slot j).used = false) 2) ∧
    (∀ j, ¬HoldsId full 0x99 j) ∧ ∀ j, (full.slot j).used = true := by decide

theorem witness_UnbindFreesTheSlot : Lowest (HoldsId two 0x10) 0 ∧ ∀ j, ¬HoldsId two 0x99 j := by decide

theorem witness_AbbreviationsAreExact : RegistryInv two ∧ Lowest (HoldsRegion two 0x2000) 1 := by decide

theorem witness_MarkReceivedWritesTheRegion : Lowest (HoldsId two 0x10) 0 ∧ two.mem.wf = true ∧
    (1 < min ([0xCC, 0xDD, 0xEE] : List Byte).length (two.slot 0).size.toNat) ∧
    ∀ k, k < min ([0xCC, 0xDD, 0xEE] : List Byte).length (two.slot 0).size.toNat →
      (0x1002 : Addr) ≠ (two.slot 0).region + BitVec.ofNat 32 k := by decide

theorem witness_FreshnessQueriesAnswerTheFlag : Lowest (HoldsId marked 0x10) 0 ∧ ∀ j, ¬HoldsId marked 0x99 j := by decide

theorem witness_TakeFreshTestsAndClears : Lowest (HoldsId marked 0x10) 0 ∧ (∀ j, ¬HoldsId marked 0x99 j) ∧
    Lowest (HoldsRegion marked 0x1000) 0 ∧ ∀ j, ¬HoldsRegion marked 0 j := by decide

theorem witness_TakeFreshTestsAndClears_twice :
    (∃ t, exec (.take 0x10) marked = .next t) ∧ ∃ t, exec (.takep 0x1000) marked = .next t := ⟨⟨_, rfl⟩, ⟨_, rfl⟩⟩

theorem witness_SendMarksTheItem : Lowest (HoldsId two 0x20) 1 ∧ (∀ j, ¬HoldsId two 0x99 j) ∧
    Lowest (HoldsRegion two 0x2000) 1 ∧ ∀ j, ¬HoldsRegion two 0x2001 j := by decide

/-- The operation takes this state to one in which the flag of slot `j`, which was `b`, is `!b`. -/
def flips (i : Instr) (s : State) (j : SlotIx) (flag : Slot → Bool) (b : Bool) : Bool :=
  flag (s.slot j) == b && after (exec i s) fun t => flag (t.slot j) == !b

theorem witness_OnlyTheirOperationsChangeTheFlags_binding : (Instr.send 0x10).isBind = false ∧
    ∃ t, exec (.send 0x10) two = .next t := ⟨rfl, _, rfl⟩

theorem witness_OnlyTheirOperationsChangeTheFlags_autoSend :
    flips (.bind 0x10 0x1000 2 true) two 0 Slot.autoSend false = true ∧
    flips (.bind 0x20 0x2000 4 false) two 1 Slot.autoSend true = true ∧
    flips (.unbind 0x20) two 1 Slot.autoSend true = true := by decide

theorem witness_OnlyTheirOperationsChangeTheFlags_received :
    flips (.decodePayload [0x10, 1, 2]) two 0 Slot.received false = true ∧
    flips (.take 0x10) marked 0 Slot.received true = true ∧
    flips (.bind 0x10 0x1000 2 false) marked 0 Slot.received true = true := by decide

theorem witness_OnlyTheirOperationsChangeTheFlags_toSend :
    flips (.sendp 0x1000) two 0 Slot.toSend false = true ∧
    flips (.constructFrame 100 false) marked 0 Slot.toSend true = true ∧
    flips (.unbind 0x10) marked 0 Slot.toSend true = true := by decide

theorem witness_OnlyTheirOperationsChangeTheFlags_wasAutoSent :
    flips (.encodePayload true) ((two.setSlot 0 (boundSlot 0x10 0x1000 50 true)).setSlot 1 (boundSlot 0x20 0x2000 50 true))
      0 Slot.wasAutoSent false = true ∧
    flips (.encodePayload true) (two.setSlot 1 { boundSlot 0x20 0x2000 4 true with wasAutoSent := true })
      1 Slot.wasAutoSent true = true := by decide +kernel

theorem witness_EngineWritesOnlyBoundRegions : RegistryInv (hears frame1) ∧ HooksWriteNothing (hears frame1) ∧
    (∃ t, exec (.stepCmd 0) (hears frame1) = .next t) ∧
    ∀ j : SlotIx, ((hears frame1).slot j).used = true → ¬InRegion ((hears frame1).slot j) 0x1002 :=
  ⟨by decide, fun _ h => (List.not_mem_nil h).elim, exists_next (by decide +kernel), by decide⟩

theorem witness_DecodePayloadFollowsItsLoop : Lowest (HoldsId two 0x10) 0 ∧
    (two.slot 0).size.toNat ≤ ([1, 2] : List Byte).length ∧ ([1] : List Byte).length < (two.slot 0).size.toNat ∧
    (∀ j, ¬HoldsId two 0x77 j) ∧ two.hookAnswers = [] ∧ (hooked 2 two).hookAnswers = .returns 2 [(0x3000, 0x77)] :: [] ∧
    (2 ≤ ([1, 2] : List Byte).length ∧ ([1] : List Byte).length < 2) := by decide

theorem witness_DecodePayloadKeepsTheEngine : HooksReturn (hooked 2 two) := by decide

theorem witness_SubpacketIsOnePass : Lowest (HoldsId two 0x10) 0 ∧ (two.slot 0).size.toNat ≤ ([1, 2] : List Byte).length ∧
    ([1] : List Byte).length < (two.slot 0).size.toNat ∧ (∀ j, ¬HoldsId two 0x77 j) ∧ two.hookAnswers = [] ∧
    (hooked 2 two).hookAnswers = .returns 2 [(0x3000, 0x77)] :: [] := by decide

theorem witness_EncodePayloadBuildsThePayload : two.txPending = false := rfl

theorem witness_AppendCopiesTheRegion :
    (({ two with outBuf := List.replicate 59 0 } : State).slot 0).used = true ∧
    ({ two with outBuf := List.replicate 59 0 } : State).outCur + 1 + (two.slot 0).size.toNat ≤ 62 ∧
    (held.slot 0).used = true ∧ held.txPending = true ∧ held.outCur + 1 + (held.slot 0).size.toNat ≤ 62 := by decide

theorem witness_EnqueueStagesOrFails : (List.replicate 56 (0 : Byte)).length = (56 : Byte).toNat ∧
    held.txPending = true ∧ two.txPending = false ∧ two.outCur + 1 + (56 : Byte).toNat ≤ 62 ∧
    62 < two.outCur + 1 + (57 : Byte).toNat := by decide

theorem witness_BufferPrimitivesFollowTheirRule : (buffered (List.replicate 64 0)).inCur ≤ 64 ∧
    (1 ≤ 3 ∧ 3 ≤ (buffered [1, 2, 3]).inCur) ∧ (buffered [1, 2, 3]).hookAnswers = [] ∧
    (hooked 2 (buffered [1, 2, 3])).hookAnswers = .returns 2 [(0x3000, 0x77)] :: [] := by decide

theorem witness_ScanningSlidesByOneByte : (buffered [0xAA]).inBuf = 0xAA :: [] ∧ (0xAA : Byte) ≠ 0x55 ∧
    (buffered [0x55, 0x55, 0xAA]).inBuf = 0x55 :: 0x55 :: [0xAA] ∧ (0x55 : Byte) ≠ 0xAA ∧
    (buffered [0x55]).inBuf = [0x55] ∧ two.inBuf = [] := by decide

theorem witness_CorruptLengthDiscardsAll :
    (buffered [0x55, 0xAA, 0x01, 0x00, 0x3A]).inBuf = 0x55 :: 0xAA :: 0x01 :: 0x00 :: 0x3A :: [] ∧ 57 < (0x3A : Byte).toNat ∧
    (buffered [0x55, 0xAA, 0x01, 0x00, 0x3A]).hookAnswers = [] ∧ (hooked 0 two).hookAnswers = .returns 0 [(0x3000, 0x77)] :: [] := by
  decide

theorem witness_ChecksumMismatchDiscardsTheCandidate : ([] : List Byte).length ≤ 57 ∧
    (buffered [0x55, 0xAA, 0x01, 0x00, 0x00, 0x01, 0x00]).inBuf =
      [0x55, 0xAA, 0x01, 0x00, BitVec.ofNat 8 ([] : List Byte).length] ++ [] ++ [0x01, 0x00] ++ [] ∧
    (0x00 : Byte) ++ (0x01 : Byte) ≠ checksum16 (BitVec.ofNat 8 ([] : List Byte).length :: []) ∧ two.hookAnswers = [] ∧
    (hooked 0 two).hookAnswers = .returns 0 [(0x3000, 0x77)] :: [] := by decide +kernel

theorem witness_FrameIsAccepted : ([0x10, 0xAA, 0xBB] : List Byte).length ≤ 57 ∧ HooksReturn (buffered (frame1 ++ [0x99])) ∧
    (buffered (frame1 ++ [0x99])).inBuf = encodeFrame 0x01 0x00 [0x10, 0xAA, 0xBB] ++ [0x99] := by decide +kernel

theorem witness_ReaderRestsWithRoom : HooksReturn (hooked 1 (hears frame1)) := by decide

theorem witness_ReaderLeavesTheWriterAlone : HooksReturn (hooked 1 (hears frame1)) := by decide

theorem witness_NoiseBeforeAFrameIsSkipped_noise : ¬([0x55, 0xAA] : List Byte) <:+: [0xAA, 0x55] ∧
    ∃ u, exec .fill (hears [0xAA, 0x55]) = .next u ∧ u.inBuf = [0xAA, 0x55] := ⟨by decide, _, rfl, by decide⟩

theorem witness_NoiseBeforeAFrameIsSkipped_waits : ¬([0x55, 0xAA] : List Byte) <:+: [0x55] ∧
    ∃ u, exec .fill (hears (0x55 :: frame1.take 9)) = .next u ∧ 1 ≤ 9 ∧ 9 < 7 + ([0x10, 0xAA, 0xBB] : List Byte).length ∧
      u.inBuf = [0x55] ++ (encodeFrame 0x01 0x00 [0x10, 0xAA, 0xBB]).take 9 :=
  ⟨by decide, _, rfl, by decide, by decide, by decide +kernel⟩

theorem witness_NoiseBeforeAFrameIsSkipped_frame : ∃ u, exec .fill (hears (0x55 :: frame1)) = .next u ∧
    u.inBuf = [0x55] ++ encodeFrame 0x01 0x00 [0x10, 0xAA, 0xBB] ++ [] ∧ HooksReturn (hears (0x55 :: frame1)) :=
  ⟨_, rfl, by decide +kernel, by decide⟩

theorem witness_WriterPhaseFollowsItsRule_suppressed : ({ two with waitFirst := true } : State).waitFirst = true ∧
    ({ two with waitFirst := true } : State).gotFirst = false := by decide

theorem witness_WriterPhaseFollowsItsRule : two.waitFirst = false ∧ held.txPending = true ∧ two.txPending = false ∧
    (∀ i, ¬((two.slot i).used = true ∧ (two.slot i).toSend = true)) ∧ two.outCur ≤ 5 ∧
    decide (500 + 7500 * two.backlog / 64 ≤ ((499 : Time) - two.lastAutoSendTime).toNat) = false ∧
    decide (500 + 7500 * two.backlog / 64 ≤ ((500 : Time) - two.lastAutoSendTime).toNat) = true ∧
    (∃ i, (marked.slot i).used = true ∧ (marked.slot i).toSend = true) := by decide

/-- Staged payload alone is a reason to emit (R193). -/
theorem witness_WriterPhaseFollowsItsRule_staged :
    ({ two with outBuf := List.replicate 6 0 } : State).txPending = false ∧
    ({ two with outBuf := List.replicate 6 0 } : State).waitFirst = false ∧
    (∀ i, ¬((two.slot i).used = true ∧ (two.slot i).toSend = true)) ∧
    5 < ({ two with outBuf := List.replicate 6 0 } : State).outCur ∧
    decide (500 + 7500 * two.backlog / 64 ≤ ((499 : Time) - two.lastAutoSendTime).toNat) = false := by decide

theorem witness_ConstructFrameBuildsTheFrame :
    ({ two with outBuf := List.replicate 62 0 } : State).txPending = false ∧
    5 ≤ ({ two with outBuf := List.replicate 62 0 } : State).outCur ∧ ({ two with outBuf := List.replicate 62 0 } : State).outCur ≤ 62 := by
  decide

theorem witness_TransmissionAttemptOffersTheRest : held.txPending = true ∧
    held.txPos + 6 = held.outCur ∧ held.txPos + 5 ≠ held.outCur := by decide

theorem witness_PaceIsLinearBetweenItsBounds : 0 ≤ 64 ∧ 64 ≤ 64 := by decide

theorem witness_HeldFrameIsImmutable : Inv (asked { op := 0x03, now := 600 } held) ∧
    (asked { op := 0x03, now := 600 } held).txPending = true ∧
    (asked { op := 0x03, now := 600 } held).inputs.head? = some (.command { op := 0x03, now := 600 }) ∧ (0x03 : Byte) ≠ 0x02 ∧
    ∃ t, step (asked { op := 0x03, now := 600 } held) = .next t :=
  ⟨witness_inv_held, rfl, rfl, by decide, exists_next (by decide)⟩

theorem witness_AutosendKeepsItsInterval : (∃ t, exec (.stepCmd 500) two = .next t ∧ t.lastAutoSendTime ≠ two.lastAutoSendTime) ∧
    HooksReturn two ∧ two.txPending = false ∧ two.waitFirst = false ∧ { two with backlog := 64 }.backlog ≤ 64 ∧
    8000 ≤ ((8000 : Time) - two.lastAutoSendTime).toNat := by
  refine ⟨?_, by decide, rfl, rfl, by decide, by decide⟩
  obtain ⟨t, e, h⟩ := after_spec (o := exec (.stepCmd 500) two) (p := fun t => decide (t.lastAutoSendTime ≠ two.lastAutoSendTime))
    (by decide +kernel)
  exact ⟨t, e, of_decide_eq_true h⟩

theorem witness_WriterLeavesTheReaderAlone : EngineInv two := by decide

theorem witness_QueuedItemLeavesInTheNextFrame : RegistryInv marked ∧ marked.txPending = false ∧ marked.outCur = 5 ∧
    marked.waitFirst = false ∧ Lowest (fun j => (marked.slot j).used = true ∧ (marked.slot j).toSend = true) 0 ∧
    marked.txCounts = [] := by decide

theorem witness_HookCallsAnswer_writes : two.mem.wf = true ∧
    ([(0x1000, 1), (0x1000, 2)] : List (Addr × Byte)) = [(0x1000, 1)] ++ (0x1000, 2) :: [] ∧
    (0x1000 : Addr) ∉ ([] : List (Addr × Byte)).map Prod.fst ∧
    (0x1001 : Addr) ∉ ([(0x1000, 1), (0x1000, 2)] : List (Addr × Byte)).map Prod.fst := by decide

theorem witness_HookCallsAnswer : two.hookAnswers = [] ∧ (hooked 1 two).hookAnswers = .returns 1 [(0x3000, 0x77)] :: [] ∧
    ({ two with hookAnswers := [.hangs] } : State).hookAnswers = .hangs :: [] := by decide

theorem witness_OutsideTheirConditionsOperationsStop : (buffered [1, 2, 3]).inCur < 4 ∧ (two.slot 2).used = false ∧
    62 < ({ two with outBuf := List.replicate 60 0 } : State).outCur + 1 + (two.slot 0).size.toNat ∧
    held.txPending = true ∧ two.txPending = false := by decide

/-- `marked`, whose transmit transport takes 4 bytes and then all that is offered; a STEP waits for it. -/
def sender : State := { asked { op := 0x03, now := 101 } marked with txCounts := [4] }

/-- An engine with a lone `0x55` buffered, whose receive transport holds `frame1` and delivers 6 bytes and then the rest. -/
def receiver : State := { hears frame1 with inBuf := [0x55], rxCounts := [6] }

/-- `sender` constructs a frame in a tick, holds it, and has handed over all of it one step later. -/
theorem witness_LoopbackConverges_sends : Inv sender ∧ ∃ x', exec (.stepCmd 100) sender = .next x' ∧
    x'.mySerial ≠ sender.mySerial ∧ x'.txPending = true ∧ ∃ z, Transmits x' z ∧ z.txPending = false := by
  obtain ⟨x', e, h⟩ := after_spec (o := exec (.stepCmd 100) sender)
    (p := fun t => decide (t.mySerial ≠ sender.mySerial ∧ t.txPending = true ∧ t.inputs = sender.inputs) &&
      after (step t) (fun z => !z.txPending)) (by decide +kernel)
  obtain ⟨h1, h2⟩ := Bool.and_eq_true _ _ ▸ h
  obtain ⟨h3, h4, h5⟩ := of_decide_eq_true h1
  obtain ⟨z, e', h6⟩ := after_spec h2
  refine ⟨by decide, x', e, h3, h4, z, .more h4 (by rw [h5]; decide) (fun p hp => ?_) e' (.done z), by simpa using h6⟩
  rw [h5] at hp
  obtain rfl : p = { op := 0x03, now := 101 } := by cases hp; rfl
  decide

/-- `receiver` takes 6 bytes of `frame1` in one tick and the rest in the next, in which it constructs a frame. -/
theorem witness_LoopbackConverges_receives : receiver.inBuf = [0x55] ∧ ∃ t v, Takes receiver (frame1.take 6) t ∧
    SameReader t t ∧ EngineInv t ∧ exec (.stepCmd 500) t = .next v ∧ t.rxHeld = frame1.drop 6 ++ v.rxHeld ∧
    frame1.take 6 ++ frame1.drop 6 = frame1 ∧ v.mySerial ≠ t.mySerial ∧ Takes receiver frame1 v := by
  obtain ⟨t, e, h⟩ := after_spec (o := exec (.stepCmd 100) receiver)
    (p := fun t => decide (receiver.rxHeld = frame1.take 6 ++ t.rxHeld ∧ EngineInv t) &&
      after (exec (.stepCmd 500) t) (fun v => decide (t.rxHeld = frame1.drop 6 ++ v.rxHeld ∧ v.mySerial ≠ t.mySerial)))
    (by decide +kernel)
  obtain ⟨h1, h2⟩ := Bool.and_eq_true _ _ ▸ h
  obtain ⟨h3, h4⟩ := of_decide_eq_true h1
  obtain ⟨v, e', h5⟩ := after_spec h2
  obtain ⟨h6, h7⟩ := of_decide_eq_true h5
  have same : ∀ s, SameReader s s := fun _ => ⟨rfl, rfl, rfl⟩
  have ht : Takes receiver (frame1.take 6) t := .more (.none receiver) (same _) e h3
  exact ⟨rfl, t, v, ht, same t, h4, e', h6, rfl, h7, .more ht (same t) e' h6⟩

end Sys2Proof.Tests
end

/-! PROOFS. The family of spec/10_state.md: the values after reset and `begin` (R43), and the invariant of a state between
two operations, which reset meets and every step of the machine keeps (R27, R42, R171, R185, R192). -/

namespace Sys2Proof.Machine

/-! What a step can do (R221, R253) -/

/-- The operations a presentation at the command port can stand for: the eleven commands and the reserved codes
(R92, R93). -/
inductive IsCommand : Instr → Prop where
  | bind (id : Byte) (region : Addr) (size : Byte) (autoSend : Bool) : IsCommand (.bind id region size autoSend)
  | beginCmd (w : Bool) : IsCommand (.beginCmd w)
  | stepCmd (now : Time) : IsCommand (.stepCmd now)
  | rser : IsCommand .rser
  | isrx (id : Byte) : IsCommand (.isrx id)
  | clrx (id : Byte) : IsCommand (.clrx id)
  | take (id : Byte) : IsCommand (.take id)
  | takep (region : Addr) : IsCommand (.takep region)
  | send (id : Byte) : IsCommand (.send id)
  | sendp (region : Addr) : IsCommand (.sendp region)
  | enq (id : Byte) (data : List Byte) (length : Byte) : IsCommand (.enq id data length)
  | reserved (op : Byte) : IsCommand (.reserved op)

theorem isCommand_of_decodePort {p : PortCmd} {i : Instr} (h : decodePort p = .ok i) : IsCommand i := by
  unfold decodePort at h
  split at h
  case h_11 =>
    split at h
    · cases h
    · cases h
      exact .enq _ _ _
  all_goals cases h; constructor

/-- A step that answers a next state holds the state, applies an event of the outside, or runs a decoded command. -/
theorem step_eq_next {s t : State} (h : step s = .next t) :
    (s.inputs = [] ∧ t = s) ∨
    (∃ e rest, s.inputs = .env e :: rest ∧ t = environment e { s with inputs := rest }) ∨
    ∃ p i rest, s.inputs = .command p :: rest ∧ decodePort p = .ok i ∧ exec i { s with inputs := rest } = .next t := by
  unfold step takeInput at h
  rcases hin : s.inputs with _ | ⟨x, rest⟩
  · rw [hin] at h
    cases h
    exact .inl ⟨rfl, rfl⟩
  · rw [hin] at h
    cases x with
    | env e =>
      cases h
      exact .inr (.inl ⟨e, rest, rfl, rfl⟩)
    | command p =>
      simp only at h
      split at h
      · exact .inr (.inr ⟨p, _, rest, rfl, ‹_›, h⟩)
      · cases h

/-- `enqueuePayload` records E_SPACE, or stages the data with no frame held and within the 62 bytes (R164). -/
theorem enqueue_cases (id : Byte) (data : List Byte) (length : Byte) (s : State) :
    enqueue id data length s = (s.fail .space, false) ∨
    (s.txPending = false ∧ s.outCur + 1 + length.toNat ≤ 62 ∧
      enqueue id data length s = (stage id (data.take length.toNat) s, true)) := by
  have hlimit : stageLimit = 62 := rfl
  unfold enqueue roomFor
  rw [hlimit]
  by_cases hp : s.txPending = true
  · exact .inl (if_pos hp)
  · by_cases hr : s.outCur + 1 + length.toNat ≤ 62
    · exact .inr ⟨by simpa using hp, hr, by simp [hp, hr]⟩
    · exact .inl (by simp [hp, hr])

/-! Reset and `begin` (R43) -/

theorem slot_reset (i : SlotIx) : State.reset.slot i = Slot.free := by
  simp [State.slot, State.reset]

/-- `begin` keeps the header bytes of the output buffer alone (R43). -/
theorem beginEngine_outCur (w : Bool) {s : State} (h : 5 ≤ s.outCur) : (beginEngine w s).outCur = 5 := by
  rw [State.outCur] at h
  rw [State.outCur, beginEngine_outBuf, List.length_take, Config.hdrLen_eq]
  omega

/-- Settles O1: the values after hardware reset, and `begin` by its two halves, the registers and the output cursor. -/
theorem resetAndBeginValues : Obligations.ResetAndBeginValues := by
  unfold Obligations.ResetAndBeginValues
  refine ⟨⟨slot_reset, rfl, rfl, rfl, rfl, rfl, rfl, rfl, rfl, rfl, rfl⟩, fun w s h5 => ?_⟩
  exact ⟨(beginEngine w s).respond .none, rfl, rfl, rfl, rfl, rfl, rfl, rfl, rfl, beginEngine_outCur w h5, rfl, rfl, rfl,
    rfl⟩

/-! The invariant at reset and after `begin` -/

/-- A registry of cleared slots meets its invariant (R22, R27). -/
theorem RegistryInv.of_free {s : State} (h : ∀ i, s.slot i = Slot.free) : RegistryInv s := by
  refine ⟨fun i => ?_, fun i _ hi => ?_⟩
  · rw [h i]
    exact rfl
  · rw [h i] at hi
    cases hi

theorem readerState_congr {s t : State} (h : t.inBuf = s.inBuf) : readerState t = readerState s := by
  rw [readerState, readerState, h]

/-- The invariant of the engine registers in three parts: the input buffer at rest, the output side, and the silence of a
suppressed Writer (R171, R42, R192). -/
theorem EngineInv.intro {s : State} (hrest : readerState s ≠ .dispatch) (hout : OutInv s)
    (hsilent : suppressed s = true → s.txPending = false ∧ s.mySerial = 0) : EngineInv s :=
  ⟨hrest, inCur_of_rest hrest, hout.lo, hout.hi, hout.free, hout.held, hout.backlog, hsilent⟩

theorem EngineInv.rest {s : State} (h : EngineInv s) : readerState s ≠ .dispatch := h.1

/-- A suppressed Writer has sent nothing (R192). -/
theorem EngineInv.silent {s : State} (h : EngineInv s) (hs : suppressed s = true) :
    s.txPending = false ∧ s.mySerial = 0 := by
  obtain ⟨_, _, _, _, _, _, _, hsilent⟩ := h
  exact hsilent hs

/-- Empty buffers and cleared registers meet the invariant, whatever the mode (R43). -/
theorem EngineInv.of_fresh {s : State} (hin : s.inBuf = []) (hout : s.outCur = 5) (hp : s.txPending = false)
    (hpos : s.txPos = 0) (hb : s.backlog = 0) (hm : s.mySerial = 0) : EngineInv s := by
  refine .intro ?_ ⟨by omega, by omega, fun _ => ⟨hpos, by omega⟩, fun hheld => ?_, by omega⟩ fun _ => ⟨hp, hm⟩
  · rw [readerState, hin]
    decide
  · rw [hp] at hheld
    cases hheld

theorem EngineInv.beginEngine (w : Bool) {s : State} (h : EngineInv s) : EngineInv (beginEngine w s) :=
  .of_fresh rfl (beginEngine_outCur w h.out.lo) rfl rfl rfl rfl

/-- The reset input leaves a state that meets the invariant, whatever it was before (R260). -/
theorem Inv.hardwareReset {s : State} (h : s.mem.wf = true) : Inv (hardwareReset s) :=
  ⟨.of_free slot_reset, .of_fresh rfl rfl rfl rfl rfl rfl, h⟩

/-- Settles O6: cleared slots, fresh engine registers, empty memory. -/
theorem invariantAtReset : Obligations.InvariantAtReset := by
  unfold Obligations.InvariantAtReset
  exact ⟨.of_free slot_reset, .of_fresh rfl rfl rfl rfl rfl rfl, rfl⟩

/-! The invariant through the shared updates -/

theorem Inv.respond {s : State} (h : Inv s) (r : Response) : Inv (s.respond r) := h

theorem Inv.fail {s : State} (h : Inv s) (c : ErrorCode) : Inv (s.fail c) := h

theorem Inv.takeInput {s : State} (h : Inv s) (rest : List Input) : Inv { s with inputs := rest } := h

/-- An operation that changes nothing but slots keeps the whole invariant once it keeps the registry's. -/
theorem Inv.of_slots {s t : State} (h : Inv s) (ht : t = { s with slots := t.slots }) (hr : RegistryInv t) : Inv t := by
  obtain ⟨_, hengine, hmem⟩ := h
  refine ⟨hr, ?_, ?_⟩ <;> rw [ht]
  · exact hengine
  · exact hmem

/-! The invariant through each command -/

theorem Inv.bindItem {s : State} (h : Inv s) (id : Byte) (region : Addr) (size : Byte) (autoSend : Bool) :
    Inv (bindItem id region size autoSend s) := by
  have hr := h.1.bindItem id region size autoSend
  rcases bindItem_cases id region size autoSend s with ⟨_, i, _, e⟩ | ⟨_, _, e⟩ | ⟨_, _, e⟩ | ⟨_, _, _, i, _, e⟩ |
    ⟨_, _, _, _, e⟩ <;> rw [e] at hr ⊢
  · exact h.of_slots rfl hr
  · exact h
  · exact h.fail .arg
  · exact h.of_slots rfl hr
  · exact h.fail .full

section Found

variable {s : State} {found : Option SlotIx}

theorem Inv.testAt (h : Inv s) : Inv (testAt found s).1 := by
  cases found with
  | none => exact h.fail .notFound
  | some i => exact h

theorem Inv.clearAt (h : Inv s) (hu : ∀ i, found = some i → (s.slot i).used = true) : Inv (clearAt found s) := by
  cases found with
  | none => exact h.fail .notFound
  | some i => exact h.of_slots rfl (h.1.setReceived (hu i rfl) false)

theorem Inv.takeAt (h : Inv s) (hu : ∀ i, found = some i → (s.slot i).used = true) : Inv (takeAt found s).1 := by
  cases found with
  | none => exact h.fail .notFound
  | some i => exact h.of_slots rfl (h.1.setReceived (hu i rfl) false)

theorem Inv.markAt (h : Inv s) (hu : ∀ i, found = some i → (s.slot i).used = true) : Inv (markAt found s).1 := by
  cases found with
  | none => exact h.fail .notFound
  | some i => exact h.of_slots rfl (h.1.setToSend (hu i rfl) true)

end Found

theorem lookup_used {id : Byte} {s : State} (i : SlotIx) (h : lookup id s = some i) : (s.slot i).used = true :=
  (lookup_holds h).1

theorem lookupByRegion_used {region : Addr} {s : State} (i : SlotIx) (h : lookupByRegion region s = some i) :
    (s.slot i).used = true :=
  (lookupByRegion_eq_some.mp h).1.1

/-- Staging within the 62 bytes while no frame is held keeps the output side (R162, R164). -/
theorem OutInv.stage {s : State} (h : OutInv s) (hp : s.txPending = false) (typ : Byte) {data : List Byte}
    (hroom : s.outCur + 1 + data.length ≤ 62) : OutInv (stage typ data s) := by
  have hcur : (Machine.stage typ data s).outCur = s.outCur + 1 + data.length := by
    simp only [State.outCur, stage_outBuf, List.length_append, List.length_cons]
    omega
  have hlo := h.lo
  refine ⟨by omega, by omega, fun _ => ⟨(h.free hp).1, by omega⟩, fun hheld => ?_, h.backlog⟩
  rw [stage_txPending, hp] at hheld
  cases hheld

theorem Inv.enqueue {s : State} (h : Inv s) (id : Byte) (data : List Byte) (length : Byte) :
    Inv (enqueue id data length s).1 := by
  rcases enqueue_cases id data length s with e | ⟨hp, hroom, e⟩ <;> rw [e]
  · exact h.fail .space
  · obtain ⟨hregistry, hengine, hmem⟩ := h
    have hlen : (data.take length.toNat).length ≤ length.toNat := List.length_take_le _ _
    exact ⟨hregistry, .intro hengine.rest (hengine.out.stage hp id (by omega)) hengine.silent, hmem⟩

theorem Inv.beginEngine {s : State} (h : Inv s) (w : Bool) : Inv (beginEngine w s) := by
  obtain ⟨hregistry, hengine, hmem⟩ := h
  exact ⟨hregistry, hengine.beginEngine w, hmem⟩

/-! The invariant through a tick (R218) -/

/-- The Reader leaves the output side alone (R187). -/
theorem OutInv.reads {s t : State} (h : OutInv s) (hr : Reads s t) : OutInv t := by
  apply h.congr <;> rw [hr.eq]

/-- The Reader lifts a suppression, and never brings one about (R187, R192). -/
theorem suppressed_of_reads {s t : State} (h : Reads s t) (ht : suppressed t = true) : suppressed s = true := by
  have hw : t.waitFirst = s.waitFirst := by rw [h.eq]
  simp only [suppressed, Bool.and_eq_true, Bool.not_eq_true'] at ht ⊢
  obtain ⟨hwait, hgot⟩ := ht
  exact ⟨hw ▸ hwait, Bool.eq_false_iff.mpr fun hs => Bool.eq_false_iff.mp hgot (h.got hs)⟩

/-- The Reader phase brings the input buffer to rest and keeps the rest of the invariant (R185, R187). -/
theorem Inv.readerPhase {s t : State} (h : Inv s) (e : readerPhase s = .next t) : Inv t := by
  obtain ⟨hregistry, hengine, hmem⟩ := h
  obtain ⟨hr, hrest⟩ := readerPhase_eq_next e
  have hout : OutInv (fill s) := hengine.out.congr rfl rfl rfl rfl rfl
  refine ⟨RegistryInv.reads (s := fill s) hregistry hr, .intro hrest (hout.reads hr) fun ht => ?_, hr.wf hmem⟩
  have hs : suppressed (fill s) = true := suppressed_of_reads hr ht
  rw [hr.eq]
  exact hengine.silent hs

/-- The Writer phase keeps the invariant: it leaves the input side alone, and does nothing while suppressed (R192, R210). -/
theorem Inv.writerPhase {s : State} (h : Inv s) (now : Time) : Inv (writerPhase now s) := by
  obtain ⟨hregistry, hengine, hmem⟩ := h
  have hw := writerPhase_writes now s
  have hin : (Machine.writerPhase now s).inBuf = s.inBuf := by rw [hw.eq]
  have hm : (Machine.writerPhase now s).mem = s.mem := by rw [hw.eq]
  have hs : suppressed (Machine.writerPhase now s) = suppressed s := by rw [hw.eq]; rfl
  refine ⟨hregistry.writerPhase now, .intro ?_ (hengine.out.writerPhase now) fun ht => ?_, hm ▸ hmem⟩
  · rw [readerState_congr hin]
    exact hengine.rest
  · rw [hs] at ht
    have idle : Machine.writerPhase now s = s := by rw [Machine.writerPhase, if_pos ht]
    rw [idle]
    exact hengine.silent ht

theorem Inv.tick {s t : State} (h : Inv s) {now : Time} (e : tick now s = .next t) : Inv t := by
  obtain ⟨u, hu, _, _, rfl⟩ := tick_eq_next e
  exact (h.readerPhase hu).writerPhase now

/-! The invariant through a step -/

/-- What the outside does between two operations keeps the invariant. -/
theorem Inv.environment {s : State} (h : Inv s) (e : EnvEvent) : Inv (environment e s) := by
  obtain ⟨hregistry, hengine, hmem⟩ := h
  cases e with
  | appWrite a v => exact ⟨hregistry, hengine, appStore_wf a v hmem⟩
  | arrive bytes => exact ⟨hregistry, hengine, hmem⟩
  | rxChoices counts => exact ⟨hregistry, hengine, hmem⟩
  | txChoices counts => exact ⟨hregistry, hengine, hmem⟩
  | hookChoices answers => exact ⟨hregistry, hengine, hmem⟩
  | reset => exact .hardwareReset hmem

/-- A command keeps the invariant. -/
theorem Inv.exec_command {s t : State} (h : Inv s) {i : Instr} (hi : IsCommand i) (e : exec i s = .next t) : Inv t := by
  cases hi with
  | bind id region size autoSend => cases e; exact (h.bindItem id region size autoSend).respond _
  | beginCmd w => cases e; exact (h.beginEngine w).respond _
  | stepCmd now =>
    obtain ⟨u, hu, hrsp⟩ := andThen_eq_next.mp e
    cases hrsp
    exact (h.tick hu).respond _
  | rser => cases e; exact h.respond _
  | isrx id => cases e; exact h.testAt.respond _
  | clrx id => cases e; exact (h.clearAt lookup_used).respond _
  | take id => cases e; exact (h.takeAt lookup_used).respond _
  | takep region => cases e; exact (h.takeAt lookupByRegion_used).respond _
  | send id => cases e; exact (h.markAt lookup_used).respond _
  | sendp region => cases e; exact (h.markAt lookupByRegion_used).respond _
  | enq id data length => cases e; exact (h.enqueue id data length).respond _
  | reserved op => cases e; exact h.respond _

/-- Settles O7, by what a step can do: hold the state, apply an event of the outside, or run a command. -/
theorem everyStepKeepsTheInvariant : Obligations.EveryStepKeepsTheInvariant := by
  unfold Obligations.EveryStepKeepsTheInvariant
  intro s t h hstep
  rcases step_eq_next hstep with ⟨_, rfl⟩ | ⟨e, rest, _, rfl⟩ | ⟨p, i, rest, _, hdecode, hexec⟩
  · exact h
  · exact (h.takeInput rest).environment e
  · exact (h.takeInput rest).exec_command (isCommand_of_decodePort hdecode) hexec

end Sys2Proof.Machine

/-! PROOFS. The family of spec/20_memory.md: what the outside does to application memory and the transports between two
operations (R60, R63, R66, R247, R248), and that the block writes no byte of memory outside the regions of the used slots
(R61, R156). -/

namespace Sys2Proof

/-- The operations that can store to application memory: those in which an item's data may be copied into its region
(R134), and those that otherwise call a hook (R172, R236, R238). -/
def Instr.mayStore : Instr → Bool
  | .markReceived _ _ | .dispatchItem _ _ | .decodePayload _ | .subpacket _ _ | .frame _ _ _ | .readerPhase
  | .stepCmd _ | .discard _ | .notifyDiscard _ | .unknownHook _ _ => true
  | _ => false

namespace Machine

/-! Events of the outside (R60, R247, R248) -/

/-- With an event of the outside as the next input, a step applies it. -/
theorem step_env {s : State} {e : EnvEvent} {rest : List Input} (h : s.inputs = .env e :: rest) :
    step s = .next (environment e { s with inputs := rest }) := by
  rw [step, takeInput, h]

/-- Settles O5: each clause is one event of the outside; a stored byte reads back by the canonical form of memory. -/
theorem outsideEventsReachMemoryAndTransport : Obligations.OutsideEventsReachMemoryAndTransport := by
  unfold Obligations.OutsideEventsReachMemoryAndTransport
  refine ⟨fun s a v rest h hwf => ?_, fun _ _ _ h => step_env h,
    fun _ _ _ => ⟨fun h => step_env h, fun h => step_env h⟩, fun _ _ _ h => step_env h⟩
  refine ⟨appStore a v { s with inputs := rest }, step_env h, rfl, byteAt_appStore_same v hwf, fun b hb => ?_⟩
  exact byteAt_appStore_ne v _ hb

/-! The operations that leave memory alone -/

theorem bindItem_mem (id : Byte) (region : Addr) (size : Byte) (autoSend : Bool) (s : State) :
    (bindItem id region size autoSend s).mem = s.mem := by
  rcases bindItem_cases id region size autoSend s with ⟨_, _, _, e⟩ | ⟨_, _, e⟩ | ⟨_, _, e⟩ | ⟨_, _, _, _, _, e⟩ |
    ⟨_, _, _, _, e⟩ <;> rw [e] <;> rfl

theorem testAt_mem (found : Option SlotIx) (s : State) : (testAt found s).1.mem = s.mem := by
  cases found <;> rfl

theorem clearAt_mem (found : Option SlotIx) (s : State) : (clearAt found s).mem = s.mem := by
  cases found <;> rfl

theorem takeAt_mem (found : Option SlotIx) (s : State) : (takeAt found s).1.mem = s.mem := by
  cases found <;> rfl

theorem markAt_mem (found : Option SlotIx) (s : State) : (markAt found s).1.mem = s.mem := by
  cases found <;> rfl

theorem enqueue_mem (id : Byte) (data : List Byte) (length : Byte) (s : State) :
    (enqueue id data length s).1.mem = s.mem := by
  rcases enqueue_cases id data length s with e | ⟨_, _, e⟩ <;> rw [e] <;> rfl

/-- The Writer only reads application memory (R210). -/
theorem Writes.mem {s t : State} (h : Writes s t) : t.mem = s.mem := by
  rw [h.eq]

/-- An operation with a condition that answers a next state met its condition. -/
theorem eq_next_of_guard {c : Prop} [Decidable c] {o : Host.Outcome State Fault Refusal} {f : Fault} {t : State}
    (h : (if c then o else .fault f) = .next t) : o = .next t := by
  split at h
  · exact h
  · cases h

/-- An operation with a condition against it that answers a next state did not meet it. -/
theorem eq_next_of_guard_not {c : Prop} [Decidable c] {o : Host.Outcome State Fault Refusal} {f : Fault} {t : State}
    (h : (if c then .fault f else o) = .next t) : o = .next t := by
  split at h
  · cases h
  · exact h

/-- Every operation but those of `Instr.mayStore` leaves application memory as it is. -/
theorem exec_keeps_mem {i : Instr} {s t : State} (hi : i.mayStore = false) (h : exec i s = .next t) :
    t.mem = s.mem := by
  cases i with
  | bind | unbind => cases h; exact bindItem_mem ..
  | isrx => cases h; exact testAt_mem ..
  | clrx => cases h; exact clearAt_mem ..
  | take | takep => cases h; exact takeAt_mem ..
  | send | sendp | markToSend => cases h; exact markAt_mem ..
  | enq => cases h; exact enqueue_mem ..
  | writerPhase now => cases h; exact (writerPhase_writes now s).mem
  | encodePayload due => cases eq_next_of_guard_not h; exact (encodePayload_writes due s).mem
  | constructFrame now due => cases eq_next_of_guard_not h; exact (constructFrame_writes now due s).mem
  | txAttempt => cases eq_next_of_guard h; exact (txAttempt_writes s).mem
  | append | drop => cases eq_next_of_guard h; rfl
  | beginCmd | rser | reserved | checksum16 | crcInit | crcByte | lookup | lookupByRegion | fits | fill | pace
  | backlogUpdate | transportRead | transportWrite => cases h; rfl
  | markReceived | dispatchItem | decodePayload | subpacket | frame | readerPhase | stepCmd | discard | notifyDiscard
  | unknownHook => cases hi

/-! Writes within the bound regions (R61, R156) -/

/-- Between the two states no byte outside the regions of the used slots changes, where the hooks write nothing. -/
def BoundWrites (s t : State) : Prop := HooksWriteNothing s → ∀ a, Outside s a → t.byteAt a = s.byteAt a

theorem BoundWrites.of_mem {s t : State} (h : t.mem = s.mem) : BoundWrites s t := fun _ a _ => byteAt_of_mem h a

/-- What leaves memory alone afterwards adds no write. -/
theorem BoundWrites.trans_mem {s t u : State} (h : BoundWrites s t) (hm : u.mem = t.mem) : BoundWrites s u :=
  fun hw a ha => (byteAt_of_mem hm a).trans (h hw a ha)

/-- Every operation writes within the bound regions alone: those that can store do so by decoding, by the Reader or by a
hook, and the others leave memory as it is. -/
theorem exec_boundWrites {i : Instr} {s t : State} (h : exec i s = .next t) : BoundWrites s t := by
  by_cases hi : i.mayStore = false
  · exact .of_mem (exec_keeps_mem hi h)
  cases i with
  | markReceived id src => cases h; exact (markReceived_decoded id src s).outside
  | dispatchItem typ data => cases h; exact (markReceived_decoded typ data s).outside
  | decodePayload => exact (decodePayload_decoded h).outside
  | subpacket =>
    obtain ⟨r, hr, e⟩ := andThen_eq_next.mp h
    cases e
    exact (decodePass_decoded hr).1.outside
  | frame =>
    obtain ⟨_, _, _, _, hreads, _⟩ := acceptFrame_eq_next h
    exact hreads.outside
  | readerPhase =>
    obtain ⟨hreads, _⟩ := readerPhase_eq_next h
    exact hreads.outside
  | stepCmd now =>
    obtain ⟨u, hu, e⟩ := andThen_eq_next.mp h
    cases e
    obtain ⟨v, _, hreads, _, rfl⟩ := tick_eq_next hu
    have hreader : BoundWrites s v := hreads.outside
    exact hreader.trans_mem (writerPhase_writes now v).mem
  | discard =>
    obtain ⟨_, _, _, _, hreads, _⟩ := discardBytes_eq_next (eq_next_of_guard h)
    exact hreads.outside
  | notifyDiscard => exact (notifyDiscard_decoded h).outside
  | unknownHook =>
    obtain ⟨r, hr, e⟩ := andThen_eq_next.mp h
    cases e
    exact (unknownHook_decoded hr).outside
  | _ => exact absurd rfl hi

/-- On a legal registry no region wraps, so a byte in no region is none of the bytes at base plus offset (R25, R61). -/
theorem outside_of_not_inRegion {s : State} {a : Addr} (hr : RegistryInv s)
    (h : ∀ j : SlotIx, (s.slot j).used = true → ¬InRegion (s.slot j) a) : Outside s a := by
  intro i hu k hk e
  obtain ⟨hlegal, _⟩ := hr
  have hl := hlegal i
  rw [Slot.legal, if_pos hu] at hl
  obtain ⟨_, _, htop⟩ := hl
  have ha : a.toNat = (s.slot i).region.toNat + k := by
    rw [e, BitVec.toNat_add, BitVec.toNat_ofNat, Config.addresses_eq]
    omega
  exact h i hu ⟨by omega, by omega⟩

/-- Settles O33: every operation writes within the bound regions, and on a legal registry those are the regions by
address. -/
theorem engineWritesOnlyBoundRegions : Obligations.EngineWritesOnlyBoundRegions := by
  unfold Obligations.EngineWritesOnlyBoundRegions
  intro i s t a hr hw h hout
  exact exec_boundWrites h hw a (outside_of_not_inRegion hr hout)

end Machine

end Sys2Proof

/-! PROOFS. The family of spec/30_encoding.md: decoding the words of an operation gives it back (R80 to R96), the bytes of a
frame (R80 to R84), the operation codes (R92, R93), a sub-packet by itself (R85, R152), and the abbreviations (R96). -/

namespace Sys2Proof

open Machine

/-! Commands at the port (R90 to R93) -/

/-- The reserved codes by value (R93). -/
theorem reservedCode_iff {op : Byte} : reservedCode op = true ↔ op = 0 ∨ 0x0C ≤ op.toNat := by
  simp only [reservedCode, Bool.or_eq_true, beq_iff_eq, decide_eq_true_eq]
  exact or_congr_left (BitVec.toNat_eq (y := 0)).symm

/-- A presentation decodes as one whose operation port is written out. -/
theorem decodePort_of_op {p : PortCmd} {op : Byte} (h : p.op = op) : decodePort p = decodePort { p with op := op } := by
  rw [← h]

/-- ENQ takes the first `cmd_size` bytes of its data port (R90, R92). -/
theorem decodePort_enq {p : PortCmd} (h : p.op = 0x0B) (hd : p.size.toNat ≤ p.data.length) :
    decodePort p = .ok (.enq p.id (p.data.take p.size.toNat) p.size) :=
  (decodePort_of_op h).trans (if_neg (Nat.not_lt.mpr hd))

/-- Every code that is not one of the eleven is reported as reserved (R93). -/
theorem decodePort_reserved {p : PortCmd} (h : p.op = 0 ∨ 0x0C ≤ p.op.toNat) : decodePort p = .ok (.reserved p.op) := by
  unfold decodePort
  split
  case h_12 => rfl
  all_goals bv_omega

/-! Frames on the wire (R80 to R84) -/

theorem checksumLow_eq (c : Half) : checksumLow c = c.extractLsb' 0 8 := by
  rw [checksumLow, BitVec.setWidth_eq_extractLsb' (by decide)]

theorem checksumHigh_eq (c : Half) : checksumHigh c = c.extractLsb' 8 8 := by
  rw [checksumHigh, BitVec.setWidth_ushiftRight_eq_extractLsb]

/-- The bytes of a frame, written out (R80, R82). -/
theorem encodeFrame_eq (f l : Byte) (p : List Byte) : encodeFrame f l p =
    [0x55, 0xAA, f, l, BitVec.ofNat 8 p.length] ++ p ++
      [(checksum16 (BitVec.ofNat 8 p.length :: p)).extractLsb' 0 8,
       (checksum16 (BitVec.ofNat 8 p.length :: p)).extractLsb' 8 8] := by
  rw [encodeFrame, checksumLow_eq, checksumHigh_eq]
  rfl

/-- The decoder answers a frame exactly where an encoded frame of legal length stands at the head (R83, R84). -/
theorem decodeWire_eq_frame {b : List Byte} {f l : Byte} {p : List Byte} :
    decodeWire b = .frame f l p ↔ p.length ≤ 57 ∧ ∃ rest, b = encodeFrame f l p ++ rest := by
  constructor
  · intro h
    rcases decodeWire_spec b with ⟨_, e, _⟩ | ⟨e, _⟩ | ⟨e, _⟩ | ⟨_, _, e, _⟩ | ⟨f', l', p', rest, e, hlen, hb⟩
    case inr.inr.inr.inr =>
      cases h.symm.trans e
      exact ⟨hlen, rest, hb⟩
    all_goals cases h.symm.trans e
  · rintro ⟨hlen, rest, rfl⟩
    exact decodeWire_encodeFrame f l hlen rest

/-- Settles O14: what the decoder finds is an encoded frame, whose bytes are those of the wire format. -/
theorem frameDecodingIsExact : Obligations.FrameDecodingIsExact := by
  unfold Obligations.FrameDecodingIsExact
  intro b f l p
  rw [decodeWire_eq_frame, encodeFrame_eq]

/-! Decoding what the encoder writes (R80 to R96) -/

/-- A whole frame alone decodes to its operation (R80). -/
theorem decode_encodeFrame (f l : Byte) {p : List Byte} (h : p.length ≤ 57) :
    decode (.wire (encodeFrame f l p)) = .ok (.frame f l p) := by
  rw [decode, decodeWire_eq_frame.mpr ⟨h, [], (List.append_nil _).symm⟩]

/-- A type byte with exactly the data its binding asks for decodes to its sub-packet (R85, R86). -/
theorem decode_sub_exact (t : Byte) (data : List Byte) : decode (.sub data.length (t :: data)) = .ok (.subpacket t data) := by
  simp [decode, decodeSub]

/-- Settles O13: by the form of the words, a command at the port, the bytes of a frame, or the bytes of a sub-packet. -/
theorem decodeOfEncodeIsTheInstruction : Obligations.DecodeOfEncodeIsTheInstruction := by
  unfold Obligations.DecodeOfEncodeIsTheInstruction
  intro i w hwf henc
  cases i with
  | bind | beginCmd | stepCmd | rser | isrx | clrx | take | takep | send | sendp | unbind => cases henc; rfl
  | enq id data length =>
    cases henc
    have hlen : data.length = length.toNat := by simpa [Instr.wf] using hwf
    have hdec := decodePort_enq (p := { op := 0x0B, id := id, size := length, data := data }) rfl hlen.ge
    rwa [List.take_of_length_le hlen.le] at hdec
  | reserved op => cases henc; exact decodePort_reserved (p := { op := op }) (reservedCode_iff.mp hwf)
  | frame f l p => cases henc; exact decode_encodeFrame f l (of_decide_eq_true hwf)
  | subpacket t data => cases henc; exact decode_sub_exact t data
  | checksum16 | crcInit | crcByte | lookup | lookupByRegion | markReceived | markToSend | decodePayload | dispatchItem
  | encodePayload | append | fits | fill | drop | discard | readerPhase | writerPhase | constructFrame | txAttempt | pace
  | backlogUpdate | notifyDiscard | unknownHook | transportRead | transportWrite => cases henc

/-- Settles O11: the clauses of the eleven codes by the code alone, ENQ's by the length of its data, the rest as
reserved. -/
theorem commandCodesSelectTheOperation : Obligations.CommandCodesSelectTheOperation := by
  unfold Obligations.CommandCodesSelectTheOperation
  intro p
  exact ⟨decodePort_of_op, decodePort_of_op, decodePort_of_op, decodePort_of_op, decodePort_of_op, decodePort_of_op,
    decodePort_of_op, decodePort_of_op, decodePort_of_op, decodePort_of_op, decodePort_enq,
    fun h => ⟨decodePort_reserved h, fun _ => rfl⟩⟩

/-- The encoder writes the worked frame of spec/44_writer.md (R209). -/
theorem encodeFrame_worked : encodeFrame 0x01 0x00 [0x10, 0xAA, 0xBB] =
    [0x55, 0xAA, 0x01, 0x00, 0x03, 0x10, 0xAA, 0xBB, 0x8F, 0xF9] := by decide +kernel

/-- Settles O12: the words are those the encoder writes for six well-formed operations, so O13 reads them back. -/
theorem decodesTheWrittenWords : Obligations.DecodesTheWrittenWords := by
  unfold Obligations.DecodesTheWrittenWords
  have hdec := decodeOfEncodeIsTheInstruction
  rw [← encodeFrame_worked]
  exact ⟨hdec (.bind 0x10 0x1000 2 true) _ rfl rfl, hdec (.stepCmd 500) _ rfl rfl, hdec (.sendp 0x2000) _ rfl rfl,
    hdec (.enq 0x77 [0xDE, 0xAD] 2) _ rfl rfl, hdec (.frame 0x01 0x00 [0x10, 0xAA, 0xBB]) _ rfl rfl,
    hdec (.subpacket 0x10 [0xAA, 0xBB]) _ rfl rfl⟩

namespace Machine

/-! Abbreviations (R96) -/

/-- Binding the null address frees the slot that holds the id (R132). -/
theorem bindItem_null_of_some {id : Byte} {s : State} {i : SlotIx} (h : lookup id s = some i) (size : Byte)
    (autoSend : Bool) : bindItem id Config.engine.nullAddr size autoSend s = s.setSlot i Slot.free := by
  rw [bindItem, if_pos rfl, h]

/-- Binding the null address to an id that no slot holds does nothing (R132). -/
theorem bindItem_null_of_none {id : Byte} {s : State} (h : lookup id s = none) (size : Byte) (autoSend : Bool) :
    bindItem id Config.engine.nullAddr size autoSend s = s := by
  rw [bindItem, if_pos rfl, h]

theorem exec_unbind (id : Byte) (s : State) :
    exec (.unbind id) s = .next ((bindItem id Config.engine.nullAddr 0 false s).respond .none) := rfl

/-- Settles O26: unbind is a binding of the null address, by whether a slot holds the id. -/
theorem unbindFreesTheSlot : Obligations.UnbindFreesTheSlot := by
  unfold Obligations.UnbindFreesTheSlot
  refine fun id s => ⟨fun i hi => ?_, fun hnone => ?_⟩
  · rw [exec_unbind, bindItem_null_of_some (lookup_eq_some.mpr hi)]
    rfl
  · rw [exec_unbind, bindItem_null_of_none (lookup_eq_none.mpr hnone)]
    rfl

/-- Ids are unique among the used slots, so the id of one leads back to it (R27, R130). -/
theorem RegistryInv.lookup_slot_id {s : State} (h : RegistryInv s) {i : SlotIx} (hu : (s.slot i).used = true) :
    lookup (s.slot i).id s = some i := by
  obtain ⟨_, hunique⟩ := h
  refine lookup_eq_some.mpr ⟨⟨hu, rfl⟩, fun j hlt hj => ?_⟩
  obtain ⟨huj, hid⟩ := hj
  exact hlt.ne (hunique j i huj hu hid)

/-- Settles O27: the pointer forms and the id forms act on one found slot, and `sendNow` is `markToSend` with its answer at
the port. -/
theorem abbreviationsAreExact : Obligations.AbbreviationsAreExact := by
  unfold Obligations.AbbreviationsAreExact
  refine fun s hinv => ⟨fun id => rfl, fun region i hi => ?_, fun id => ?_⟩
  · have hregion : lookupByRegion region s = some i := lookupByRegion_eq_some.mpr hi
    have hid : lookup (s.slot i).id s = some i := hinv.lookup_slot_id (lookupByRegion_used i hregion)
    simp only [exec, execSendp, execSend, execTakep, execTake, hregion, hid, and_self]
  · exact ⟨_, _, (markAt (lookup id s) s).2, rfl, rfl, rfl, rfl, rfl⟩

/-! One pass of the decoding loop (R152 to R154) -/

theorem boundSize_of_some {t : Byte} {s : State} {i : SlotIx} (h : lookup t s = some i) :
    boundSize s t = some (s.slot i).size.toNat := by
  rw [boundSize, h, Option.map_some]

theorem boundSize_of_none {t : Byte} {s : State} (h : lookup t s = none) : boundSize s t = none := by
  rw [boundSize, h, Option.map_none]

/-- A bound type with its whole data is dispatched (R152). -/
theorem decodePass_known {t : Byte} {rest : List Byte} {s : State} {i : SlotIx} (h : lookup t s = some i)
    (hn : (s.slot i).size.toNat ≤ rest.length) : decodePass (t :: rest) s =
      .next (dispatchItem t (rest.take (s.slot i).size.toNat) s, some (rest.drop (s.slot i).size.toNat)) := by
  simp only [decodePass, decodeSub, boundSize_of_some h, if_neg (Nat.not_lt.mpr hn)]

/-- A bound type with fewer bytes left than its size stops decoding (R153). -/
theorem decodePass_truncated {t : Byte} {rest : List Byte} {s : State} {i : SlotIx} (h : lookup t s = some i)
    (hn : rest.length < (s.slot i).size.toNat) : decodePass (t :: rest) s = .next (s.fail .trunc, none) := by
  simp only [decodePass, decodeSub, boundSize_of_some h, if_pos hn]

/-- A type that is not bound goes to the hook, whose count says what is left (R154). -/
theorem decodePass_unknown {t : Byte} {rest : List Byte} {s u : State} {c : Nat} (h : lookup t s = none)
    (hu : unknownHook t rest (s.fail .unknown) = .next (u, c)) : decodePass (t :: rest) s =
      .next (u, if c = 0 ∨ rest.length < c then none else some (rest.drop c)) := by
  simp [decodePass, decodeSub, boundSize_of_none h, hu]

/-- With no answer announced the default hook returns 0 (R238). -/
theorem unknownHook_default {s : State} (h : s.hookAnswers = []) (t : Byte) (rest : List Byte) :
    unknownHook t rest s = .next (s.emit (.unknownHook t rest), 0) := by
  rw [unknownHook, callHook, State.emit, h]

/-- An announced answer is taken: its bytes are written and its count returned (R238, R240). -/
theorem unknownHook_returns {s : State} {c : Nat} {writes : List (Addr × Byte)} {answers : List HookAnswer}
    (h : s.hookAnswers = .returns c writes :: answers) (t : Byte) (rest : List Byte) : unknownHook t rest s =
      .next (hookStores writes { s.emit (.unknownHook t rest) with hookAnswers := answers }, c) := by
  rw [unknownHook, callHook, State.emit, h]

/-- SUBPACKET gives what one pass consumed of the bytes after the type (log entry 19). -/
theorem exec_subpacket {t : Byte} {data : List Byte} {s u : State} {left : Option (List Byte)}
    (h : decodePass (t :: data) s = .next (u, left)) : exec (.subpacket t data) s =
      .next (u.give (.consumed (left.map fun rest => data.length - rest.length))) := by
  rw [exec, execSubpacket, h, andThen_next]

theorem length_sub_length_drop {n : Nat} {data : List Byte} (h : n ≤ data.length) :
    data.length - (data.drop n).length = n := by
  rw [List.length_drop, Nat.sub_sub_self h]

/-- Settles O36: the pass by its branches, a bound type with its data, a truncated one, and an unknown one by the hook's
answer. -/
theorem subpacketIsOnePass : Obligations.SubpacketIsOnePass := by
  unfold Obligations.SubpacketIsOnePass
  refine fun typ data s => ⟨fun i hi => ⟨fun hle => ?_, fun hlt => ?_⟩, fun hnone => ⟨fun hdef => ?_, ?_⟩⟩
  · refine ⟨_, rfl, ?_⟩
    rw [exec_subpacket (decodePass_known (lookup_eq_some.mpr hi) hle), Option.map_some, length_sub_length_drop hle]
    rfl
  · rw [exec_subpacket (decodePass_truncated (lookup_eq_some.mpr hi) hlt)]
    rfl
  · have hhook := unknownHook_default (s := s.fail .unknown) hdef typ data
    rw [exec_subpacket (decodePass_unknown (lookup_eq_none.mpr hnone) hhook), if_pos (.inl rfl)]
    simp [State.give, State.fail, State.emit]
  · intro c writes answers hret
    refine ⟨_, rfl, ?_⟩
    have hhook := unknownHook_returns (s := s.fail .unknown) hret typ data
    rw [exec_subpacket (decodePass_unknown (lookup_eq_none.mpr hnone) hhook)]
    by_cases hstop : c = 0 ∨ data.length < c
    · simp [hstop, State.give, State.fail, State.emit]
    · have hle : c ≤ data.length := by omega
      rw [if_neg hstop, if_neg hstop, Option.map_some, length_sub_length_drop hle]
      simp [State.give, State.fail, State.emit]

end Machine

end Sys2Proof

/-! PROOFS. The family of spec/40_checksum.md: the unit's operations and its serial, table, catalogue and polynomial forms
(R110 to R114, R119), its algebra (R116 to R118), and the burst errors a frame's checksum detects (R120). -/

namespace Sys2Proof.Machine

/-! The unit's steps and bytes (R111, R114) -/

/-- The shift steps are R111's step, iterated. -/
theorem crcBits_eq_iterate (n : Nat) (a : Half) :
    crcBits n a = (fun a : Half => if a.getLsbD 0 then (a >>> 1) ^^^ 0x8408 else a >>> 1)^[n] a := by
  induction n generalizing a with
  | zero => rfl
  | succ n ih => rw [crcBits_succ, ih, crcBit_eq, Function.iterate_succ_apply]

@[simp] theorem crcFrom_nil (a : Half) : crcFrom a [] = a := rfl

@[simp] theorem crcFrom_cons (a : Half) (b : Byte) (s : List Byte) : crcFrom a (b :: s) = crcFrom (crcNext a b) s := rfl

theorem checksum16_append (s t : List Byte) : checksum16 (s ++ t) = crcFrom (checksum16 s) t := by
  rw [checksum16_eq, checksum16_eq, crcFrom_append]

/-- Settles O15: the accumulator is the one field each operation writes. -/
theorem checksumUnitOperations : Obligations.ChecksumUnitOperations := by
  unfold Obligations.ChecksumUnitOperations
  refine ⟨fun b s => rfl, fun s => ?_, fun b s => ?_⟩
  · rw [← crcStart_eq]
    rfl
  · rw [← crcBits_eq_iterate, ← crcNext_eq]
    rfl

/-- Settles O16: one more byte is one more byte step of the accumulator; the examples are runs of the unit. -/
theorem checksumBySerialSteps : Obligations.ChecksumBySerialSteps := by
  unfold Obligations.ChecksumBySerialSteps
  refine ⟨rfl, fun s b => ?_, by decide +kernel, by decide +kernel, by decide +kernel⟩
  rw [checksum16_append, crcFrom_cons, crcFrom_nil, crcNext_eq, crcBits_eq_iterate]

/-! Leading zeros (R116) -/

@[simp] theorem crcNext_zero_zero : crcNext 0 0 = 0 := crcBits_of_zero 8

theorem crcFrom_zeros (n : Nat) : crcFrom 0 (List.replicate n 0) = 0 := by
  induction n with
  | zero => rfl
  | succ n ih => rw [List.replicate_succ, crcFrom_cons, crcNext_zero_zero, ih]

theorem checksum16_zeros_append (n : Nat) (s : List Byte) : checksum16 (List.replicate n 0 ++ s) = checksum16 s := by
  rw [checksum16_append, checksum16_eq, checksum16_eq, crcFrom_zeros]

/-- Settles O19: a zero byte leaves the accumulator at zero. -/
theorem checksumIgnoresLeadingZeros : Obligations.ChecksumIgnoresLeadingZeros := by
  unfold Obligations.ChecksumIgnoresLeadingZeros
  have hnil : checksum16 [] = 0 := rfl
  have hzero : checksum16 [0#8] = 0 := checksum16_zeros_append 1 []
  refine ⟨hnil, checksum16_zeros_append, hzero, fun frameId lastSeen => ?_⟩
  rw [encodeFrame_eq, List.length_nil, hzero]
  rfl

/-! Linearity (R117) -/

theorem crcFrom_xor {s t : List Byte} (h : s.length = t.length) (a c : Half) :
    crcFrom (a ^^^ c) (List.zipWith (· ^^^ ·) s t) = crcFrom a s ^^^ crcFrom c t := by
  induction s generalizing t a c with
  | nil =>
    cases t with
    | nil => rfl
    | cons y t => cases h
  | cons x s ih =>
    cases t with
    | nil => cases h
    | cons y t =>
      rw [List.zipWith_cons_cons, crcFrom_cons, crcNext_xor, ih (Nat.succ.inj h)]
      rfl

theorem checksum16_xor {s t : List Byte} (h : s.length = t.length) :
    checksum16 (List.zipWith (· ^^^ ·) s t) = checksum16 s ^^^ checksum16 t := by
  rw [checksum16_eq, checksum16_eq, checksum16_eq, ← crcFrom_xor h, BitVec.xor_self]
  rfl

/-- Settles O20: each byte step is linear, and the initial accumulator is 0. -/
theorem checksumIsLinear : Obligations.ChecksumIsLinear := by
  unfold Obligations.ChecksumIsLinear
  exact fun _ _ h => checksum16_xor h

/-! The two halves of an accumulator (R113, R118) -/

/-- The two bytes of a checksum do not overlap. -/
theorem checksumOf_eq_xor (low high : Byte) : checksumOf low high = low.setWidth 16 ^^^ (high.setWidth 16 <<< 8) := by
  unfold checksumOf
  ext i hi
  by_cases h : i < 8
  · simp [h]
  · simp [h, BitVec.getLsbD_of_ge low i (by omega)]

theorem checksumHigh_setWidth (c : Half) : (checksumHigh c).setWidth 16 = c >>> 8 := by
  unfold checksumHigh
  ext i hi
  simp only [BitVec.getElem_setWidth, BitVec.getLsbD_setWidth, BitVec.getLsbD_ushiftRight, BitVec.getElem_ushiftRight]
  by_cases h : i < 8
  · simp [h]
  · simp [h, BitVec.getLsbD_of_ge c (8 + i) (by omega)]

/-- Eight steps take the low byte through the steps and move the high byte down unchanged. -/
theorem crcBits_eight (c : Half) : crcBits 8 c = c >>> 8 ^^^ crcBits 8 ((checksumLow c).setWidth 16) := by
  conv_lhs => rw [← checksumOf_low_high c, checksumOf_eq_xor, crcBits_xor, crcBits_upper, checksumHigh_setWidth]
  rw [BitVec.xor_comm]

theorem setWidth_ushiftRight_eight (b : Byte) : b.setWidth 16 >>> 8 = 0#16 := by
  ext i hi
  simp

theorem checksum16_singleton (b : Byte) : checksum16 [b] = crcBits 8 (b.setWidth 16) := by
  rw [checksum16_eq, crcFrom_cons, crcFrom_nil, crcNext_eq]
  exact congrArg (crcBits 8) BitVec.zero_xor

theorem crcNext_eq_table (a : Half) (b : Byte) :
    crcNext a b = (a >>> 8) ^^^ checksum16 [(a ^^^ b.setWidth 16).extractLsb' 0 8] := by
  rw [crcNext_eq, crcBits_eight, BitVec.ushiftRight_xor_distrib, setWidth_ushiftRight_eight, BitVec.xor_zero,
    checksum16_singleton, checksumLow_eq]

theorem crcFrom_eq_foldl (a : Half) (s : List Byte) : crcFrom a s = s.foldl (fun acc b => crcNext acc b) a := by
  induction s generalizing a with
  | nil => rfl
  | cons b s ih => exact ih _

/-- Settles O18: in one byte step the upper half moves down unchanged, and the lower half gives its table entry. -/
theorem checksumByTable : Obligations.ChecksumByTable := by
  unfold Obligations.ChecksumByTable
  refine ⟨fun s => ?_, by decide +kernel, by decide +kernel⟩
  simp only [← crcNext_eq_table]
  rw [checksum16_eq, crcFrom_eq_foldl]

/-- Two bytes fed to the unit are added to the accumulator at once. -/
theorem crcFrom_pair (c : Half) (low high : Byte) : crcFrom c [low, high] = crcBits 16 (c ^^^ checksumOf low high) := by
  rw [crcFrom_cons, crcFrom_cons, crcFrom_nil, crcNext_eq, crcNext_eq, ← crcBits_upper high, ← crcBits_xor,
    BitVec.xor_assoc, ← checksumOf_eq_xor, ← crcBits_add]

theorem crcFrom_pair_eq_zero {c : Half} {low high : Byte} : crcFrom c [low, high] = 0 ↔ checksumOf low high = c := by
  rw [crcFrom_pair]
  constructor
  · intro h
    exact (BitVec.xor_eq_zero_iff.mp (crcBits_eq_zero 16 h)).symm
  · rintro rfl
    rw [BitVec.xor_self]
    exact crcBits_of_zero 16

theorem checksumOf_eq_iff {c : Half} {low high : Byte} :
    checksumOf low high = c ↔ low = checksumLow c ∧ high = checksumHigh c := by
  constructor
  · rintro rfl
    exact ⟨(checksumLow_of low high).symm, (checksumHigh_of low high).symm⟩
  · rintro ⟨rfl, rfl⟩
    exact checksumOf_low_high c

/-- A sequence and two bytes have checksum 0 exactly when the two bytes are its checksum (R118). -/
theorem checksum16_append_pair_eq_zero {s : List Byte} {low high : Byte} :
    checksum16 (s ++ [low, high]) = 0 ↔ checksumOf low high = checksum16 s := by
  rw [checksum16_append, crcFrom_pair_eq_zero]

/-- Settles O21: the steps are one to one, so two bytes clear the accumulator only when they equal it. -/
theorem checksumZeroResidue : Obligations.ChecksumZeroResidue := by
  unfold Obligations.ChecksumZeroResidue
  refine ⟨fun s low high => ?_, by decide +kernel, by decide +kernel⟩
  rw [checksum16_append_pair_eq_zero, checksumOf_eq_iff, checksumLow_eq, checksumHigh_eq]

/-! The catalogue's general procedure (R119) -/

theorem reverse_getLsbD {w : Nat} (a : BitVec w) {i : Nat} (h : i < w) : a.reverse.getLsbD i = a.getLsbD (w - 1 - i) := by
  rw [BitVec.getLsbD_reverse, BitVec.getMsbD]
  simp [h]

theorem reverse_xor {w : Nat} (a b : BitVec w) : (a ^^^ b).reverse = a.reverse ^^^ b.reverse := by
  apply BitVec.eq_of_getLsbD_eq
  intro i hi
  rw [BitVec.getLsbD_xor, reverse_getLsbD _ hi, reverse_getLsbD _ hi, reverse_getLsbD _ hi, BitVec.getLsbD_xor]

theorem reverse_shiftLeft_one (a : Half) : (a <<< 1).reverse = a.reverse >>> 1 := by
  apply BitVec.eq_of_getLsbD_eq
  intro i hi
  rw [reverse_getLsbD _ hi, BitVec.getLsbD_ushiftRight, BitVec.getLsbD_shiftLeft]
  by_cases h : i = 15
  · simp [h]
  · have h0 : 15 - i < 16 := by omega
    have h1 : ¬ 15 - i < 1 := by omega
    have h2 : 15 - i - 1 = 15 - (1 + i) := by omega
    rw [reverse_getLsbD _ (by omega)]
    simp [h0, h1, h2]

theorem reverse_setWidth_shiftLeft (b : Byte) : (b.reverse.setWidth 16 <<< 8).reverse = b.setWidth 16 := by
  apply BitVec.eq_of_getLsbD_eq
  intro i hi
  rw [reverse_getLsbD _ hi, BitVec.getLsbD_shiftLeft, BitVec.getLsbD_setWidth, BitVec.getLsbD_setWidth]
  by_cases h : i < 8
  · have h0 : 15 - i < 16 := by omega
    have h1 : ¬ 15 - i < 8 := by omega
    have h2 : 16 - 1 - i - 8 = 7 - i := by omega
    have h3 : 8 - 1 - (7 - i) = i := by omega
    rw [h2, reverse_getLsbD b (by omega), h3]
    simp [h0, h1, hi, Nat.lt_of_le_of_lt (Nat.sub_le 7 i)]
  · have h1 : 15 - i < 8 := by omega
    simp [h1, BitVec.getLsbD_of_ge b i (by omega)]

/-- The unit's register where the catalogue procedure holds `acc`: a reflected unit holds it with its bits in the other
order. -/
def unitRegister (p : Config.CrcParams) (acc : Half) : Half := if p.refin then acc.reverse else acc

section Catalogue

variable (p : Config.CrcParams)

theorem unitRegister_xor (a b : Half) : unitRegister p (a ^^^ b) = unitRegister p a ^^^ unitRegister p b := by
  unfold unitRegister
  split
  · exact reverse_xor a b
  · rfl

theorem crcStart_eq_unitRegister : crcStart p = unitRegister p p.init := by
  cases h : p.refin <;> simp [crcStart, unitRegister, h]

theorem crcByteIn_eq_unitRegister (b : Byte) :
    crcByteIn b p = unitRegister p ((if p.refin then b.reverse else b).setWidth 16 <<< 8) := by
  cases h : p.refin <;> simp [crcByteIn, unitRegister, h, reverse_setWidth_shiftLeft]

theorem crcBit_unitRegister (acc : Half) : crcBit (unitRegister p acc) p = unitRegister p (catalogueBit p.poly acc) := by
  have hout : acc.reverse.getLsbD 0 = acc.getLsbD 15 := reverse_getLsbD acc (by decide)
  unfold crcBit catalogueBit unitRegister
  cases p.refin with
  | false => rfl
  | true =>
    simp only [if_true, hout]
    split
    · rw [reverse_xor, reverse_shiftLeft_one]
    · rw [reverse_shiftLeft_one]

theorem crcBits_unitRegister (n : Nat) (acc : Half) :
    crcBits n (unitRegister p acc) p = unitRegister p (catalogueBits p.poly n acc) := by
  induction n generalizing acc with
  | zero => rfl
  | succ n ih => rw [crcBits, crcBit_unitRegister, ih, catalogueBits]

theorem crcNext_unitRegister (acc : Half) (b : Byte) :
    crcNext (unitRegister p acc) b p = unitRegister p (catalogueNext p acc b) := by
  rw [crcNext, crcByteIn_eq_unitRegister, ← unitRegister_xor, crcBits_unitRegister, catalogueNext]

theorem crcFrom_unitRegister (acc : Half) (s : List Byte) :
    crcFrom (unitRegister p acc) s p = unitRegister p (s.foldl (catalogueNext p) acc) := by
  induction s generalizing acc with
  | nil => rfl
  | cons b s ih => rw [crcFrom, crcNext_unitRegister, ih, List.foldl_cons]

theorem crcResult_unitRegister (acc : Half) :
    crcResult (unitRegister p acc) p = (if p.refout then acc.reverse else acc) ^^^ p.xorout := by
  cases hin : p.refin <;> cases hout : p.refout <;> simp [crcResult, unitRegister, hin, hout, BitVec.reverse_reverse_eq]

theorem checksum16_eq_catalogueCrc (s : List Byte) : checksum16 s p = catalogueCrc p s := by
  rw [checksum16, crcStart_eq_unitRegister, crcFrom_unitRegister, crcResult_unitRegister, catalogueCrc]

end Catalogue

/-- Settles O22: the unit runs the general procedure on its own register, step by step. -/
theorem checksumByCatalogue : Obligations.ChecksumByCatalogue := by
  unfold Obligations.ChecksumByCatalogue
  exact ⟨checksum16_eq_catalogueCrc, fun s => (checksum16_eq_catalogueCrc Config.kermit s).symm, by decide +kernel⟩

open Polynomial (X)

/-! Bits as polynomials over GF(2) (R112) -/

/-- The bits of a word in processing order as a polynomial over GF(2), bit 0 the highest power (R112). -/
noncomputable def bitsPoly {w : Nat} (a : BitVec w) : Polynomial (ZMod 2) :=
  ∑ i ∈ Finset.range w, if a.getLsbD i then X ^ (w - 1 - i) else 0

/-- `G(x)` (R112). -/
noncomputable def generator : Polynomial (ZMod 2) := X ^ 16 + X ^ 12 + X ^ 5 + 1

/-- `M(x)`: the message bits in processing order, highest power first (R112). -/
noncomputable def messagePoly : List Byte → Polynomial (ZMod 2)
  | [] => 0
  | b :: s => bitsPoly b * X ^ (8 * s.length) + messagePoly s

section BitsPoly

variable {w : Nat} (a : BitVec w)

theorem coeff_bitsPoly {i d : Nat} (h : d + i + 1 = w) : (bitsPoly a).coeff d = if a.getLsbD i then 1 else 0 := by
  rw [bitsPoly, Polynomial.finsetSum_coeff, Finset.sum_eq_single i]
  · have hd : w - 1 - i = d := by omega
    rw [hd]
    split
    · exact Polynomial.coeff_X_pow_self d
    · exact Polynomial.coeff_zero d
  · intro j hj hne
    have hd : d ≠ w - 1 - j := by
      have := Finset.mem_range.mp hj
      omega
    split
    · rw [Polynomial.coeff_X_pow, if_neg hd]
    · exact Polynomial.coeff_zero d
  · intro hi
    rw [Finset.mem_range] at hi
    omega

theorem coeff_bitsPoly_of_ge {d : Nat} (h : w ≤ d) : (bitsPoly a).coeff d = 0 := by
  rw [bitsPoly, Polynomial.finsetSum_coeff]
  refine Finset.sum_eq_zero fun i hi => ?_
  have := Finset.mem_range.mp hi
  split
  · rw [Polynomial.coeff_X_pow, if_neg (by omega)]
  · exact Polynomial.coeff_zero d

theorem degree_bitsPoly_lt : (bitsPoly a).degree < w :=
  (Polynomial.degree_lt_iff_coeff_zero _ _).mpr fun _ h => coeff_bitsPoly_of_ge a h

theorem bitsPoly_xor (b : BitVec w) : bitsPoly (a ^^^ b) = bitsPoly a + bitsPoly b := by
  rw [bitsPoly, bitsPoly, bitsPoly, ← Finset.sum_add_distrib]
  refine Finset.sum_congr rfl fun i _ => ?_
  rw [BitVec.getLsbD_xor]
  cases a.getLsbD i <;> cases b.getLsbD i <;> simp [CharTwo.add_self_eq_zero]

end BitsPoly

/-- A byte at the low end of the accumulator stands eight powers up. -/
theorem bitsPoly_setWidth (b : Byte) : bitsPoly (b.setWidth 16) = X ^ 8 * bitsPoly b := by
  rw [bitsPoly, bitsPoly, Finset.sum_range_add _ 8 8, Finset.mul_sum]
  have hupper : ∀ i ∈ Finset.range 8, (if (b.setWidth 16).getLsbD (8 + i) then X ^ (16 - 1 - (8 + i)) else 0 :
      Polynomial (ZMod 2)) = 0 := fun i _ => by
    rw [BitVec.getLsbD_setWidth, BitVec.getLsbD_of_ge b (8 + i) (by omega)]
    simp
  rw [Finset.sum_eq_zero hupper, add_zero]
  refine Finset.sum_congr rfl fun i hi => ?_
  have hi8 := Finset.mem_range.mp hi
  rw [BitVec.getLsbD_setWidth, mul_ite, mul_zero, ← pow_add]
  have h16 : i < 16 := by omega
  have hexp : 8 + (8 - 1 - i) = 16 - 1 - i := by omega
  simp [h16, hexp]

/-- A right shift multiplies by `x`, but for the bit that falls out. -/
theorem mul_bitsPoly (a : Half) : X * bitsPoly a = bitsPoly (a >>> 1) + if a.getLsbD 0 then X ^ 16 else 0 := by
  have hfirst : bitsPoly a = (∑ i ∈ Finset.range 15, if a.getLsbD (i + 1) then X ^ (14 - i) else 0) +
      if a.getLsbD 0 then X ^ 15 else 0 := by
    rw [bitsPoly, Finset.sum_range_succ']
    simp only [Nat.reduceSub, Nat.reduceSubDiff, Nat.sub_zero]
  have hlast : bitsPoly (a >>> 1) = ∑ i ∈ Finset.range 15, if a.getLsbD (i + 1) then X ^ (15 - i) else 0 := by
    rw [bitsPoly, Finset.sum_range_succ]
    simp [Nat.add_comm 1]
  rw [hfirst, hlast, mul_add, Finset.mul_sum]
  simp only [mul_ite, mul_zero, ← pow_succ']
  refine congrArg₂ (· + ·) (Finset.sum_congr rfl fun i hi => ?_) rfl
  have := Finset.mem_range.mp hi
  have hexp : 15 - i = 14 - i + 1 := by omega
  rw [hexp]

theorem bitsPoly_shiftConstant : bitsPoly (0x8408 : Half) = X ^ 12 + X ^ 5 + 1 := by
  simp [bitsPoly, Finset.sum_range_succ]

/-- A shift step multiplies by `x` modulo `G(x)`. -/
theorem mul_bitsPoly_eq_crcBit (a : Half) :
    X * bitsPoly a = bitsPoly (crcBit a) + if a.getLsbD 0 then generator else 0 := by
  rw [mul_bitsPoly, crcBit_eq]
  split
  · rw [bitsPoly_xor, bitsPoly_shiftConstant, generator]
    linear_combination - CharTwo.add_self_eq_zero (X ^ 12 + X ^ 5 + 1 : Polynomial (ZMod 2))
  · rfl

/-! The unit in the ring of polynomials modulo `G(x)`: a shift step multiplies by `x` -/

theorem mk_bitsPoly_crcBit (a : Half) :
    AdjoinRoot.mk generator (bitsPoly (crcBit a)) = AdjoinRoot.root generator * AdjoinRoot.mk generator (bitsPoly a) := by
  rw [← AdjoinRoot.mk_X, ← map_mul, mul_bitsPoly_eq_crcBit, map_add]
  split
  · rw [AdjoinRoot.mk_self, add_zero]
  · rw [map_zero, add_zero]

theorem mk_bitsPoly_crcBits (n : Nat) (a : Half) :
    AdjoinRoot.mk generator (bitsPoly (crcBits n a)) =
      AdjoinRoot.root generator ^ n * AdjoinRoot.mk generator (bitsPoly a) := by
  induction n generalizing a with
  | zero => rw [crcBits_zero_steps, pow_zero, one_mul]
  | succ n ih => rw [crcBits_succ, ih, mk_bitsPoly_crcBit, pow_succ, mul_assoc]

theorem mk_bitsPoly_crcNext (a : Half) (b : Byte) :
    AdjoinRoot.mk generator (bitsPoly (crcNext a b)) = AdjoinRoot.root generator ^ 8 *
      (AdjoinRoot.mk generator (bitsPoly a) + AdjoinRoot.root generator ^ 8 * AdjoinRoot.mk generator (bitsPoly b)) := by
  rw [crcNext_eq, mk_bitsPoly_crcBits, bitsPoly_xor, bitsPoly_setWidth, map_add, map_mul, map_pow, AdjoinRoot.mk_X]

theorem mk_bitsPoly_crcFrom (a : Half) (s : List Byte) :
    AdjoinRoot.mk generator (bitsPoly (crcFrom a s)) =
      AdjoinRoot.root generator ^ (8 * s.length) * AdjoinRoot.mk generator (bitsPoly a) +
        AdjoinRoot.root generator ^ 16 * AdjoinRoot.mk generator (messagePoly s) := by
  induction s generalizing a with
  | nil => simp [messagePoly]
  | cons b s ih =>
    rw [crcFrom_cons, ih, mk_bitsPoly_crcNext, messagePoly, map_add, map_mul, map_pow, AdjoinRoot.mk_X, List.length_cons]
    ring

theorem bitsPoly_zero (w : Nat) : bitsPoly (0 : BitVec w) = 0 := by
  simp [bitsPoly]

/-- The checksum is congruent to `M(x) x^16` modulo `G(x)`. -/
theorem mk_bitsPoly_checksum16 (s : List Byte) :
    AdjoinRoot.mk generator (bitsPoly (checksum16 s)) = AdjoinRoot.mk generator (messagePoly s * X ^ 16) := by
  rw [checksum16_eq, mk_bitsPoly_crcFrom, bitsPoly_zero, map_zero, mul_zero, zero_add, map_mul, map_pow, AdjoinRoot.mk_X,
    mul_comm]

/-- The message polynomial as one sum over bytes and bits. -/
theorem messagePoly_eq_sum (s : List Byte) : messagePoly s = ∑ k : Fin s.length, ∑ j : Fin 8,
    if s[k].getLsbD j then (X ^ (8 * (s.length - 1 - k) + (7 - j)) : Polynomial (ZMod 2)) else 0 := by
  induction s with
  | nil => simp [messagePoly]
  | cons b s ih =>
    have hbyte : bitsPoly b * X ^ (8 * s.length) =
        ∑ j : Fin 8, if b.getLsbD j then (X ^ (8 * s.length + (7 - j)) : Polynomial (ZMod 2)) else 0 := by
      rw [bitsPoly, Finset.sum_range, Finset.sum_mul]
      refine Finset.sum_congr rfl fun j _ => ?_
      rw [ite_mul, zero_mul, ← pow_add, add_comm]
    rw [messagePoly, hbyte, ih]
    refine (Eq.trans ?_ (Fin.sum_univ_succ _).symm)
    refine congrArg₂ (· + ·) ?_ ?_
    · simp
    · refine Finset.sum_congr rfl fun k _ => Finset.sum_congr rfl fun j _ => ?_
      simp [Nat.sub_sub, Nat.add_comm 1]

/-- Settles O17: the accumulator's bits are the remainder, since each shift step multiplies by `x` modulo `G(x)`. -/
theorem checksumIsThePolynomialRemainder : Obligations.ChecksumIsThePolynomialRemainder := by
  unfold Obligations.ChecksumIsThePolynomialRemainder
  intro s
  obtain ⟨q, hq⟩ := AdjoinRoot.mk_eq_mk.mp (mk_bitsPoly_checksum16 s).symm
  refine ⟨q, bitsPoly (checksum16 s), ?_, degree_bitsPoly_lt _, fun i hi => ?_⟩
  · rw [← messagePoly_eq_sum, mul_comm q, ← generator, ← hq, sub_add_cancel]
  · rw [coeff_bitsPoly (i := i) _ (by omega)]
    simp

/-! Burst errors (R120): a burst is a polynomial of degree below 16 times a power of `x`, which `G(x)` does not divide -/

theorem coeff_messagePoly_of_ge {s : List Byte} {d : Nat} (h : 8 * s.length ≤ d) : (messagePoly s).coeff d = 0 := by
  induction s with
  | nil => rfl
  | cons b s ih =>
    rw [List.length_cons] at h
    rw [messagePoly, Polynomial.coeff_add, ih (by omega), Polynomial.coeff_mul_X_pow', if_pos (by omega),
      coeff_bitsPoly_of_ge b (by omega), add_zero]

/-- The coefficient that stands for bit `j` of byte `k`. -/
theorem coeff_messagePoly {s : List Byte} {k j d : Nat} (hj : j < 8) (h : d + (8 * k + j) + 1 = 8 * s.length) :
    (messagePoly s).coeff d = if (s.getD k 0).getLsbD j then 1 else 0 := by
  induction s generalizing k with
  | nil => cases h
  | cons b s ih =>
    rw [List.length_cons] at h
    rw [messagePoly, Polynomial.coeff_add, Polynomial.coeff_mul_X_pow']
    cases k with
    | zero =>
      rw [if_pos (by omega), coeff_messagePoly_of_ge (by omega), add_zero, coeff_bitsPoly (i := j) b (by omega)]
      rfl
    | succ k =>
      rw [if_neg (by omega), zero_add, ih (k := k) (by omega)]
      rfl

/-- A coefficient of the message polynomial is 0 unless a bit that is set stands for it. -/
theorem coeff_messagePoly_eq_zero {s : List Byte} {d : Nat}
    (h : ∀ k j, j < 8 → (s.getD k 0).getLsbD j = true → d + (8 * k + j) + 1 ≠ 8 * s.length) :
    (messagePoly s).coeff d = 0 := by
  by_cases hd : 8 * s.length ≤ d
  · exact coeff_messagePoly_of_ge hd
  have hj : 7 - d % 8 < 8 := by omega
  have hpos : d + (8 * (s.length - 1 - d / 8) + (7 - d % 8)) + 1 = 8 * s.length := by omega
  rw [coeff_messagePoly hj hpos, if_neg fun hbit => h _ _ hj hbit hpos]

theorem degree_generator : generator.degree = 16 := by
  rw [generator]
  compute_degree!

/-- `G(x)` has no factor `x`, since its constant term is 1. -/
theorem isCoprime_generator_X : IsCoprime generator X := by
  refine ⟨1, -(X ^ 15 + X ^ 11 + X ^ 4), ?_⟩
  rw [generator]
  ring

/-- `G(x)` divides no non-zero polynomial whose powers lie within 16 consecutive ones. -/
theorem eq_zero_of_generator_dvd {p : Polynomial (ZMod 2)} {low : Nat} (hlow : ∀ d < low, p.coeff d = 0)
    (hhigh : ∀ d, low + 16 ≤ d → p.coeff d = 0) (h : generator ∣ p) : p = 0 := by
  obtain ⟨v, rfl⟩ := Polynomial.X_pow_dvd_iff.mpr hlow
  have hdeg : v.degree < 16 := (Polynomial.degree_lt_iff_coeff_zero v 16).mpr fun d hd => by
    rw [← Polynomial.coeff_X_pow_mul v low d]
    exact hhigh _ (by omega)
  have hdvd : generator ∣ v := isCoprime_generator_X.pow_right.dvd_of_dvd_mul_left h
  rw [Polynomial.eq_zero_of_dvd_of_degree_lt hdvd (degree_generator ▸ hdeg), mul_zero]

theorem generator_dvd_messagePoly {s : List Byte} (h : checksum16 s = 0) : generator ∣ messagePoly s := by
  have hmk := mk_bitsPoly_checksum16 s
  rw [h, bitsPoly_zero, map_zero] at hmk
  exact isCoprime_generator_X.pow_right.dvd_of_dvd_mul_right (AdjoinRoot.mk_eq_zero.mp hmk.symm)

/-- A burst of at most 16 bits does not have checksum 0. -/
theorem checksum16_burst_ne_zero {e : List Byte} {b : Nat} (hne : ∃ k j, j < 8 ∧ (e.getD k 0).getLsbD j = true)
    (hburst : ∀ k j, j < 8 → (e.getD k 0).getLsbD j = true → b ≤ 8 * k + j ∧ 8 * k + j < b + 16) :
    checksum16 e ≠ 0 := by
  intro h
  have houtside : ∀ d, d + b + 16 < 8 * e.length ∨ 8 * e.length ≤ d + b → (messagePoly e).coeff d = 0 := by
    refine fun d hd => coeff_messagePoly_eq_zero fun k j hj hbit => ?_
    obtain ⟨hfirst, hlast⟩ := hburst k j hj hbit
    omega
  have hzero : messagePoly e = 0 :=
    eq_zero_of_generator_dvd (low := 8 * e.length - (b + 16)) (fun d hd => houtside d (by omega))
      (fun d hd => houtside d (by omega)) (generator_dvd_messagePoly h)
  obtain ⟨k, j, hj, hbit⟩ := hne
  have hk : k < e.length := by
    by_contra hk
    rw [List.getD_eq_default _ _ (Nat.le_of_not_lt hk)] at hbit
    simp at hbit
  have hone := coeff_messagePoly (s := e) (k := k) (d := 8 * e.length - 1 - (8 * k + j)) hj (by omega)
  rw [hzero, if_pos hbit, Polynomial.coeff_zero] at hone
  exact zero_ne_one hone

/-- Damage to the bytes behind a length byte changes the checksum of the whole by the checksum of the error. -/
theorem checksum16_damaged (len : Byte) {e m : List Byte} (h : e.length = m.length) :
    checksum16 (len :: List.zipWith (· ^^^ ·) e m) = checksum16 e ^^^ checksum16 (len :: m) := by
  have hxor := checksum16_xor (s := 0 :: e) (t := len :: m) (congrArg Nat.succ h)
  have hlen : 0 ^^^ len = len := BitVec.zero_xor
  rw [List.zipWith_cons_cons, hlen] at hxor
  rw [hxor]
  exact congrArg (· ^^^ _) (checksum16_zeros_append 1 e)

/-- The decoder hands what stands behind a complete header to the frame check. -/
theorem decodeWire_header (frameId lastSeen len : Byte) (body : List Byte) :
    decodeWire ([0x55, 0xAA, frameId, lastSeen, len] ++ body) = decodeBody frameId lastSeen len body := rfl

/-- Bytes of a frame's length whose checksum with the length byte is not 0 are a checksum mismatch. -/
theorem decodeBody_badChecksum (frameId lastSeen : Byte) {p m : List Byte} (hp : p.length ≤ 57)
    (hm : m.length = p.length + 2) (h : checksum16 (lengthByte p :: m) ≠ 0) :
    ∃ c, decodeBody frameId lastSeen (lengthByte p) m = .badChecksum p.length c := by
  have hlen := lengthByte_toNat hp
  rcases decodeBody_spec frameId lastSeen (lengthByte p) m with ⟨hlong, _⟩ | ⟨_, hshort, _⟩ | ⟨_, _, hshort, _⟩ |
    ⟨_, p', low, high, rest, rfl, hp', hlen', ⟨hc, _⟩ | ⟨_, hbad⟩⟩
  · omega
  · omega
  · omega
  · have hrest : rest = [] := by
      rw [← List.length_eq_zero_iff]
      simp at hm
      omega
    subst hrest
    rw [frameChecksum, hlen'] at hc
    exact absurd (checksum16_append_pair_eq_zero.mpr hc) h
  · exact ⟨_, hlen ▸ hbad⟩

/-- What a frame carries from its length byte on has checksum 0 (R118). -/
theorem checksum16_frame (p : List Byte) :
    checksum16 (lengthByte p :: (p ++ [checksumLow (frameChecksum p), checksumHigh (frameChecksum p)])) = 0 :=
  checksum16_append_pair_eq_zero (s := lengthByte p :: p).mpr (checksumOf_low_high _)

/-- Settles O23: by linearity the damaged bytes have the checksum of the error, which as a burst is not 0. -/
theorem burstErrorsAreDetected : Obligations.BurstErrorsAreDetected := by
  unfold Obligations.BurstErrorsAreDetected
  intro frameId lastSeen p e b hp he hne hburst
  rw [decodeWire_header, ← checksumLow_eq, ← checksumHigh_eq]
  refine decodeBody_badChecksum frameId lastSeen hp (by simp [he]) fun hzero => ?_
  have hdamage := checksum16_damaged (lengthByte p) (e := e)
    (m := p ++ [checksumLow (frameChecksum p), checksumHigh (frameChecksum p)]) (by simp [he])
  rw [checksum16_frame] at hdamage
  exact checksum16_burst_ne_zero hne hburst ((hdamage.trans BitVec.xor_zero).symm.trans hzero)

end Sys2Proof.Machine

/-! PROOFS. The family of spec/41_registry.md: which operations change a binding or a flag (R28, R142), the outcomes of each
registry operation (R130 to R141, R155), and that a queued item leaves first in the next frame (R140, R163). -/

namespace Sys2Proof.Machine

/-! The flag state machine (R142) -/

/-- A flag rises only where `up` holds and falls only where `down` holds. -/
structure FlagMoves (up down : Prop) (a b : Bool) : Prop where
  rises : a = false → b = true → up
  falls : a = true → b = false → down

section FlagMoves

variable {up down : Prop} {a b c : Bool}

theorem FlagMoves.refl (a : Bool) : FlagMoves up down a a :=
  ⟨fun h h' => absurd (h.symm.trans h') nofun, fun h h' => absurd (h.symm.trans h') nofun⟩

theorem FlagMoves.trans (h : FlagMoves up down a b) (h' : FlagMoves up down b c) : FlagMoves up down a c := by
  cases b with
  | false => exact ⟨fun _ hc => h'.rises rfl hc, fun ha _ => h.falls ha rfl⟩
  | true => exact ⟨fun ha _ => h.rises ha rfl, fun _ hc => h'.falls rfl hc⟩

/-- A flag that can only rise. -/
theorem FlagMoves.of_rise (h : up) (hle : a = true → b = true) : FlagMoves up down a b :=
  ⟨fun _ _ => h, fun ha hb => absurd ((hle ha).symm.trans hb) nofun⟩

/-- A flag that can only fall. -/
theorem FlagMoves.of_fall (h : down) (hle : b = true → a = true) : FlagMoves up down a b :=
  ⟨fun ha hb => absurd (ha.symm.trans (hle hb)) nofun, fun _ _ => h⟩

end FlagMoves

/-- What operation `i` may do to a slot: only a binding operation changes which item it holds, and each flag moves as the
flag state machine allows (R28, R142). -/
structure Allowed (i : Instr) (x y : Slot) : Prop where
  binding : i.isBind = false → y.used = x.used ∧ y.id = x.id ∧ y.region = x.region ∧ y.size = x.size
  autoSend : FlagMoves (∃ id region size, i = .bind id region size true) (i.mayUnbind = true) x.autoSend y.autoSend
  received : FlagMoves (i.mayReceive = true) (i.mayConsume = true ∨ i.isBind = true) x.received y.received
  toSend : FlagMoves (i.mayQueue = true) (i.mayInclude = true ∨ i.isBind = true) x.toSend y.toSend
  wasAutoSent : FlagMoves (i.mayRotate = true) (i.mayRotate = true ∨ i.isBind = true) x.wasAutoSent y.wasAutoSent

section Allowed

variable {i : Instr} {x y z : Slot}

theorem Allowed.refl (i : Instr) (x : Slot) : Allowed i x x :=
  ⟨fun _ => ⟨rfl, rfl, rfl, rfl⟩, .refl _, .refl _, .refl _, .refl _⟩

theorem Allowed.of_eq (h : y = x) : Allowed i x y := h ▸ Allowed.refl i x

theorem Allowed.trans (h : Allowed i x y) (h' : Allowed i y z) : Allowed i x z where
  binding hi := by
    obtain ⟨hu, hid, hr, hz⟩ := h.binding hi
    obtain ⟨hu', hid', hr', hz'⟩ := h'.binding hi
    exact ⟨hu'.trans hu, hid'.trans hid, hr'.trans hr, hz'.trans hz⟩
  autoSend := h.autoSend.trans h'.autoSend
  received := h.received.trans h'.received
  toSend := h.toSend.trans h'.toSend
  wasAutoSent := h.wasAutoSent.trans h'.wasAutoSent

theorem Allowed.receive (hi : i.mayReceive = true) {b : Bool} (hb : x.received = true → b = true) :
    Allowed i x { x with received := b } :=
  ⟨fun _ => ⟨rfl, rfl, rfl, rfl⟩, .refl _, .of_rise hi hb, .refl _, .refl _⟩

theorem Allowed.consume (hi : i.mayConsume = true) : Allowed i x { x with received := false } :=
  ⟨fun _ => ⟨rfl, rfl, rfl, rfl⟩, .refl _, .of_fall (.inl hi) nofun, .refl _, .refl _⟩

theorem Allowed.queue (hi : i.mayQueue = true) : Allowed i x { x with toSend := true } :=
  ⟨fun _ => ⟨rfl, rfl, rfl, rfl⟩, .refl _, .refl _, .of_rise hi fun _ => rfl, .refl _⟩

/-- An item may be included in a frame without an autosend cycle: its `WasAutoSent` stays. -/
theorem Allowed.includeItem (hi : i.mayInclude = true) {b : Bool} (hb : b = true → x.toSend = true) :
    Allowed i x { x with toSend := b } :=
  ⟨fun _ => ⟨rfl, rfl, rfl, rfl⟩, .refl _, .refl _, .of_fall (.inl hi) hb, .refl _⟩

theorem Allowed.rotate (hi : i.mayRotate = true) (b : Bool) : Allowed i x { x with wasAutoSent := b } :=
  ⟨fun _ => ⟨rfl, rfl, rfl, rfl⟩, .refl _, .refl _, .refl _, ⟨fun _ _ => hi, fun _ _ => .inl hi⟩⟩

theorem Allowed.free (hi : i.isBind = true) (hu : i.mayUnbind = true) : Allowed i x Slot.free :=
  ⟨fun h => absurd (hi.symm.trans h) nofun, .of_fall hu nofun, .of_fall (.inr hi) nofun, .of_fall (.inr hi) nofun,
    .of_fall (.inr hi) nofun⟩

theorem Allowed.bound (hi : i.isBind = true) {id : Byte} {region : Addr} {size : Byte} {autoSend : Bool}
    (hset : autoSend = true → ∃ id region size, i = .bind id region size true)
    (hclear : autoSend = false → i.mayUnbind = true) : Allowed i x (boundSlot id region size autoSend) :=
  ⟨fun h => absurd (hi.symm.trans h) nofun, ⟨fun _ => hset, fun _ => hclear⟩, .of_fall (.inr hi) nofun,
    .of_fall (.inr hi) nofun, .of_fall (.inr hi) nofun⟩

end Allowed

/-! What each shared operation may do to a slot -/

section Operations

variable {i : Instr} {s t : State}

theorem Allowed.setSlot {k : SlotIx} {x : Slot} (h : Allowed i (s.slot k) x) (j : SlotIx) :
    Allowed i (s.slot j) ((s.setSlot k x).slot j) := by
  by_cases hj : j = k
  · rw [hj, slot_setSlot_same]
    exact h
  · exact .of_eq (slot_setSlot_ne x s hj)

theorem bindItem_allowed (hi : i.isBind = true) {id : Byte} {region : Addr} {size : Byte} {autoSend : Bool}
    (hset : autoSend = true → ∃ id region size, i = .bind id region size true)
    (hclear : region = 0 ∨ autoSend = false → i.mayUnbind = true) (j : SlotIx) :
    Allowed i (s.slot j) ((bindItem id region size autoSend s).slot j) := by
  rcases bindItem_cases id region size autoSend s with ⟨hnull, k, _, e⟩ | ⟨_, _, e⟩ | ⟨_, _, e⟩ | ⟨_, _, _, k, _, e⟩ |
    ⟨_, _, _, _, e⟩ <;> rw [e]
  · exact Allowed.setSlot (.free hi (hclear (.inl hnull))) j
  · exact .refl i _
  · exact .refl i _
  · exact Allowed.setSlot (.bound hi hset fun h => hclear (.inr h)) j
  · exact .refl i _

theorem testAt_slot (found : Option SlotIx) (s : State) (j : SlotIx) : (testAt found s).1.slot j = s.slot j := by
  cases found <;> rfl

theorem clearAt_allowed (hi : i.mayConsume = true) (found : Option SlotIx) (j : SlotIx) :
    Allowed i (s.slot j) ((clearAt found s).slot j) := by
  cases found with
  | none => exact .refl i _
  | some k => exact Allowed.setSlot (.consume hi) j

theorem takeAt_allowed (hi : i.mayConsume = true) (found : Option SlotIx) (j : SlotIx) :
    Allowed i (s.slot j) ((takeAt found s).1.slot j) := by
  cases found with
  | none => exact .refl i _
  | some k => exact Allowed.setSlot (.consume hi) j

theorem markAt_allowed (hi : i.mayQueue = true) (found : Option SlotIx) (j : SlotIx) :
    Allowed i (s.slot j) ((markAt found s).1.slot j) := by
  cases found with
  | none => exact .refl i _
  | some k => exact Allowed.setSlot (.queue hi) j

theorem enqueue_slot (id : Byte) (data : List Byte) (length : Byte) (s : State) (j : SlotIx) :
    (enqueue id data length s).1.slot j = s.slot j := by
  rcases enqueue_cases id data length s with e | ⟨_, _, e⟩ <;> rw [e] <;> rfl

/-- A hook may write application memory, but reaches no slot (R240). -/
theorem callHook_slot {r : State × Nat} (h : callHook s = .next r) (j : SlotIx) : r.1.slot j = s.slot j := by
  rcases callHook_cases s with ⟨_, _, e⟩ | ⟨_, e⟩ | ⟨_, _, _, _, _, _, e⟩ <;> cases e.symm.trans h <;> rfl

theorem notifyDiscard_slot {b : List Byte} (h : notifyDiscard b s = .next t) (j : SlotIx) : t.slot j = s.slot j := by
  obtain ⟨r, hr, e⟩ := andThen_eq_next.mp h
  cases e
  exact callHook_slot hr j

theorem discardBytes_slot {m : Nat} (h : discardBytes m s = .next t) (j : SlotIx) : t.slot j = s.slot j := by
  obtain ⟨u, hu, _, rfl, _⟩ := discardBytes_eq_next h
  exact notifyDiscard_slot hu j

/-- Decoding may set `Received`, nothing else of a slot (R150). -/
theorem Decoded.allowed (h : Decoded s t) (hi : i.mayReceive = true) (j : SlotIx) : Allowed i (s.slot j) (t.slot j) := by
  rw [h.slot j]
  exact .receive hi (h.sets j)

/-- The Reader may set `Received`, nothing else of a slot (R187). -/
theorem Reads.allowed (h : Reads s t) (hi : i.mayReceive = true) (j : SlotIx) : Allowed i (s.slot j) (t.slot j) := by
  rw [h.slot j]
  exact .receive hi (h.sets j)

/-- The Writer may clear `ToSend`, and change `WasAutoSent` (R210). -/
theorem Writes.allowed (h : Writes s t) (hi : i.mayInclude = true) (hr : i.mayRotate = true) (j : SlotIx) :
    Allowed i (s.slot j) (t.slot j) := by
  rw [h.slot j]
  exact (Allowed.includeItem hi (h.clears j)).trans (.rotate hr _)

/-- Without an autosend cycle a payload leaves the rotation alone (R160). -/
theorem encodePayload_false_wasAutoSent (s : State) (j : SlotIx) :
    ((encodePayload false s).slot j).wasAutoSent = (s.slot j).wasAutoSent := by
  obtain ⟨_, _, _, h⟩ := encodePayload_spec false s
  rw [h.slot j]
  simp

theorem encodePayload_allowed {due : Bool} (hi : i.mayInclude = true) (hr : due = true → i.mayRotate = true) (j : SlotIx) :
    Allowed i (s.slot j) ((encodePayload due s).slot j) := by
  have hw := encodePayload_writes due s
  cases due with
  | true => exact hw.allowed hi (hr rfl) j
  | false =>
    rw [hw.slot j, encodePayload_false_wasAutoSent]
    exact .includeItem hi (hw.clears j)

/-- The header around a payload changes no slot (R197, R198). -/
theorem constructFrame_slot (now : Time) (due : Bool) (s : State) (j : SlotIx) :
    (constructFrame now due s).slot j = (encodePayload due (advanceSerial s)).slot j := by
  unfold constructFrame
  generalize encodePayload due (advanceSerial s) = u
  cases due <;> rfl

theorem constructFrame_allowed (now : Time) {due : Bool} (hi : i.mayInclude = true) (hr : due = true → i.mayRotate = true)
    (j : SlotIx) : Allowed i (s.slot j) ((constructFrame now due s).slot j) := by
  rw [constructFrame_slot]
  exact encodePayload_allowed (s := advanceSerial s) hi hr j

theorem txAttempt_slot (s : State) (j : SlotIx) : (txAttempt s).slot j = s.slot j := by
  obtain ⟨_, _, _, hslots⟩ := txAttempt_keeps s
  exact slot_of_slots hslots j

end Operations

/-- Every operation does to each slot what its row of the flag state machine allows (R142). -/
theorem exec_allowed {i : Instr} {s t : State} (h : exec i s = .next t) (j : SlotIx) : Allowed i (s.slot j) (t.slot j) := by
  cases i with
  | bind id region size autoSend =>
    cases h
    exact bindItem_allowed rfl (fun ha => ⟨id, region, size, ha ▸ rfl⟩) (fun hc => by simpa [Instr.mayUnbind] using hc) j
  | unbind => cases h; exact bindItem_allowed (autoSend := false) rfl nofun (fun _ => rfl) j
  | isrx => cases h; exact .of_eq (testAt_slot ..)
  | clrx => cases h; exact clearAt_allowed rfl _ j
  | take | takep => cases h; exact takeAt_allowed rfl _ j
  | send | sendp | markToSend => cases h; exact markAt_allowed rfl _ j
  | enq => cases h; exact .of_eq (enqueue_slot ..)
  | markReceived id src => cases h; exact (markReceived_decoded id src s).allowed rfl j
  | dispatchItem typ data => cases h; exact (markReceived_decoded typ data s).allowed rfl j
  | decodePayload => exact (decodePayload_decoded h).allowed rfl j
  | subpacket =>
    obtain ⟨r, hr, e⟩ := andThen_eq_next.mp h
    cases e
    exact (decodePass_decoded hr).1.allowed rfl j
  | frame =>
    obtain ⟨_, _, _, _, hreads, _⟩ := acceptFrame_eq_next h
    exact hreads.allowed rfl j
  | readerPhase =>
    obtain ⟨hreads, _⟩ := readerPhase_eq_next h
    exact hreads.allowed (s := fill s) rfl j
  | writerPhase now => cases h; exact (writerPhase_writes now s).allowed rfl rfl j
  | stepCmd now =>
    obtain ⟨u, hu, e⟩ := andThen_eq_next.mp h
    cases e
    obtain ⟨v, _, hreads, _, rfl⟩ := tick_eq_next hu
    exact (hreads.allowed (s := fill s) rfl j).trans ((writerPhase_writes now v).allowed rfl rfl j)
  | encodePayload due => cases eq_next_of_guard_not h; exact encodePayload_allowed rfl (by rintro rfl; rfl) j
  | constructFrame now due => cases eq_next_of_guard_not h; exact constructFrame_allowed now rfl (by rintro rfl; rfl) j
  | txAttempt => cases eq_next_of_guard h; exact .of_eq (txAttempt_slot s j)
  | append | drop => cases eq_next_of_guard h; exact .refl _ _
  | discard => exact .of_eq (discardBytes_slot (eq_next_of_guard h) j)
  | notifyDiscard => exact .of_eq (notifyDiscard_slot h j)
  | unknownHook =>
    obtain ⟨r, hr, e⟩ := andThen_eq_next.mp h
    cases e
    exact .of_eq (callHook_slot hr j)
  | beginCmd | rser | reserved | checksum16 | crcInit | crcByte | lookup | lookupByRegion | fits | fill | pace
  | backlogUpdate | transportRead | transportWrite => cases h; exact .refl _ _

/-- Settles O32, by what each operation may do to a slot. -/
theorem onlyTheirOperationsChangeTheFlags : Obligations.OnlyTheirOperationsChangeTheFlags := by
  unfold Obligations.OnlyTheirOperationsChangeTheFlags
  intro i s t h j
  have ha := exec_allowed h j
  exact ⟨ha.binding, ha.autoSend.rises, ha.autoSend.falls, ha.received.rises, ha.received.falls, ha.toSend.rises,
    ha.toSend.falls, ha.wasAutoSent.rises, ha.wasAutoSent.falls⟩

/-! The operations on a found slot (R130, R131, R135 to R141) -/

section Commands

variable {id : Byte} {region : Addr} {s : State} {found : Option SlotIx}

theorem exec_lookup (h : lookup id s = found) : exec (.lookup id) s = .next (s.give (.slot found)) := by
  rw [exec, execLookup, h]

theorem exec_lookupByRegion (h : lookupByRegion region s = found) :
    exec (.lookupByRegion region) s = .next (s.give (.slot found)) := by
  rw [exec, execLookupByRegion, h]

theorem exec_isrx (h : lookup id s = found) : exec (.isrx id) s = .next (answer (testAt found s)) := by
  rw [exec, execIsrx, h]

theorem exec_clrx (h : lookup id s = found) : exec (.clrx id) s = .next ((clearAt found s).respond .none) := by
  rw [exec, execClrx, h]

theorem exec_take (h : lookup id s = found) : exec (.take id) s = .next (answer (takeAt found s)) := by
  rw [exec, execTake, h]

theorem exec_takep (h : lookupByRegion region s = found) : exec (.takep region) s = .next (answer (takeAt found s)) := by
  rw [exec, execTakep, h]

theorem exec_send (h : lookup id s = found) : exec (.send id) s = .next (answer (markAt found s)) := by
  rw [exec, execSend, h]

theorem exec_sendp (h : lookupByRegion region s = found) : exec (.sendp region) s = .next (answer (markAt found s)) := by
  rw [exec, execSendp, h]

theorem exec_markToSend (h : lookup id s = found) :
    exec (.markToSend id) s = .next ((markAt found s).1.give (.bool (markAt found s).2)) := by
  rw [exec, execMarkToSend, h]

end Commands

/-- Settles O24, by whether a slot is found. -/
theorem lookupsFindTheLowestSlot : Obligations.LookupsFindTheLowestSlot := by
  unfold Obligations.LookupsFindTheLowestSlot
  refine ⟨fun id s => ⟨fun i hi => ?_, fun hnone => ?_⟩, fun region s => ⟨fun i hi => ?_, fun hnone => ?_⟩⟩
  · exact exec_lookup (lookup_eq_some.mpr hi)
  · exact exec_lookup (lookup_eq_none.mpr hnone)
  · exact exec_lookupByRegion (lookupByRegion_eq_some.mpr hi)
  · exact exec_lookupByRegion (lookupByRegion_eq_none.mpr hnone)

/-- Settles O29, by whether a slot holds the id. -/
theorem freshnessQueriesAnswerTheFlag : Obligations.FreshnessQueriesAnswerTheFlag := by
  unfold Obligations.FreshnessQueriesAnswerTheFlag
  refine fun id s => ⟨fun i hi => ?_, fun hnone => ?_⟩
  · have hfound := lookup_eq_some.mpr hi
    exact ⟨exec_isrx hfound, exec_clrx hfound⟩
  · have hfound := lookup_eq_none.mpr hnone
    exact ⟨exec_isrx hfound, exec_clrx hfound⟩

/-- Settles O31, by whether a slot is found. -/
theorem sendMarksTheItem : Obligations.SendMarksTheItem := by
  unfold Obligations.SendMarksTheItem
  refine ⟨fun id s => ⟨fun i hi => ?_, fun hnone => ?_⟩, fun region s => ⟨fun i hi => ?_, fun hnone => ?_⟩⟩
  · have hfound := lookup_eq_some.mpr hi
    exact ⟨exec_send hfound, exec_markToSend hfound⟩
  · have hfound := lookup_eq_none.mpr hnone
    exact ⟨exec_send hfound, exec_markToSend hfound⟩
  · exact exec_sendp (lookupByRegion_eq_some.mpr hi)
  · exact exec_sendp (lookupByRegion_eq_none.mpr hnone)

/-! `takeFresh` a second time (R138, R139) -/

/-- A scan answers the same in two states whose slots it cannot tell apart. -/
theorem firstSlot_congr {p : Slot → Bool} {s t : State} (h : ∀ j, p (t.slot j) = p (s.slot j)) :
    firstSlot p t = firstSlot p s := by
  unfold firstSlot
  simp only [h]

/-- Clearing `Received` leaves what a slot holds alone (R142). -/
theorem takeAt_binding (found : Option SlotIx) (s : State) (j : SlotIx) :
    ((takeAt found s).1.slot j).used = (s.slot j).used ∧ ((takeAt found s).1.slot j).id = (s.slot j).id ∧
      ((takeAt found s).1.slot j).region = (s.slot j).region := by
  obtain ⟨hused, hid, hregion, _⟩ := (takeAt_allowed (i := .take 0) rfl found j : Allowed _ (s.slot j) _).binding rfl
  exact ⟨hused, hid, hregion⟩

theorem lookup_takeAt (id : Byte) (found : Option SlotIx) (s : State) :
    lookup id (answer (takeAt found s)) = lookup id s :=
  firstSlot_congr fun j => by
    obtain ⟨hused, hid, _⟩ := takeAt_binding found s j
    rw [answer, slot_respond, hused, hid]

theorem lookupByRegion_takeAt (region : Addr) (found : Option SlotIx) (s : State) :
    lookupByRegion region (answer (takeAt found s)) = lookupByRegion region s :=
  firstSlot_congr fun j => by
    obtain ⟨hused, _, hregion⟩ := takeAt_binding found s j
    rw [answer, slot_respond, hused, hregion]

/-- Clearing `Received` where it is clear changes no slot. -/
theorem setReceived_false_slots {i : SlotIx} {s : State} (h : (s.slot i).received = false) :
    (setReceived i false s).slots = s.slots := by
  refine slots_ext fun j => ?_
  rw [slot_setReceived]
  split
  case isTrue hj => rw [hj, ← h]
  case isFalse => rfl

/-- The flag just taken reads as clear, and a second call on the same slot changes no slot. -/
theorem takeAt_again (found : Option SlotIx) (s : State) :
    (takeAt found (answer (takeAt found s))).2 = false ∧
      (takeAt found (answer (takeAt found s))).1.slots = (answer (takeAt found s)).slots := by
  cases found with
  | none => exact ⟨rfl, rfl⟩
  | some i =>
    have hclear : ((answer (takeAt (some i) s)).slot i).received = false := by
      show ((setReceived i false s).slot i).received = false
      rw [slot_setReceived, if_pos rfl]
    exact ⟨hclear, setReceived_false_slots hclear⟩

/-- Settles O30: by whether a slot is found; and the first call leaves what the second one finds, with the flag clear. -/
theorem takeFreshTestsAndClears : Obligations.TakeFreshTestsAndClears := by
  unfold Obligations.TakeFreshTestsAndClears
  refine ⟨fun id s => ⟨fun i hi => ?_, fun hnone => ?_⟩, fun region s => ⟨fun i hi => ?_, fun hnone => ?_⟩,
    fun id s t h => ?_, fun region s t h => ?_⟩
  · exact exec_take (lookup_eq_some.mpr hi)
  · exact exec_take (lookup_eq_none.mpr hnone)
  · exact exec_takep (lookupByRegion_eq_some.mpr hi)
  · exact exec_takep (lookupByRegion_eq_none.mpr hnone)
  · cases h
    obtain ⟨hanswer, hslots⟩ := takeAt_again (lookup id s) s
    exact ⟨_, exec_take (lookup_takeAt id _ s), congrArg Response.bool hanswer, hslots⟩
  · cases h
    obtain ⟨hanswer, hslots⟩ := takeAt_again (lookupByRegion region s) s
    exact ⟨_, exec_takep (lookupByRegion_takeAt region _ s), congrArg Response.bool hanswer, hslots⟩

/-! `bind` (R132) -/

theorem exec_bind (id : Byte) (region : Addr) (size : Byte) (autoSend : Bool) (s : State) :
    exec (.bind id region size autoSend) s = .next ((bindItem id region size autoSend s).respond .none) := rfl

section Bind

variable {id : Byte} {region : Addr} {size : Byte} {s : State}

/-- The operands `bind` refuses: an item that is too large, or one that crosses the top of memory (R25, R132). -/
theorem bindRefuses_iff : (decide (size.toNat > Config.engine.maxItemSize) || crossesTop region size) = true ↔
    size.toNat > 56 ∨ region.toNat + size.toNat > 2 ^ 32 := by
  rw [Config.maxItemSize_eq, crossesTop, Config.appAW_eq, Bool.or_eq_true, decide_eq_true_iff, decide_eq_true_iff]

theorem bindItem_refused (hr : region ≠ 0) (h : size.toNat > 56 ∨ region.toNat + size.toNat > 2 ^ 32)
    (autoSend : Bool) : bindItem id region size autoSend s = s.fail .arg := by
  rw [bindItem, Config.nullAddr_eq, if_neg hr, if_pos (bindRefuses_iff.mpr h)]

section Legal

variable (hr : region ≠ 0) (hz : size.toNat ≤ 56) (ht : region.toNat + size.toNat ≤ 2 ^ 32)
include hr hz ht

theorem bindItem_of_slot {i : SlotIx} (h : slotFor id s = some i) (autoSend : Bool) :
    bindItem id region size autoSend s = s.setSlot i (boundSlot id region size autoSend) := by
  have hlegal := mt bindRefuses_iff.mp (not_or.mpr ⟨hz.not_gt, ht.not_gt⟩)
  rw [bindItem, Config.nullAddr_eq, if_neg hr, if_neg hlegal, h]

theorem bindItem_full (h : slotFor id s = none) (autoSend : Bool) :
    bindItem id region size autoSend s = s.fail .full := by
  have hlegal := mt bindRefuses_iff.mp (not_or.mpr ⟨hz.not_gt, ht.not_gt⟩)
  rw [bindItem, Config.nullAddr_eq, if_neg hr, if_neg hlegal, h]

end Legal

end Bind

/-- Settles O25, by the branches of `bind`: a null region, operands it refuses, and a legal item with or without a slot. -/
theorem bindFollowsItsRule : Obligations.BindFollowsItsRule := by
  unfold Obligations.BindFollowsItsRule
  refine fun id region size autoSend s =>
    ⟨?_, ?_, fun hr hbad => ?_, fun hr hz ht => ⟨fun i hi => ?_, fun hnone hfull => ?_⟩⟩
  · rintro rfl i hi
    rw [exec_bind, ← Config.nullAddr_eq, bindItem_null_of_some (lookup_eq_some.mpr hi)]
    rfl
  · rintro rfl hnone
    rw [exec_bind, ← Config.nullAddr_eq, bindItem_null_of_none (lookup_eq_none.mpr hnone)]
    rfl
  · rw [exec_bind, bindItem_refused hr hbad]
    rfl
  · rw [exec_bind, bindItem_of_slot hr hz ht (slotFor_eq_some.mpr hi)]
    rfl
  · rw [exec_bind, bindItem_full hr hz ht (slotFor_eq_none.mpr ⟨hnone, hfull⟩)]
    rfl

/-! `markReceived` (R134, R155) -/

/-- The writes of a region copy by offset: byte `k` goes to base plus `k` (R62, R134). -/
theorem writeEvents_eq_mapIdx (d : List Byte) (a : Addr) :
    writeEvents a d = d.mapIdx fun k b => .memWrite (a + BitVec.ofNat 32 k) b := by
  induction d generalizing a with
  | nil => rfl
  | cons b d ih =>
    rw [writeEvents, ih, List.mapIdx_cons]
    simp only [addr_succ]
    simp

theorem memWriteAll_frame (a : Addr) (d : List Byte) (s : State) : memWriteAll a d s =
    { s with mem := (memWriteAll a d s).mem, log := s.log ++ writeEvents a d } := by
  obtain ⟨m, l, h⟩ := memWriteAll_eq d a s
  rw [← memWriteAll_log, h]

section MarkReceived

variable {id : Byte} {s : State}

theorem markReceived_of_none (h : lookup id s = none) (src : List Byte) : markReceived id src s = s := by
  rw [markReceived, h]

theorem markReceived_of_some {i : SlotIx} (h : lookup id s = some i) (src : List Byte) : markReceived id src s =
    setReceived i true (memWriteAll (s.slot i).region (src.take (s.slot i).size.toNat) s) := by
  rw [markReceived, h]

end MarkReceived

theorem exec_markReceived (id : Byte) (src : List Byte) (s : State) :
    exec (.markReceived id src) s = .next (markReceived id src s) := rfl

theorem exec_dispatchItem (typ : Byte) (data : List Byte) (s : State) :
    exec (.dispatchItem typ data) s = .next (markReceived typ data s) := rfl

/-- Settles O28: the copy takes the first `size` bytes of `src`, and DispatchItem is `markReceived`. -/
theorem markReceivedWritesTheRegion : Obligations.MarkReceivedWritesTheRegion := by
  unfold Obligations.MarkReceivedWritesTheRegion
  refine fun id src s => ⟨fun hnone => ?_, fun i hi hwf => ?_⟩
  · rw [exec_markReceived, exec_dispatchItem, markReceived_of_none (lookup_eq_none.mpr hnone)]
    exact ⟨rfl, rfl⟩
  have hcopied : (src.take (s.slot i).size.toNat).length = min src.length (s.slot i).size.toNat := by
    rw [List.length_take, Nat.min_comm]
  refine ⟨markReceived id src s, rfl, rfl, ?_⟩
  rw [markReceived_of_some (lookup_eq_some.mpr hi), ← writeEvents_eq_mapIdx, ← hcopied]
  refine ⟨?_, fun k hk => ?_, fun a ha => byteAt_memWriteAll_out _ _ _ _ ha⟩
  · conv_lhs => rw [memWriteAll_frame]
    rfl
  · have hlen : (src.take (s.slot i).size.toNat).length ≤ 2 ^ 32 := by
      have := (s.slot i).size.isLt
      omega
    have hsrc : k < src.length := by omega
    rw [List.getD_eq_getElem _ _ hsrc, ← List.getElem_take (h := hk)]
    exact byteAt_memWriteAll_in _ _ k hk hlen hwf

/-! A queued item in the next frame (R140, R160, R163, R191, R197) -/

/-- Byte `k` of the bytes from an address stands at the address plus `k` (R62). -/
theorem bytesAt_getD (s : State) {n k : Nat} (h : k < n) (a : Addr) :
    (bytesAt s a n).getD k 0 = s.byteAt (a + BitVec.ofNat 32 k) := by
  induction n generalizing a k with
  | zero => exact absurd h (Nat.not_lt_zero k)
  | succ n ih =>
    cases k with
    | zero =>
      have hzero : a + BitVec.ofNat 32 0 = a := BitVec.add_zero a
      rw [hzero]
      rfl
    | succ k => rw [← addr_succ, ← ih (Nat.lt_of_succ_lt_succ h)]; rfl

/-- The lowest candidate is taken first, where it fits by itself (R160, R163). -/
theorem TakenInOrder.head {s : State} {cur : Nat} {candidate : SlotIx → Prop} {l : List SlotIx} {i : SlotIx}
    (h : TakenInOrder s cur candidate l) (hi : Lowest candidate i) (hfit : cur + 1 + (s.slot i).size.toNat ≤ 62) :
    ∃ rest, l = i :: rest := by
  obtain ⟨hsorted, htaken⟩ := h
  obtain ⟨hcandidate, hlowest⟩ := hi
  have hnone : l.filter (· < i) = [] := by
    refine List.filter_eq_nil_iff.mpr fun j hj hlt => ?_
    exact hlowest j (of_decide_eq_true hlt) ((htaken j).mp hj).1
  have hmem : i ∈ l := (htaken i).mpr ⟨hcandidate, by simpa [hnone] using hfit⟩
  cases l with
  | nil => cases hmem
  | cons j rest =>
    rcases List.mem_cons.mp hmem with rfl | hrest
    · exact ⟨rest, rfl⟩
    · have hlt : j < i := List.rel_of_pairwise_cons hsorted hrest
      exact absurd ((htaken j).mp (List.mem_cons_self ..)).1 (hlowest j hlt)

/-- A transport that takes everything takes the whole of a frame of which nothing was sent (R97, R200, R248). -/
theorem txAttempt_whole {s : State} (hc : s.txCounts = []) (hpos : s.txPos = 0) :
    (txAttempt s).txSent = s.txSent ++ s.outBuf ∧ (txAttempt s).txPending = false := by
  have hunsent : unsent s = s.outBuf := by rw [unsent, hpos, List.drop_zero]
  have hall : acceptedCount s.outBuf s = s.outBuf.length := by rw [acceptedCount, hc, chosenCount]
  refine ⟨by rw [txAttempt_txSent, hunsent, hall, List.take_length], ?_⟩
  rcases txAttempt_cases s with ⟨_, e⟩ | ⟨hpart, _⟩
  · rw [e]
  · rw [hunsent, hall, hpos, Nat.zero_add] at hpart
    exact absurd rfl hpart

/-- With an item queued, no frame held and no suppression, the Writer constructs a frame and makes one attempt (R191). -/
theorem writerPhase_of_queued {s : State} (now : Time) (hp : s.txPending = false) (hs : suppressed s = false)
    {i : SlotIx} (hi : (s.slot i).used = true ∧ (s.slot i).toSend = true) :
    writerPhase now s = backlogUpdate (txAttempt (constructFrame now (autoDue now s) s)) := by
  have hwants : wantsFrame now s = true := by rw [wantsFrame, anyToSend_iff.mpr ⟨i, hi⟩]; rfl
  rcases writerPhase_cases now s with ⟨hs', _⟩ | ⟨_, hp', _⟩ | ⟨_, _, _, e⟩ | ⟨_, _, hwants', _⟩
  · exact absurd (hs'.symm.trans hs) nofun
  · exact absurd (hp'.symm.trans hp) nofun
  · exact e
  · exact absurd (hwants'.symm.trans hwants) nofun

/-- With nothing staged, a frame begins its payload with the item of the lowest queued slot, whose request is served. -/
theorem constructFrame_of_queued {s : State} (now : Time) (due : Bool) {i : SlotIx} (hout : s.outCur = 5)
    (hi : Lowest (fun j => (s.slot j).used = true ∧ (s.slot j).toSend = true) i) (hz : (s.slot i).size.toNat ≤ 56) :
    ∃ rest, (packet s i ++ rest).length ≤ 57 ∧
      (constructFrame now due s).outBuf = encodeFrame (nextSerial s.mySerial) s.lastRemoteSerial (packet s i ++ rest) ∧
      (constructFrame now due s).txPos = 0 ∧ (constructFrame now due s).txSent = s.txSent ∧
      (constructFrame now due s).txCounts = s.txCounts ∧ ((constructFrame now due s).slot i).toSend = false := by
  obtain ⟨a, b, c, u, hu, hstaged, hcur, e⟩ := constructFrame_spec now due hout.ge
  have hlowest : Lowest (fun j => ((advanceSerial s).slot j).used = true ∧ ((advanceSerial s).slot j).toSend = true) i :=
    hi
  have hcur0 : (advanceSerial s).outCur = 5 := hout
  have hsize : ((advanceSerial s).slot i).size = (s.slot i).size := rfl
  obtain ⟨a, rfl⟩ := hu.passA.head hlowest (by rw [hcur0, hsize]; omega)
  have hempty : s.staged = [] := List.drop_eq_nil_of_le hout.le
  have hpayload : u.staged = packet s i ++ (a ++ b ++ c).flatMap (packet s) := by
    rw [hstaged, hempty]
    rfl
  have hroom := hu.room (by omega)
  refine ⟨(a ++ b ++ c).flatMap (packet s), ?_, ?_⟩
  · rw [← hpayload]
    omega
  · have hslot : (u.slot i).toSend = false := by
      rw [hu.slot i]
      simp
    rw [e, ← hpayload]
    exact ⟨rfl, rfl, rfl, rfl, hslot⟩

/-- On a legal registry a used slot holds at most 56 bytes (R25). -/
theorem RegistryInv.size_le {s : State} (h : RegistryInv s) {i : SlotIx} (hu : (s.slot i).used = true) :
    (s.slot i).size.toNat ≤ 56 := by
  obtain ⟨hlegal, _⟩ := h
  have hl := hlegal i
  rw [Slot.legal, if_pos hu] at hl
  obtain ⟨_, hsize, _⟩ := hl
  exact hsize

/-- Settles O56: the frame constructed begins with the item, and the transport takes the whole frame. -/
theorem queuedItemLeavesInTheNextFrame : Obligations.QueuedItemLeavesInTheNextFrame := by
  unfold Obligations.QueuedItemLeavesInTheNextFrame
  intro now s i hinv hp hout hmode hlowest hc
  have hs : suppressed s = false := by rcases hmode with h | h <;> simp [suppressed, h]
  have hqueued := hlowest.1
  have hz := hinv.size_le hqueued.1
  obtain ⟨rest, hlen, hframe, hpos, hsent, hcounts, hslot⟩ :=
    constructFrame_of_queued now (autoDue now s) hout hlowest hz
  obtain ⟨hall, hdone⟩ := txAttempt_whole (hcounts.trans hc) hpos
  refine ⟨writerPhase now s, bytesAt s (s.slot i).region (s.slot i).size.toNat, packet s i ++ rest, rest, rfl, rfl, hlen,
    bytesAt_length .., fun k hk => bytesAt_getD s (by simpa using hk) _, ?_⟩
  rw [writerPhase_of_queued now hp hs hqueued]
  refine ⟨?_, hdone, ?_⟩
  · rw [backlogUpdate_txSent, hall, hsent, hframe, encodeFrame_eq]
    rfl
  · exact (congrArg Slot.toSend (txAttempt_slot _ i)).trans hslot

end Sys2Proof.Machine

/-! PROOFS. The family of spec/42_codec.md: decoding of a payload pass by pass and what it leaves alone (R150 to R158), what
EncodePayload, Fits, Append and `enqueuePayload` build (R159 to R164), and the stops of the internal operations outside
their conditions (R161, R172, R200, R201). -/

namespace Sys2Proof.Machine

/-! Decoding (R152 to R158) -/

theorem exec_decodePayload (p : List Byte) (s : State) : exec (.decodePayload p) s = decodePayload p s := rfl

/-- A pass that stops ends the decoding of the payload (R152). -/
theorem decodePayload_of_stop {t : Byte} {rest : List Byte} {s u : State}
    (h : decodePass (t :: rest) s = .next (u, none)) : decodePayload (t :: rest) s = .next u := by
  rw [decodePayload_cons, h, andThen_next]

/-- A pass that leaves bytes is followed by the decoding of these (R152). -/
theorem decodePayload_of_left {t : Byte} {rest left : List Byte} {s u : State}
    (h : decodePass (t :: rest) s = .next (u, some left)) : decodePayload (t :: rest) s = decodePayload left u := by
  rw [decodePayload_cons, h, andThen_next]

/-- After the hook, decoding stops for a count of 0 or above what remains, and skips the count otherwise (R154). -/
theorem decodePayload_of_hook {t : Byte} {rest : List Byte} {s u : State} {c : Nat} (h : lookup t s = none)
    (hu : unknownHook t rest (s.fail .unknown) = .next (u, c)) :
    (c = 0 ∨ rest.length < c → decodePayload (t :: rest) s = .next u) ∧
    (1 ≤ c → c ≤ rest.length → decodePayload (t :: rest) s = decodePayload (rest.drop c) u) := by
  have hpass := decodePass_unknown h hu
  refine ⟨fun hstop => decodePayload_of_stop ?_, fun hpos hle => decodePayload_of_left ?_⟩
  · rw [hpass, if_pos hstop]
  · rw [hpass, if_neg (by omega)]

/-- What stands in the log when the hook is asked: the error, then the call (R231, R238). -/
theorem emit_unknownHook_fail (t : Byte) (rest : List Byte) (s : State) : (s.fail .unknown).emit (.unknownHook t rest) =
    { s with log := s.log ++ [.error .unknown, .unknownHook t rest] } := by
  simp [State.fail, State.emit]

/-- Settles O34: the loop by its first pass, a bound type with its data, a truncated one, and an unknown one by the hook's
answer. -/
theorem decodePayloadFollowsItsLoop : Obligations.DecodePayloadFollowsItsLoop := by
  unfold Obligations.DecodePayloadFollowsItsLoop
  simp only [exec_decodePayload]
  refine fun s => ⟨rfl, fun t rest => ⟨fun i hi => ⟨fun hle => ?_, fun hlt => ?_⟩, fun hnone => ⟨fun hdef => ?_, ?_⟩⟩⟩
  · exact decodePayload_of_left (decodePass_known (lookup_eq_some.mpr hi) hle)
  · exact decodePayload_of_stop (decodePass_truncated (lookup_eq_some.mpr hi) hlt)
  · have hhook := unknownHook_default (s := s.fail .unknown) hdef t rest
    rw [emit_unknownHook_fail] at hhook
    obtain ⟨hstop, _⟩ := decodePayload_of_hook (lookup_eq_none.mpr hnone) hhook
    exact hstop (.inl rfl)
  · intro c writes answers hret
    have hhook := unknownHook_returns (s := s.fail .unknown) hret t rest
    rw [emit_unknownHook_fail] at hhook
    exact ⟨_, rfl, decodePayload_of_hook (lookup_eq_none.mpr hnone) hhook⟩

/-- Settles O35: decoding completes, and what it may do is `Decoded`. -/
theorem decodePayloadKeepsTheEngine : Obligations.DecodePayloadKeepsTheEngine := by
  unfold Obligations.DecodePayloadKeepsTheEngine
  intro p s hs
  obtain ⟨t, ht⟩ := decodePayload_completes hs p
  have hdecoded := decodePayload_decoded ht
  exact ⟨t, ht, hdecoded.eq, fun i => ⟨hdecoded.slot i, hdecoded.sets i⟩⟩

/-! Encoding (R159 to R162) -/

theorem exec_encodePayload {s : State} (h : s.txPending = false) (due : Bool) :
    exec (.encodePayload due) s = .next (encodePayload due s) :=
  if_neg (Bool.eq_false_iff.mp h)

/-- Settles O37: the three lists and the state after them are those of `Encoded`. -/
theorem encodePayloadBuildsThePayload : Obligations.EncodePayloadBuildsThePayload := by
  unfold Obligations.EncodePayloadBuildsThePayload
  intro due s hp
  obtain ⟨a, b, c, h⟩ := encodePayload_spec due s
  exact ⟨a, b, c, encodePayload due s, exec_encodePayload hp due, h.passA, h.noB,
    fun hdue => ⟨h.passB1 hdue, h.passB2 hdue⟩, h.eq, h.slot, h.log, h.reads⟩

theorem fits_eq_decide (s : State) (i : SlotIx) : fits s i = decide (s.outCur + 1 + (s.slot i).size.toNat ≤ 62) := by
  rw [Bool.eq_iff_iff, fits_iff, decide_eq_true_iff]

theorem exec_fits (i : SlotIx) (s : State) : exec (.fits i) s = .next (s.give (.bool (fits s i))) := rfl

/-- The condition under which `Append` is stated: a used slot that fits (R161). -/
theorem appendAllowed_iff {s : State} {i : SlotIx} : ((s.slot i).used && fits s i) = true ↔
    (s.slot i).used = true ∧ s.outCur + 1 + (s.slot i).size.toNat ≤ 62 := by
  rw [Bool.and_eq_true, fits_iff]

theorem exec_append {s : State} {i : SlotIx} (hu : (s.slot i).used = true)
    (hfit : s.outCur + 1 + (s.slot i).size.toNat ≤ 62) : exec (.append i) s = .next (appendSlot i s) :=
  if_pos (appendAllowed_iff.mpr ⟨hu, hfit⟩)

/-- The reads of a region by offset: byte `k` comes from base plus `k` (R62, R161). -/
theorem readEvents_eq_mapIdx (d : List Byte) (a : Addr) :
    readEvents a d = d.mapIdx fun k b => .memRead (a + BitVec.ofNat 32 k) b := by
  induction d generalizing a with
  | nil => rfl
  | cons b d ih =>
    rw [readEvents, ih, List.mapIdx_cons]
    simp only [addr_succ]
    simp

theorem itemBytes_length (s : State) (i : SlotIx) : (itemBytes s i).length = (s.slot i).size.toNat :=
  bytesAt_length ..

/-- Settles O38: the bytes appended are `itemBytes`, and the reads recorded are theirs. -/
theorem appendCopiesTheRegion : Obligations.AppendCopiesTheRegion := by
  unfold Obligations.AppendCopiesTheRegion
  refine fun i s => ⟨?_, fun hu hfit => ⟨itemBytes s i, itemBytes_length s i, fun k hk => ?_, ?_⟩⟩
  · rw [exec_fits, fits_eq_decide]
    rfl
  · rw [itemBytes_length] at hk
    exact bytesAt_getD s hk _
  · rw [exec_append hu hfit, ← readEvents_eq_mapIdx]
    rfl

/-! `enqueuePayload` (R164) -/

theorem exec_enq (id : Byte) (data : List Byte) (length : Byte) (s : State) :
    exec (.enq id data length) s = .next (answer (enqueue id data length s)) := rfl

section Enqueue

variable {id length : Byte} {data : List Byte} {s : State}

theorem enqueue_refused (h : s.txPending = true ∨ 62 < s.outCur + 1 + length.toNat) :
    enqueue id data length s = (s.fail .space, false) := by
  rcases enqueue_cases id data length s with e | ⟨hp, hroom, _⟩
  · exact e
  · rcases h with hheld | hfull
    · exact absurd (hheld.symm.trans hp) nofun
    · exact absurd hroom hfull.not_ge

theorem enqueue_staged (hp : s.txPending = false) (hroom : s.outCur + 1 + length.toNat ≤ 62) :
    enqueue id data length s = (stage id (data.take length.toNat) s, true) := by
  have hfits : roomFor s length.toNat = true := decide_eq_true hroom
  rw [enqueue, hp, hfits]
  rfl

end Enqueue

/-- Settles O39, by whether the sub-packet can be staged. -/
theorem enqueueStagesOrFails : Obligations.EnqueueStagesOrFails := by
  unfold Obligations.EnqueueStagesOrFails
  refine fun id data length s hlen => ⟨fun hno => ?_, fun hp hroom => ?_⟩
  · rw [exec_enq, enqueue_refused hno]
    rfl
  · rw [exec_enq, enqueue_staged hp hroom, List.take_of_length_le hlen.le]
    rfl

/-! Stops outside the rules' conditions (R159, R161, R172, R200, R201; log entry 17) -/

/-- The range `Drop` and `Discard` are stated for: `1 <= m <= inCur` (R172). -/
theorem not_dropRange {m : Nat} {s : State} (h : m = 0 ∨ s.inCur < m) :
    ¬(decide (1 ≤ m) && decide (m ≤ s.inCur)) = true := by
  rw [Bool.and_eq_true, decide_eq_true_iff, decide_eq_true_iff]
  omega

/-- A slot that is free or too large is none that `Append` is stated for (R161). -/
theorem not_appendAllowed {s : State} {i : SlotIx}
    (h : (s.slot i).used = false ∨ 62 < s.outCur + 1 + (s.slot i).size.toNat) : ¬((s.slot i).used && fits s i) = true := by
  rw [appendAllowed_iff]
  rintro ⟨hu, hfit⟩
  rcases h with hfree | hlarge
  · exact absurd (hu.symm.trans hfree) nofun
  · exact absurd hfit hlarge.not_ge

/-- Settles O59: each operation tests its condition first. -/
theorem outsideTheirConditionsOperationsStop : Obligations.OutsideTheirConditionsOperationsStop := by
  unfold Obligations.OutsideTheirConditionsOperationsStop
  refine fun s => ⟨fun m hm => ⟨if_neg (not_dropRange hm), if_neg (not_dropRange hm)⟩,
    fun i hi => if_neg (not_appendAllowed hi), fun hheld now due => ⟨if_pos hheld, if_pos hheld⟩, fun hnone => ?_⟩
  exact if_neg (Bool.eq_false_iff.mp hnone)

end Sys2Proof.Machine

/-! PROOFS. The family of spec/43_reader.md: the three buffer primitives (R172), each answer of the parsing loop to the head
of the buffer (R174, R177, R179, R180), where a Reader phase rests and what it leaves alone (R171, R185, R187), and noise
before a frame (R186). -/

namespace Sys2Proof.Machine

/-! The primitives (R172) -/

/-- What the transport delivers and what it keeps are what it held, in order (R247). -/
theorem delivered_append_drop (n : Nat) (s : State) :
    s.rxHeld = delivered n s ++ s.rxHeld.drop (delivered n s).length :=
  List.prefix_append_drop (List.take_prefix _ s.rxHeld)

theorem delivered_length (n : Nat) (s : State) :
    (delivered n s).length = chosenCount s.rxCounts (min n s.rxHeld.length) := by
  have hle := chosenCount_le s.rxCounts (min n s.rxHeld.length)
  rw [delivered, List.length_take]
  omega

theorem delivered_length_le (n : Nat) (s : State) : (delivered n s).length ≤ n := by
  have hle := chosenCount_le s.rxCounts (min n s.rxHeld.length)
  rw [delivered_length]
  omega

section Discard

variable {s : State} {m c : Nat} {writes : List (Addr × Byte)} {answers : List HookAnswer}

/-- `Drop` and `Discard` are stated for `1 <= m <= inCur` (R172). -/
theorem dropRange (hpos : 1 ≤ m) (hle : m ≤ s.inCur) : (decide (1 ≤ m) && decide (m ≤ s.inCur)) = true := by
  rw [Bool.and_eq_true, decide_eq_true_iff, decide_eq_true_iff]
  exact ⟨hpos, hle⟩

theorem exec_drop (hpos : 1 ≤ m) (hle : m ≤ s.inCur) : exec (.drop m) s = .next (dropBytes m s) :=
  if_pos (dropRange hpos hle)

theorem exec_discard (hpos : 1 ≤ m) (hle : m ≤ s.inCur) : exec (.discard m) s = discardBytes m s :=
  if_pos (dropRange hpos hle)

theorem hookStores_inBuf (writes : List (Addr × Byte)) (s : State) : (hookStores writes s).inBuf = s.inBuf := by
  obtain ⟨mem, h⟩ := hookStores_eq writes s
  rw [h]

/-- With no answer announced the default hook does nothing (R236). -/
theorem notifyDiscard_default (h : s.hookAnswers = []) (b : List Byte) :
    notifyDiscard b s = .next (s.emit (.discard b)) := by
  rw [notifyDiscard, callHook, State.emit, h]
  rfl

/-- An announced answer is taken and its bytes are written (R236, R240). -/
theorem notifyDiscard_returns (h : s.hookAnswers = .returns c writes :: answers) (b : List Byte) :
    notifyDiscard b s = .next (hookStores writes { s.emit (.discard b) with hookAnswers := answers }) := by
  rw [notifyDiscard, callHook, State.emit, h]
  rfl

theorem discardBytes_default (h : s.hookAnswers = []) (m : Nat) : discardBytes m s =
    .next { s with inBuf := s.inBuf.drop m, log := s.log ++ [.discard (s.inBuf.take m)] } := by
  rw [discardBytes, notifyDiscard_default h]
  rfl

theorem discardBytes_returns (h : s.hookAnswers = .returns c writes :: answers) (m : Nat) : discardBytes m s =
    .next { hookStores writes { s with hookAnswers := answers, log := s.log ++ [.discard (s.inBuf.take m)] } with
      inBuf := s.inBuf.drop m } := by
  rw [discardBytes, notifyDiscard_returns h, andThen_next, dropBytes, hookStores_inBuf]
  rfl

/-- What stands in the log when the hook is told: the error, then the bytes (R231, R236). -/
theorem discardBytes_fail_default (h : s.hookAnswers = []) (e : ErrorCode) (m : Nat) : discardBytes m (s.fail e) =
    .next { s with inBuf := s.inBuf.drop m, log := s.log ++ [.error e, .discard (s.inBuf.take m)] } := by
  rw [discardBytes_default (s := s.fail e) h]
  simp [State.fail, State.emit]

theorem discardBytes_fail_returns (h : s.hookAnswers = .returns c writes :: answers) (e : ErrorCode) (m : Nat) :
    discardBytes m (s.fail e) = .next { hookStores writes { s with
      hookAnswers := answers, log := s.log ++ [.error e, .discard (s.inBuf.take m)] } with inBuf := s.inBuf.drop m } := by
  rw [discardBytes_returns (s := s.fail e) h]
  simp [State.fail, State.emit]

end Discard

/-- Settles O40: `Fill` by what the transport delivers, `Drop` and `Discard` by their range and the hook's answer. -/
theorem bufferPrimitivesFollowTheirRule : Obligations.BufferPrimitivesFollowTheirRule := by
  unfold Obligations.BufferPrimitivesFollowTheirRule
  refine ⟨fun s _ => ?_, fun m s hpos hle => ⟨exec_drop hpos hle, fun hdef => ?_, fun c writes answers hret => ?_⟩,
    fun s => ⟨fill s, rfl, rfl⟩⟩
  · exact ⟨delivered (64 - s.inCur) s, _, delivered_append_drop _ s, delivered_length_le _ s, delivered_length _ s, rfl⟩
  · rw [exec_discard hpos hle, discardBytes_default hdef]
  · exact ⟨_, rfl, by rw [exec_discard hpos hle, discardBytes_returns hret]⟩

/-! What the decoder answers (R174, R177, R179) -/

/-- A first byte other than `55` cannot start a frame (R174). -/
theorem decodeWire_of_ne_magic0 {b : Byte} (h : b ≠ 0x55) (rest : List Byte) : decodeWire (b :: rest) = .badMagic := by
  cases rest with
  | nil => exact if_neg h
  | cons b1 rest => exact if_pos h

/-- Nor can a `55` before a byte other than `AA` (R174). -/
theorem decodeWire_of_ne_magic1 {b : Byte} (h : b ≠ 0xAA) (rest : List Byte) :
    decodeWire (0x55 :: b :: rest) = .badMagic := by
  have h1 : b ≠ Config.engine.magic1 := h
  simp [decodeWire, Config.magic0_eq, h1]

theorem decodeWire_badLength {len : Byte} (h : 57 < len.toNat) (f l : Byte) (body : List Byte) :
    decodeWire (0x55 :: 0xAA :: f :: l :: len :: body) = .badLength :=
  if_pos h

/-- The received checksum is the second byte before the first (R82). -/
theorem checksumOf_eq_append (low high : Byte) : checksumOf low high = high ++ low := by
  rw [checksumOf_eq_iff, checksumLow_eq, checksumHigh_eq]
  exact ⟨(BitVec.extractLsb'_append_eq_right).symm, (BitVec.extractLsb'_append_eq_left).symm⟩

/-- A complete candidate whose received checksum is not the computed one (R179). -/
theorem decodeBody_of_ne {p : List Byte} {low high : Byte} (hlen : p.length ≤ 57)
    (hne : checksumOf low high ≠ frameChecksum p) (f l : Byte) (rest : List Byte) :
    decodeBody f l (lengthByte p) (p ++ low :: high :: rest) = .badChecksum p.length (frameChecksum p) := by
  rw [decodeBody, lengthByte_toNat hlen, Config.maxPayload_eq, if_neg hlen.not_gt, if_neg (by simp)]
  simp only [List.take_left, List.drop_left]
  exact if_neg hne

theorem decodeWire_badChecksum {p : List Byte} {low high : Byte} (hlen : p.length ≤ 57)
    (hne : high ++ low ≠ frameChecksum p) (f l : Byte) (rest : List Byte) :
    decodeWire ([0x55, 0xAA, f, l, lengthByte p] ++ p ++ [low, high] ++ rest) =
      .badChecksum p.length (frameChecksum p) := by
  rw [← checksumOf_eq_append] at hne
  rw [List.append_assoc, List.append_assoc, decodeWire_header]
  exact decodeBody_of_ne hlen hne f l rest

/-! The parsing loop, by what stands at the head of the buffer (R173) -/

section Parse

variable {s : State}

/-- Where the decoder waits for bytes, parsing ends (R171). -/
theorem parse_of_wait {st : ReaderState} (h : decodeWire s.inBuf = .wait st) : parse s = .next s := by
  rw [parse_step, readerPass, h]
  rfl

/-- A pass that goes on is followed by the loop on the state it leaves (R173). -/
theorem parse_of_pass {o : Host.Outcome State Fault Refusal}
    (h : readerPass s = andThen o fun t => .next (some t)) : parse s = andThen o parse := by
  rw [parse_step, h]
  cases o <;> rfl

/-- Where no frame can start, the first byte is dropped (R174). -/
theorem parse_of_badMagic {b : Byte} {rest : List Byte} (hb : s.inBuf = b :: rest)
    (h : decodeWire s.inBuf = .badMagic) :
    parse s = parse { s with inBuf := rest, log := s.log ++ [.error .magic] } := by
  have hdrop : dropBytes 1 (s.fail .magic) = { s with inBuf := rest, log := s.log ++ [.error .magic] } := by
    rw [dropBytes, State.fail, State.emit, hb]
    rfl
  rw [← hdrop]
  exact parse_of_pass (o := .next _) (by simp only [readerPass, h, andThen_next])

/-- A length byte above 57 discards what is buffered (R177). -/
theorem parse_of_badLength (h : decodeWire s.inBuf = .badLength) :
    parse s = andThen (discardBytes s.inCur (s.fail .len)) parse :=
  parse_of_pass (by simp only [readerPass, h])

/-- A differing checksum discards the candidate (R179). -/
theorem parse_of_badChecksum {len : Nat} {computed : Half} (h : decodeWire s.inBuf = .badChecksum len computed) :
    parse s = andThen (discardBytes (5 + len + 2) (({ s with crcAcc := computed } : State).fail .crc)) parse :=
  parse_of_pass (by simp only [readerPass, h, Config.hdrLen_eq, Config.crcLen_eq])

/-- A valid frame is accepted (R180). -/
theorem parse_of_frame {f l : Byte} {p : List Byte} (h : decodeWire s.inBuf = .frame f l p) :
    parse s = andThen (acceptFrame f l p s) parse :=
  parse_of_pass (by simp only [readerPass, h])

end Parse

/-- Settles O41: no frame starts at the first byte, or the decoder waits. -/
theorem scanningSlidesByOneByte : Obligations.ScanningSlidesByOneByte := by
  unfold Obligations.ScanningSlidesByOneByte
  refine fun s => ⟨fun b rest hb hne => ?_, fun b rest hb hne => ?_, fun hrest => ?_⟩
  · exact parse_of_badMagic hb (hb ▸ decodeWire_of_ne_magic0 hne rest)
  · exact parse_of_badMagic hb (hb ▸ decodeWire_of_ne_magic1 hne rest)
  · have hwait : decodeWire s.inBuf = .wait .scanning := by
      rcases hrest with h | h <;> rw [h] <;> rfl
    exact parse_of_wait hwait

/-- Settles O42: after the one `Discard` nothing is buffered, and the loop ends. -/
theorem corruptLengthDiscardsAll : Obligations.CorruptLengthDiscardsAll := by
  unfold Obligations.CorruptLengthDiscardsAll
  intro s f l len body hb hlen
  have hparse := parse_of_badLength (s := s) (hb ▸ decodeWire_badLength hlen f l body)
  have htake : s.inBuf.take s.inCur = s.inBuf := List.take_length
  have hdrop : s.inBuf.drop s.inCur = [] := List.drop_length
  refine ⟨fun hdef => ?_, fun c writes answers hret => ⟨_, rfl, ?_⟩⟩
  · rw [hparse, discardBytes_fail_default hdef, htake, hdrop, andThen_next]
    exact parse_of_wait (st := .scanning) rfl
  · rw [hparse, discardBytes_fail_returns hret, htake, hdrop, andThen_next]
    exact parse_of_wait (st := .scanning) rfl

/-- Settles O43: after the one `Discard` the bytes behind the candidate are left, and the loop goes on. -/
theorem checksumMismatchDiscardsTheCandidate : Obligations.ChecksumMismatchDiscardsTheCandidate := by
  unfold Obligations.ChecksumMismatchDiscardsTheCandidate
  intro s f l low high p rest hlen hb hne
  have hparse := parse_of_badChecksum (s := s) (hb ▸ decodeWire_badChecksum hlen hne f l rest)
  have hspan : 5 + p.length + 2 = 7 + p.length := by omega
  have hdrop : s.inBuf.drop (7 + p.length) = rest := by
    rw [hb]
    exact List.drop_left' (by simp; omega)
  rw [hspan] at hparse
  refine ⟨fun hdef => ?_, fun c writes answers hret => ⟨_, rfl, ?_⟩⟩
  · rw [hparse, discardBytes_fail_default (s := { s with crcAcc := frameChecksum p }) hdef, hdrop, andThen_next]
    rfl
  · rw [hparse, discardBytes_fail_returns (s := { s with crcAcc := frameChecksum p }) hret, hdrop, andThen_next]
    rfl

/-! Acceptance (R180) -/

theorem exec_frame (f l : Byte) (p : List Byte) (s : State) : exec (.frame f l p) s = acceptFrame f l p s := rfl

/-- With a frame at the head of the buffer the Reader accepts it and goes on (R180). -/
theorem parse_encodeFrame {s : State} {p rest : List Byte} {f l : Byte} (hlen : p.length ≤ 57)
    (hb : s.inBuf = encodeFrame f l p ++ rest) : parse s = andThen (acceptFrame f l p s) parse :=
  parse_of_frame (hb ▸ decodeWire_encodeFrame f l hlen rest)

theorem drop_encodeFrame (f l : Byte) (p rest : List Byte) :
    (encodeFrame f l p ++ rest).drop (7 + p.length) = rest :=
  List.drop_left' (encodeFrame_length f l p)

/-- Settles O44: acceptance is the registers, the decoding of the payload, and the removal, of which decoding completes. -/
theorem frameIsAccepted : Obligations.FrameIsAccepted := by
  unfold Obligations.FrameIsAccepted
  intro f l p s hlen hs
  obtain ⟨t, ht⟩ := acceptFrame_completes hs f l p
  obtain ⟨u, hu, hdecoded, rfl, _, hdrop, hserial, hgot⟩ := acceptFrame_eq_next ht
  have hbuf : u.inBuf = s.inBuf := hdecoded.inBuf
  have hremoved : dropBytes (7 + p.length) u = { u with inBuf := s.inBuf.drop (7 + p.length) } := by
    rw [← hdrop]
    rfl
  rw [hremoved] at ht
  refine ⟨u, hu, hbuf, hserial, hgot, ht, fun rest hb => ?_⟩
  rw [parse_encodeFrame hlen hb, ht, andThen_next, hb, drop_encodeFrame]

/-! A Reader phase (R171, R185, R187) -/

theorem exec_readerPhase (s : State) : exec .readerPhase s = parse (fill s) := rfl

/-- Settles O45: a phase ends at rest, and the decoder rests on no other bytes than those of the table. -/
theorem readerRestsWithRoom : Obligations.ReaderRestsWithRoom := by
  unfold Obligations.ReaderRestsWithRoom
  intro s hs
  obtain ⟨t, ht⟩ := readerPhase_completes hs
  obtain ⟨_, hrest⟩ := readerPhase_eq_next ht
  obtain ⟨st, hwait, _⟩ := readerState_rest.mp hrest
  have hstate : readerState t = st := by rw [readerState, hwait]
  refine ⟨t, ht, inCur_of_rest hrest, ?_⟩
  rw [hstate]
  rcases decodeWire_wait hwait with ⟨hb, hst⟩ | ⟨hb, hst⟩ | ⟨hmagic, hmin, hmax, hst⟩ |
    ⟨hmagic, hmin, hlen, ⟨hcur, hst⟩ | ⟨hpayload, hcur, hst⟩⟩
  · exact .inl ⟨congrArg List.length hb, hst⟩
  · exact .inr (.inl ⟨hb, hst⟩)
  · exact .inr (.inr (.inl ⟨hmin, hmax, hmagic, hst⟩))
  · exact .inr (.inr (.inr (.inl ⟨hmin, hmagic, hlen, hcur, hst⟩)))
  · exact .inr (.inr (.inr (.inr ⟨hmin, hmagic, hlen, hpayload, hcur, hst⟩)))

/-- Settles O46: what a phase may do is the fill, and then `Reads`. -/
theorem readerLeavesTheWriterAlone : Obligations.ReaderLeavesTheWriterAlone := by
  unfold Obligations.ReaderLeavesTheWriterAlone
  intro s hs
  obtain ⟨t, ht⟩ := readerPhase_completes hs
  obtain ⟨hreads, _⟩ := readerPhase_eq_next ht
  have hheld : t.rxHeld = (fill s).rxHeld := by rw [hreads.eq]
  have hcounts : t.rxCounts = (fill s).rxCounts := by rw [hreads.eq]
  refine ⟨t, ht, ?_, hreads.got, fun i => ⟨hreads.slot i, hreads.sets i⟩⟩
  rw [hheld, hcounts]
  exact hreads.eq

/-! Noise before a frame (R186) -/

section Noise

variable {s : State} {b : Byte} {noise tail : List Byte}

/-- No frame starts at a byte of noise that holds no `55 AA`, if what is behind a final `55` starts with `55` (R174). -/
theorem decodeWire_noise (hpair : ¬[0x55, 0xAA] <:+: b :: noise)
    (hlast : (b :: noise).getLast? = some 0x55 → tail.head? = some 0x55) :
    decodeWire (b :: (noise ++ tail)) = .badMagic := by
  by_cases hb : b = 0x55
  case neg => exact decodeWire_of_ne_magic0 hb _
  subst hb
  cases noise with
  | nil =>
    obtain ⟨rest, rfl⟩ := List.head?_eq_some_iff.mp (hlast rfl)
    exact decodeWire_of_ne_magic1 (by decide) rest
  | cons c noise =>
    refine decodeWire_of_ne_magic1 (fun hc => hpair ?_) (noise ++ tail)
    exact hc ▸ (List.prefix_append [0x55, 0xAA] noise).isInfix

/-- Noise that holds no `55 AA` is scanned away byte by byte, without a hook (R174, R186). -/
theorem parse_noise (hb : s.inBuf = noise ++ tail) (hpair : ¬[0x55, 0xAA] <:+: noise)
    (hlast : noise.getLast? = some 0x55 → tail.head? = some 0x55) :
    parse s = parse { s with
      inBuf := tail, log := s.log ++ List.replicate noise.length (.error .magic) } := by
  induction noise generalizing s with
  | nil => simp [← show s.inBuf = tail from hb]
  | cons b noise ih =>
    have hbad : decodeWire s.inBuf = .badMagic := hb ▸ decodeWire_noise hpair hlast
    have hpair' : ¬[0x55, 0xAA] <:+: noise := fun h => hpair (h.trans (List.suffix_cons b noise).isInfix)
    have hlast' (h : noise.getLast? = some 0x55) : tail.head? = some 0x55 :=
      hlast (by rw [List.getLast?_cons, h]; rfl)
    rw [parse_of_badMagic hb hbad, ih rfl hpair' hlast']
    simp [List.replicate_succ]

/-- Behind noise the Reader rests on bytes that the decoder waits on. -/
theorem parse_noise_wait {st : ReaderState} (hb : s.inBuf = noise ++ tail) (hpair : ¬[0x55, 0xAA] <:+: noise)
    (hlast : noise.getLast? = some 0x55 → tail.head? = some 0x55) (hwait : decodeWire tail = .wait st) :
    parse s = .next { s with
      inBuf := tail, log := s.log ++ List.replicate noise.length (.error .magic) } := by
  rw [parse_noise hb hpair hlast]
  exact parse_of_wait hwait

/-- Noise by itself is dropped but for a final `55` (R186). -/
theorem parse_noise_alone (hb : s.inBuf = noise) (hpair : ¬[0x55, 0xAA] <:+: noise) :
    ∃ log, parse s = .next { s with inBuf := if noise.getLast? = some 0x55 then [0x55] else [], log := log } := by
  by_cases hlast : noise.getLast? = some 0x55
  · obtain ⟨front, rfl⟩ := List.getLast?_eq_some_iff.mp hlast
    have hpair' : ¬[0x55, 0xAA] <:+: front := fun h => hpair (h.trans (List.prefix_append front _).isInfix)
    rw [if_pos hlast]
    exact ⟨_, parse_noise_wait hb hpair' (fun _ => rfl) (st := .scanning) rfl⟩
  · rw [if_neg hlast]
    exact ⟨_, parse_noise_wait (hb.trans (List.append_nil noise).symm) hpair (absurd · hlast) (st := .scanning) rfl⟩

end Noise

/-- The frame check waits while the payload or a checksum byte is missing (R176, R178). -/
theorem decodeBody_wait {len : Byte} {body : List Byte} (hlen : len.toNat ≤ 57) (h : body.length < len.toNat + 2)
    (f l : Byte) : ∃ st, decodeBody f l len body = .wait st := by
  rcases decodeBody_spec f l len body with ⟨hbad, _⟩ | ⟨_, _, e⟩ | ⟨_, _, _, e⟩ | ⟨_, p, low, high, rest, hb, hp, _⟩
  · omega
  · exact ⟨_, e⟩
  · exact ⟨_, e⟩
  · have hl := congrArg List.length hb
    simp only [List.length_append, List.length_cons] at hl
    omega

/-- The header of a frame, and the first bytes behind it (R80). -/
theorem take_encodeFrame (k : Nat) (f l : Byte) (p : List Byte) : (encodeFrame f l p).take (k + 5) =
    [0x55, 0xAA, f, l, lengthByte p] ++
      (p ++ [checksumLow (frameChecksum p), checksumHigh (frameChecksum p)]).take k := rfl

theorem head?_take_encodeFrame {k : Nat} (hk : 1 ≤ k) (f l : Byte) (p : List Byte) :
    ((encodeFrame f l p).take k).head? = some 0x55 := by
  rw [List.head?_take, if_neg (by omega)]
  rfl

/-- The decoder waits on the first bytes of a frame that is not yet whole (R171, R175 to R178). -/
theorem decodeWire_take_encodeFrame {k : Nat} {p : List Byte} (hlen : p.length ≤ 57) (hk : k < 7 + p.length)
    (f l : Byte) : ∃ st, decodeWire ((encodeFrame f l p).take k) = .wait st := by
  rcases k with _ | _ | _ | _ | _ | k
  · exact ⟨.scanning, rfl⟩
  · exact ⟨.scanning, rfl⟩
  · exact ⟨.headerWait, rfl⟩
  · exact ⟨.headerWait, rfl⟩
  · exact ⟨.headerWait, rfl⟩
  · have hbyte := lengthByte_toNat hlen
    rw [take_encodeFrame, decodeWire_header]
    refine decodeBody_wait (hbyte.le.trans hlen) ?_ f l
    rw [List.length_take, hbyte]
    omega

/-- From a frame at the head of the buffer, the parsing that completes has accepted it; with nothing behind it, it is the
last one accepted (R180). -/
theorem parse_frame_eq_next {s t : State} {p rest : List Byte} {f l : Byte} (hlen : p.length ≤ 57)
    (hb : s.inBuf = encodeFrame f l p ++ rest) (h : parse s = .next t) :
    t.gotFirst = true ∧ (rest = [] → t.inBuf = [] ∧ t.lastRemoteSerial = f) := by
  rw [parse_encodeFrame hlen hb] at h
  obtain ⟨a, ha, ht⟩ := andThen_eq_next.mp h
  obtain ⟨_, _, _, _, _, hdrop, hserial, hgot⟩ := acceptFrame_eq_next ha
  obtain ⟨hreads, _⟩ := parse_eq_next ht
  rw [hb, drop_encodeFrame] at hdrop
  refine ⟨hreads.got hgot, fun hnil => ?_⟩
  have hempty : a.inBuf = [] := hdrop.trans hnil
  have hwait : decodeWire a.inBuf = .wait .scanning := by rw [hempty]; rfl
  cases (parse_of_wait hwait).symm.trans ht
  exact ⟨hempty, hserial⟩

/-- Settles O47: the noise is scanned away; behind it stands nothing, a `55`, the first bytes of the frame, or the
frame. -/
theorem noiseBeforeAFrameIsSkipped : Obligations.NoiseBeforeAFrameIsSkipped := by
  unfold Obligations.NoiseBeforeAFrameIsSkipped
  intro s u noise p rest f l hpair hlen hfill
  obtain rfl : fill s = u := Host.Outcome.next.inj hfill
  rw [exec_readerPhase]
  refine ⟨fun hb => ?_, fun k hpos hk hb => ?_, fun hb hs => ?_⟩
  · obtain ⟨log, hparse⟩ := parse_noise_alone hb hpair
    exact ⟨_, hparse, rfl, rfl⟩
  · obtain ⟨st, hwait⟩ := decodeWire_take_encodeFrame hlen hk f l
    exact ⟨_, parse_noise_wait hb hpair (fun _ => head?_take_encodeFrame hpos f l p) hwait, rfl, rfl, rfl⟩
  · have hskip := parse_noise (hb.trans (List.append_assoc noise _ rest)) hpair fun _ => rfl
    obtain ⟨t, ht⟩ := readerPhase_completes hs
    refine ⟨?_, t, ht, parse_frame_eq_next hlen rfl (hskip.symm.trans ht)⟩
    rw [hskip, exec_frame]
    exact parse_encodeFrame hlen rfl

end Sys2Proof.Machine

/-! PROOFS. The family of spec/44_writer.md: pacing and the backlog (R205, R206), the construction of a frame (R195 to R198),
one transmission attempt (R200, R248), the Writer phase and what it leaves alone (R190 to R194, R207, R210), and that a held
frame is immutable (R201, R203). -/

namespace Sys2Proof.Machine

/-! Pacing and the backlog (R205, R206) -/

/-- On the backlogs there are, `PACE` stays between its bounds (R205). -/
theorem pace_range {b : Nat} (h : b ≤ 64) : 500 ≤ pace b ∧ pace b ≤ 8000 := Config.engine.paceRange b h

/-- Settles O51: up to 64 the answer is the linear curve, of which `pace_mono` and `pace_range` give order and bounds. -/
theorem paceIsLinearBetweenItsBounds : Obligations.PaceIsLinearBetweenItsBounds := by
  unfold Obligations.PaceIsLinearBetweenItsBounds
  refine ⟨fun b s => ⟨_, rfl, fun hb => if_pos hb⟩, fun a b hab hb => ?_, rfl⟩
  obtain ⟨hmin, _⟩ := pace_range (hab.trans hb)
  obtain ⟨_, hmax⟩ := pace_range hb
  exact ⟨hmin, pace_mono hab, hmax⟩

theorem exec_backlogUpdate (s : State) : exec .backlogUpdate s = .next (backlogUpdate s) := rfl

/-- Settles O52: the update is that one field. -/
theorem backlogKeepsThePeak : Obligations.BacklogKeepsThePeak := by
  unfold Obligations.BacklogKeepsThePeak
  intro s
  rw [exec_backlogUpdate]
  rfl

/-! One attempt (R200, R248) -/

theorem exec_txAttempt {s : State} (h : s.txPending = true) : exec .txAttempt s = .next (txAttempt s) := if_pos h

theorem acceptedCount_unsent_le (s : State) : acceptedCount (unsent s) s ≤ s.outCur - s.txPos :=
  (acceptedCount_le _ s).trans_eq (unsent_length s)

/-- Settles O50: the count is the transport's choice among the bytes unsent, and the attempt has two outcomes. -/
theorem transmissionAttemptOffersTheRest : Obligations.TransmissionAttemptOffersTheRest := by
  unfold Obligations.TransmissionAttemptOffersTheRest
  intro s hp
  rw [exec_txAttempt hp]
  refine ⟨acceptedCount (unsent s) s, acceptedCount_unsent_le s, ?_, fun hall => ?_, fun hpart => ?_⟩
  · rw [acceptedCount, unsent_length]
    rfl
  · rcases txAttempt_cases s with ⟨_, e⟩ | ⟨hne, _⟩
    · rw [e]
      rfl
    · exact absurd hall hne
  · rcases txAttempt_cases s with ⟨heq, _⟩ | ⟨_, e⟩
    · exact absurd heq hpart
    · rw [e]
      rfl

/-! A new frame (R195 to R198) -/

theorem exec_constructFrame {s : State} (h : s.txPending = false) (now : Time) (due : Bool) :
    exec (.constructFrame now due) s = .next (constructFrame now due s) :=
  if_neg (Bool.eq_false_iff.mp h)

/-- EncodePayload changes none of the registers that ConstructFrame reads or writes beside the buffer (R160). -/
theorem encodePayload_registers (due : Bool) (s : State) : (encodePayload due s).mySerial = s.mySerial ∧
    (encodePayload due s).lastRemoteSerial = s.lastRemoteSerial ∧
    (encodePayload due s).lastAutoSendTime = s.lastAutoSendTime ∧ (encodePayload due s).backlog = s.backlog := by
  obtain ⟨a, b, c, h⟩ := encodePayload_spec due s
  refine ⟨?_, ?_, ?_, ?_⟩ <;> rw [h.eq]

/-- With the staged payload in range, the payload of a frame is at most 57 bytes (R84, R162). -/
theorem encodePayload_staged_length_le (due : Bool) {s : State} (h : s.outCur ≤ 62) :
    (encodePayload due s).staged.length ≤ 57 := by
  obtain ⟨a, b, c, henc⟩ := encodePayload_spec due s
  have hroom : (encodePayload due s).outBuf.length ≤ 62 := henc.room h
  rw [State.staged, List.length_drop, Config.hdrLen_eq]
  omega

/-- A frame is the payload that is encoded for it with header and checksum around it, and is held (R195 to R198). -/
theorem constructFrame_eq_encodePayload (now : Time) (due : Bool) (s : State) :
    constructFrame now due s = { encodePayload due (advanceSerial s) with
      outBuf := encodeFrame (nextSerial s.mySerial) s.lastRemoteSerial (encodePayload due (advanceSerial s)).staged
      txPending := true, txPos := 0, crcAcc := frameChecksum (encodePayload due (advanceSerial s)).staged
      lastAutoSendTime := if due then now else s.lastAutoSendTime
      backlog := if due then 0 else s.backlog } := by
  obtain ⟨hserial, hremote, htime, hbacklog⟩ := encodePayload_registers due (advanceSerial s)
  rw [advanceSerial_mySerial] at hserial
  rw [advanceSerial_lastRemoteSerial] at hremote
  rw [advanceSerial_lastAutoSendTime] at htime
  rw [advanceSerial_backlog] at hbacklog
  rw [constructFrame, ← hserial, ← hremote, ← htime, ← hbacklog]
  generalize encodePayload due (advanceSerial s) = u
  cases due <;> rfl

/-- Settles O49: the state after EncodePayload, with header, checksum and bookkeeping. -/
theorem constructFrameBuildsTheFrame : Obligations.ConstructFrameBuildsTheFrame := by
  unfold Obligations.ConstructFrameBuildsTheFrame
  intro now due s hp _ hmax
  obtain ⟨hserial, _⟩ := encodePayload_registers due (advanceSerial s)
  refine ⟨encodePayload due (advanceSerial s), (encodePayload due (advanceSerial s)).staged, _,
    exec_encodePayload (s := advanceSerial s) hp due, rfl, encodePayload_staged_length_le due hmax, rfl, ?_, ?_⟩
  · rw [hserial]
    exact nextSerial_ne_zero _
  · rw [exec_constructFrame hp, constructFrame_eq_encodePayload, encodeFrame_eq]
    rfl

/-! The Writer phase (R190 to R194) -/

theorem exec_writerPhase (now : Time) (s : State) : exec (.writerPhase now) s = .next (writerPhase now s) := rfl

theorem suppressed_eq_true {s : State} (hwait : s.waitFirst = true) (hgot : s.gotFirst = false) : suppressed s = true := by
  rw [suppressed, hwait, hgot]
  rfl

theorem suppressed_eq_false {s : State} (h : s.waitFirst = false ∨ s.gotFirst = true) : suppressed s = false := by
  rcases h with h | h <;> simp [suppressed, h]

/-- The three reasons to emit a frame: an item queued, payload staged, an autosend cycle due (R191, R193). -/
theorem wantsFrame_iff {now : Time} {s : State} : wantsFrame now s = true ↔
    (∃ i, (s.slot i).used = true ∧ (s.slot i).toSend = true) ∨ 5 < s.outCur ∨ autoDue now s = true := by
  rw [wantsFrame, Bool.or_eq_true, Bool.or_eq_true, anyToSend_iff, or_assoc, anyStaged, decide_eq_true_iff, Config.hdrLen_eq]

theorem writerPhase_of_suppressed {now : Time} {s : State} (h : suppressed s = true) : writerPhase now s = s := if_pos h

section Awake

variable {now : Time} {s : State} (hs : suppressed s = false)

include hs

theorem writerPhase_of_held (hp : s.txPending = true) : writerPhase now s = backlogUpdate (txAttempt s) := by
  rw [writerPhase, hs, hp]
  rfl

theorem writerPhase_of_idle (hp : s.txPending = false) (h : ¬wantsFrame now s = true) : writerPhase now s = s := by
  rw [writerPhase, hs, hp, Bool.eq_false_iff.mpr h]
  rfl

theorem writerPhase_of_wants (hp : s.txPending = false) (h : wantsFrame now s = true) :
    writerPhase now s = backlogUpdate (txAttempt (constructFrame now (autoDue now s) s)) := by
  rw [writerPhase, hs, hp, h]
  rfl

end Awake

/-- Settles O48, by the branches of the phase; the test of the clock is `autoDue`. -/
theorem writerPhaseFollowsItsRule : Obligations.WriterPhaseFollowsItsRule := by
  unfold Obligations.WriterPhaseFollowsItsRule
  refine fun now s => ⟨writerPhase now s, exec_writerPhase now s, fun hwait hgot => ?_, fun hawake => ?_⟩
  · exact writerPhase_of_suppressed (suppressed_eq_true hwait hgot)
  have hs := suppressed_eq_false hawake
  refine ⟨fun hp => ?_, fun hp due hdue => ?_⟩
  · rw [writerPhase_of_held hs hp]
    exact ⟨txAttempt s, exec_txAttempt hp, exec_backlogUpdate _⟩
  rw [← autoDue_eq] at hdue
  subst hdue
  refine ⟨fun hnone hstaged hearly => ?_, fun hreason => ?_⟩
  · refine writerPhase_of_idle hs hp fun hwants => ?_
    rcases wantsFrame_iff.mp hwants with ⟨i, hi⟩ | hmore | hdue
    · exact hnone i hi
    · exact absurd hstaged hmore.not_ge
    · exact absurd (hdue.symm.trans hearly) nofun
  · rw [writerPhase_of_wants hs hp (wantsFrame_iff.mpr hreason)]
    exact ⟨_, _, exec_constructFrame hp now _, exec_txAttempt (constructFrame_txPending now _ s), exec_backlogUpdate _⟩

/-! The interval between autosend cycles (R207) -/

/-- After a construction and its first attempt the date and the serial number are those the construction set (R195, R198). -/
theorem attempted_constructFrame_registers (now : Time) (due : Bool) (s : State) :
    (backlogUpdate (txAttempt (constructFrame now due s))).lastAutoSendTime = (if due then now else s.lastAutoSendTime) ∧
    (backlogUpdate (txAttempt (constructFrame now due s))).mySerial = nextSerial s.mySerial := by
  obtain ⟨hserial, htime, _⟩ := txAttempt_keeps (constructFrame now due s)
  rw [backlogUpdate_lastAutoSendTime, backlogUpdate_mySerial, hserial, htime]
  exact ⟨constructFrame_lastAutoSendTime now due s, constructFrame_mySerial now due s⟩

/-- A Writer phase that moves the date of the last cycle constructed a frame for a cycle that was due (R194, R198). -/
theorem writerPhase_moves_date {now : Time} {s : State} (h : (writerPhase now s).lastAutoSendTime ≠ s.lastAutoSendTime) :
    (writerPhase now s).lastAutoSendTime = now ∧ autoDue now s = true ∧ s.txPending = false := by
  rcases writerPhase_cases now s with ⟨_, e⟩ | ⟨_, _, e⟩ | ⟨_, hp, _, e⟩ | ⟨_, _, _, e⟩ <;> rw [e] at h ⊢
  · exact absurd rfl h
  · obtain ⟨_, htime, _⟩ := txAttempt_keeps s
    exact absurd htime h
  · obtain ⟨htime, _⟩ := attempted_constructFrame_registers now (autoDue now s) s
    rw [htime] at h ⊢
    cases hdue : autoDue now s with
    | false => exact absurd (if_neg (by rw [hdue]; decide)) h
    | true => exact ⟨if_pos rfl, rfl, hp⟩
  · exact absurd rfl h

/-- What the Writer reads for its pacing and its serial number is the same before and after the Reader phase (R187). -/
theorem readerPhase_keeps_pacing {s u : State} (h : readerPhase s = .next u) : u.txPending = s.txPending ∧
    u.lastAutoSendTime = s.lastAutoSendTime ∧ u.backlog = s.backlog ∧ u.mySerial = s.mySerial := by
  obtain ⟨hreads, _⟩ := readerPhase_eq_next h
  refine ⟨?_, ?_, ?_, ?_⟩ <;> rw [hreads.eq] <;> rfl

/-- A STEP that completes is a Reader phase, a Writer phase on the state it leaves, and no answer (R218). -/
theorem exec_stepCmd_eq_next {now : Time} {s t : State} (h : exec (.stepCmd now) s = .next t) :
    ∃ u, readerPhase s = .next u ∧ t = (writerPhase now u).respond .none := by
  obtain ⟨v, hv, e⟩ := andThen_eq_next.mp h
  cases e
  obtain ⟨u, hu, _, _, rfl⟩ := tick_eq_next hv
  exact ⟨u, hu, rfl⟩

theorem exec_stepCmd_of_readerPhase {s u : State} (h : readerPhase s = .next u) (now : Time) :
    exec (.stepCmd now) s = .next ((writerPhase now u).respond .none) := by
  rw [exec, execStep, tick, h, andThen_next, andThen_next]

/-- Settles O54: the date moves only when a cycle was due; and from 8000 on one is due at every backlog there is. -/
theorem autosendKeepsItsInterval : Obligations.AutosendKeepsItsInterval := by
  unfold Obligations.AutosendKeepsItsInterval
  refine ⟨fun now s t h hmoved => ?_, fun now s hhooks hp hawake hbacklog helapsed => ?_⟩
  · obtain ⟨u, hu, rfl⟩ := exec_stepCmd_eq_next h
    obtain ⟨hpending, htime, _⟩ := readerPhase_keeps_pacing hu
    rw [respond_lastAutoSendTime, ← htime] at hmoved
    obtain ⟨hnow, hdue, hfree⟩ := writerPhase_moves_date hmoved
    rw [autoDue_eq, decide_eq_true_iff, htime] at hdue
    exact ⟨hnow, by omega, hpending ▸ hfree⟩
  · obtain ⟨u, hu⟩ := readerPhase_completes hhooks
    obtain ⟨hpending, htime, hback, hserial⟩ := readerPhase_keeps_pacing hu
    obtain ⟨hreads, _⟩ := readerPhase_eq_next hu
    have hs : suppressed u = false := by
      refine Bool.eq_false_iff.mpr fun hsup => ?_
      exact absurd ((suppressed_of_reads hreads hsup).symm.trans (suppressed_eq_false (s := s) hawake)) nofun
    have hdue : autoDue now u = true := by
      rw [autoDue_eq, decide_eq_true_iff, hback, htime]
      omega
    refine ⟨_, exec_stepCmd_of_readerPhase hu now, ?_⟩
    rw [respond_lastAutoSendTime, respond_mySerial,
      writerPhase_of_wants hs (hpending.trans hp) (wantsFrame_iff.mpr (.inr (.inr hdue))), hdue, ← hserial]
    exact attempted_constructFrame_registers now true u

/-! What a Writer phase hands over (R190, R210) -/

/-- What an attempt hands over is at most one buffer (R200). -/
theorem take_unsent_length_le {s : State} (h : OutInv s) (k : Nat) : ((unsent s).take k).length ≤ 64 := by
  have hmax := h.hi
  rw [List.length_take, unsent_length]
  omega

/-- A byte of a first part is the byte of the whole. -/
theorem getD_take {l : List Byte} {i k : Nat} (h : i < (l.take k).length) : (l.take k).getD i 0 = l.getD i 0 := by
  rw [List.length_take] at h
  rw [List.getD_eq_getElem?_getD, List.getD_eq_getElem?_getD, List.getElem?_take_of_lt (by omega)]

/-- The first bytes of a frame just constructed are `55`, and then the serial number in the third place (R80, R197). -/
theorem take_unsent_constructFrame {s : State} (now : Time) (due : Bool) {d : List Byte} {k : Nat}
    (hd : d = (unsent (constructFrame now due s)).take k) :
    (d ≠ [] → d.getD 0 0 = 0x55) ∧ (3 ≤ d.length → d.getD 2 0 = nextSerial s.mySerial) := by
  have hunsent : unsent (constructFrame now due s) = encodeFrame (nextSerial s.mySerial) s.lastRemoteSerial
      (encodePayload due (advanceSerial s)).staged := by
    rw [unsent, constructFrame_eq_encodePayload]
    rfl
  obtain ⟨hfirst, _, hthird, _⟩ := encodeFrame_getD (nextSerial s.mySerial) s.lastRemoteSerial
    (encodePayload due (advanceSerial s)).staged
  rw [hunsent] at hd
  subst hd
  refine ⟨fun hne => ?_, fun hlen => ?_⟩
  · rw [getD_take (List.length_pos_iff.mpr hne), hfirst]
  · rw [getD_take hlen, hthird]

/-- Settles O55: what the phase may change is `Writes`, and what it hands over is that of its one attempt, if any. -/
theorem writerLeavesTheReaderAlone : Obligations.WriterLeavesTheReaderAlone := by
  unfold Obligations.WriterLeavesTheReaderAlone
  intro now s hinv
  have hw := writerPhase_writes now s
  refine ⟨writerPhase now s, exec_writerPhase now s, hw.eq, hw.slot, ?_⟩
  rcases writerPhase_cases now s with ⟨_, e⟩ | ⟨_, hp, e⟩ | ⟨_, hp, _, e⟩ | ⟨_, _, _, e⟩ <;> rw [e]
  · exact ⟨[], (List.append_nil _).symm, Nat.zero_le _, fun _ hne => absurd rfl hne⟩
  · refine ⟨_, txAttempt_txSent s, take_unsent_length_le hinv.out _, fun hnone => ?_⟩
    exact absurd (hp.symm.trans hnone) nofun
  · obtain ⟨hout, _⟩ := hinv.out.constructFrame hp now (autoDue now s)
    obtain ⟨_, hserial⟩ := attempted_constructFrame_registers now (autoDue now s) s
    obtain ⟨hfirst, hthird⟩ := take_unsent_constructFrame (s := s) now (autoDue now s) rfl
    have hsent : (constructFrame now (autoDue now s) s).txSent = s.txSent := by
      obtain ⟨_, _, _, _, _, _, _, hframe⟩ := constructFrame_spec now (autoDue now s) hinv.out.lo
      rw [hframe]
    refine ⟨_, (txAttempt_txSent _).trans (by rw [hsent]), take_unsent_length_le hout _, fun _ hne => ?_⟩
    rw [hserial]
    exact ⟨hfirst hne, nextSerial_ne_zero _, hthird⟩
  · exact ⟨[], (List.append_nil _).symm, Nat.zero_le _, fun _ hne => absurd rfl hne⟩

/-! A held frame is immutable (R201, R203) -/

/-- The output side of two states is the same: the serial number, the output buffer and what is held of it, and what the
transport was handed. -/
structure SameOutput (s t : State) : Prop where
  mySerial : t.mySerial = s.mySerial
  outBuf : t.outBuf = s.outBuf
  txPending : t.txPending = s.txPending
  txPos : t.txPos = s.txPos
  txSent : t.txSent = s.txSent

theorem SameOutput.refl (s : State) : SameOutput s s := ⟨rfl, rfl, rfl, rfl, rfl⟩

theorem bindItem_sameOutput (id : Byte) (region : Addr) (size : Byte) (autoSend : Bool) (s : State) :
    SameOutput s (bindItem id region size autoSend s) := by
  rcases bindItem_cases id region size autoSend s with ⟨_, _, _, e⟩ | ⟨_, _, e⟩ | ⟨_, _, e⟩ | ⟨_, _, _, _, _, e⟩ |
    ⟨_, _, _, _, e⟩ <;> rw [e] <;> exact ⟨rfl, rfl, rfl, rfl, rfl⟩

theorem testAt_sameOutput (found : Option SlotIx) (s : State) : SameOutput s (testAt found s).1 := by
  cases found <;> exact ⟨rfl, rfl, rfl, rfl, rfl⟩

theorem clearAt_sameOutput (found : Option SlotIx) (s : State) : SameOutput s (clearAt found s) := by
  cases found <;> exact ⟨rfl, rfl, rfl, rfl, rfl⟩

theorem takeAt_sameOutput (found : Option SlotIx) (s : State) : SameOutput s (takeAt found s).1 := by
  cases found <;> exact ⟨rfl, rfl, rfl, rfl, rfl⟩

theorem markAt_sameOutput (found : Option SlotIx) (s : State) : SameOutput s (markAt found s).1 := by
  cases found <;> exact ⟨rfl, rfl, rfl, rfl, rfl⟩

/-- With a frame held nothing is staged (R164). -/
theorem enqueue_sameOutput {s : State} (hp : s.txPending = true) (id : Byte) (data : List Byte) (length : Byte) :
    SameOutput s (enqueue id data length s).1 := by
  rw [enqueue_refused (.inl hp)]
  exact ⟨rfl, rfl, rfl, rfl, rfl⟩

/-- The Reader leaves the output side alone (R187). -/
theorem readerPhase_sameOutput {s u : State} (h : readerPhase s = .next u) : SameOutput s u := by
  obtain ⟨hreads, _⟩ := readerPhase_eq_next h
  constructor <;> rw [hreads.eq] <;> rfl

/-- The outside reaches the output side by the reset input alone (R260). -/
theorem environment_sameOutput {e : EnvEvent} (h : e ≠ .reset) (s : State) : SameOutput s (environment e s) := by
  cases e with
  | reset => exact absurd rfl h
  | appWrite | arrive | rxChoices | txChoices | hookChoices => exact ⟨rfl, rfl, rfl, rfl, rfl⟩

/-- From `s`, where a frame is held, to `t` the transport receives the next bytes of that frame, which either is still held,
unchanged, or is wholly accepted; no serial number is consumed (R201, R203). -/
def HandsOver (s t : State) : Prop :=
  t.mySerial = s.mySerial ∧ ∃ k, t.txSent = s.txSent ++ (s.outBuf.drop s.txPos).take k ∧
    (t.txPending = true ∧ t.outBuf = s.outBuf ∧ t.txPos = s.txPos + k ∧ s.txPos + k < s.outCur ∨
     t.txPending = false ∧ s.txPos + k = s.outCur)

/-- What leaves the output side alone hands over nothing. -/
theorem SameOutput.handsOver {s t : State} (h : SameOutput s t) (hp : s.txPending = true) (hpos : s.txPos < s.outCur) :
    HandsOver s t :=
  ⟨h.mySerial, 0, by rw [h.txSent, List.take_zero, List.append_nil], .inl ⟨h.txPending.trans hp, h.outBuf, h.txPos, hpos⟩⟩

/-- What leaves the output side alone may come first. -/
theorem SameOutput.trans_handsOver {s t u : State} (h : SameOutput s t) (h' : HandsOver t u) : HandsOver s u := by
  have hcur : t.outCur = s.outCur := congrArg List.length h.outBuf
  rwa [HandsOver, h.mySerial, h.txSent, h.outBuf, h.txPos, hcur] at h'

/-- An attempt hands over a first part of the rest of the frame, or all of it (R200). -/
theorem txAttempt_handsOver {s : State} (hp : s.txPending = true) (hpos : s.txPos < s.outCur) :
    HandsOver s (txAttempt s) := by
  obtain ⟨hserial, _⟩ := txAttempt_keeps s
  refine ⟨hserial, acceptedCount (unsent s) s, txAttempt_txSent s, ?_⟩
  have hle := acceptedCount_unsent_le s
  rcases txAttempt_cases s with ⟨hall, e⟩ | ⟨hpart, e⟩ <;> rw [e]
  · exact .inr ⟨rfl, hall⟩
  · exact .inl ⟨hp, rfl, rfl, by omega⟩

/-- With a frame held the Writer phase is idle or makes one attempt (R191, R192). -/
theorem writerPhase_handsOver {s : State} (now : Time) (hp : s.txPending = true) (hpos : s.txPos < s.outCur) :
    HandsOver s (writerPhase now s) := by
  cases hs : suppressed s with
  | true =>
    rw [writerPhase_of_suppressed hs]
    exact (SameOutput.refl s).handsOver hp hpos
  | false =>
    rw [writerPhase_of_held hs hp]
    exact txAttempt_handsOver hp hpos

/-- With a frame held every command but BEGIN hands over at most next bytes of it: STEP in its Writer phase, and the others
leave the output side alone. -/
theorem exec_command_handsOver {i : Instr} {s t : State} (hi : IsCommand i) (hbegin : ∀ w, i ≠ .beginCmd w)
    (hp : s.txPending = true) (hpos : s.txPos < s.outCur) (h : exec i s = .next t) : HandsOver s t := by
  cases hi with
  | beginCmd w => exact absurd rfl (hbegin w)
  | stepCmd now =>
    obtain ⟨u, hu, rfl⟩ := exec_stepCmd_eq_next h
    have hsame := readerPhase_sameOutput hu
    have hcur : u.outCur = s.outCur := congrArg List.length hsame.outBuf
    exact hsame.trans_handsOver
      (writerPhase_handsOver now (hsame.txPending.trans hp) (by rw [hsame.txPos, hcur]; exact hpos))
  | bind id region size autoSend => cases h; exact (bindItem_sameOutput id region size autoSend s).handsOver hp hpos
  | isrx id => cases h; exact (testAt_sameOutput _ s).handsOver hp hpos
  | clrx id => cases h; exact (clearAt_sameOutput _ s).handsOver hp hpos
  | take | takep => cases h; exact (takeAt_sameOutput _ s).handsOver hp hpos
  | send | sendp => cases h; exact (markAt_sameOutput _ s).handsOver hp hpos
  | enq id data length => cases h; exact (enqueue_sameOutput hp id data length).handsOver hp hpos
  | rser | reserved => cases h; exact (SameOutput.refl s).handsOver hp hpos

/-- Code 2 alone is BEGIN (R92). -/
theorem op_of_decodePort_begin {p : PortCmd} {w : Bool} (h : decodePort p = .ok (.beginCmd w)) : p.op = 0x02 := by
  unfold decodePort at h
  split at h
  case h_2 hop => exact BitVec.eq_of_toNat_eq hop
  case h_11 => split at h <;> cases h
  all_goals cases h

/-- Settles O53, by what a step can do: hold the state, apply an event of the outside, or run a command. -/
theorem heldFrameIsImmutable : Obligations.HeldFrameIsImmutable := by
  unfold Obligations.HeldFrameIsImmutable
  intro s t hinv hp hreset hbegin hstep
  obtain ⟨_, hengine, _⟩ := hinv
  obtain ⟨_, _, _, _, _, _, hpos, _⟩ := hengine.out.held hp
  show HandsOver s t
  rcases step_eq_next hstep with ⟨_, rfl⟩ | ⟨e, rest, hin, rfl⟩ | ⟨p, i, rest, hin, hdecode, hexec⟩
  · exact (SameOutput.refl _).handsOver hp hpos
  · have he : e ≠ .reset := fun he => hreset (by rw [hin, he]; rfl)
    exact (environment_sameOutput he { s with inputs := rest }).handsOver hp hpos
  · have hi : ∀ w, i ≠ .beginCmd w := fun w hw => hbegin p (by rw [hin]; rfl) (op_of_decodePort_begin (hw ▸ hdecode))
    exact exec_command_handsOver (s := { s with inputs := rest }) (isCommand_of_decodePort hdecode) hi hp hpos hexec

end Sys2Proof.Machine

/-! PROOFS. The family of spec/45_engine.md: `begin` and `remoteSerial` with their frames (R216, R220), the two phases of a
tick (R218), the command port (R221, R253), and two engines on one line (R223): the frame that the one constructs in a tick
is handed over whole, and taken in any pieces by the other sets its `lastRemoteSerial`, which its next frame carries. -/

namespace Sys2Proof.Machine

/-! One operation at a time (R216 to R221, R253) -/

/-- Settles O2: the header bytes left in the output buffer are the first five of it. -/
theorem beginResetsTheEngineAlone : Obligations.BeginResetsTheEngineAlone := by
  unfold Obligations.BeginResetsTheEngineAlone
  exact fun w s h5 => ⟨(beginEngine w s).outBuf, _, _, beginEngine_outCur w h5, rfl⟩

/-- With a command as the next input, a step runs what it decodes to. -/
theorem step_command {s : State} {p : PortCmd} {i : Instr} {rest : List Input} (h : s.inputs = .command p :: rest)
    (hdecode : decodePort p = .ok i) : step s = exec i { s with inputs := rest } := by
  simp only [step, takeInput, h, hdecode]

/-- With no input waiting a step holds the state. -/
theorem step_idle {s : State} (h : s.inputs = []) : step s = .next s := by
  rw [step, takeInput, h]

/-- Settles O4: the decoder of the port is that of the step. -/
theorem stepRunsTheDecodedCommand : Obligations.StepRunsTheDecodedCommand := by
  unfold Obligations.StepRunsTheDecodedCommand
  exact ⟨fun _ _ _ _ h hdecode => step_command h hdecode, fun _ h => step_idle h⟩

/-- Settles O9: with hooks that return the Reader phase completes, and the Writer phase always does. -/
theorem tickIsReaderThenWriter : Obligations.TickIsReaderThenWriter := by
  unfold Obligations.TickIsReaderThenWriter
  intro now s hs
  obtain ⟨u, hu⟩ := readerPhase_completes hs
  exact ⟨u, writerPhase now u, hu, exec_writerPhase now u, exec_stepCmd_of_readerPhase hu now⟩

theorem exec_rser (s : State) : exec .rser s = .next (s.respond (.val s.lastRemoteSerial)) := rfl

/-- Settles O10: the response port alone is written. -/
theorem remoteSerialAnswers : Obligations.RemoteSerialAnswers := by
  unfold Obligations.RemoteSerialAnswers
  exact exec_rser

/-! The sender: a frame constructed in a tick is handed over whole (R201, R203, R223) -/

/-- Of the frame `f` the transport has been handed, behind `sent`, the bytes before the cursor while the frame is held, and
all of them once it is held no longer. -/
def Delivers (sent f : List Byte) (s : State) : Prop :=
  (s.txPending = true → s.outBuf = f ∧ s.txSent = sent ++ f.take s.txPos) ∧
  (s.txPending = false → s.txSent = sent ++ f)

/-- Handing over next bytes of a held frame goes on delivering it. -/
theorem Delivers.handsOver {sent f : List Byte} {s t : State} (h : Delivers sent f s) (hp : s.txPending = true)
    (hover : HandsOver s t) : Delivers sent f t := by
  obtain ⟨hheld, _⟩ := h
  obtain ⟨hbuf, hsent⟩ := hheld hp
  obtain ⟨_, k, hnew, hcases⟩ := hover
  have htaken : t.txSent = sent ++ f.take (s.txPos + k) := by
    rw [hnew, hsent, hbuf, List.append_assoc, ← List.take_add]
  rcases hcases with ⟨hpending, hsame, hpos, _⟩ | ⟨hfree, hall⟩
  · exact ⟨fun _ => ⟨hsame.trans hbuf, by rw [htaken, hpos]⟩, fun hno => absurd (hpending.symm.trans hno) nofun⟩
  · have hwhole : f.take (s.txPos + k) = f := List.take_of_length_le (by rw [hall, State.outCur, hbuf])
    exact ⟨fun hyes => absurd (hfree.symm.trans hyes) nofun, fun _ => by rw [htaken, hwhole]⟩

/-- Whatever the engine goes through while it holds the frame delivers it (R201). -/
theorem Delivers.transmits {sent f : List Byte} {s t : State} (h : Delivers sent f s) (hinv : Inv s)
    (ht : Transmits s t) : Delivers sent f t := by
  induction ht with
  | done => exact h
  | more hp hreset hbegin hstep _ ih =>
    have hover : HandsOver _ _ := heldFrameIsImmutable _ _ hinv hp hreset hbegin hstep
    exact ih (h.handsOver hp hover) (everyStepKeepsTheInvariant _ _ hinv hstep)

/-- The frame with the serial number and `lastRemoteSerial` as they stand (R197). -/
def currentFrame (s : State) (p : List Byte) : List Byte := encodeFrame s.mySerial s.lastRemoteSerial p

/-- From `s` to `t` a frame with payload `p` is constructed and offered, and `k` of its bytes are accepted at once. -/
structure Emits (s t : State) (p : List Byte) (k : Nat) : Prop where
  length : s.outCur ≤ 62 → p.length ≤ 57
  log : t.log.getLast? = some (.tx (currentFrame t p) k)
  sent : t.txSent = s.txSent ++ (currentFrame t p).take k
  delivers : Delivers s.txSent (currentFrame t p) t

/-- The last event of an attempt is the transport's (R200, R248). -/
theorem txAttempt_log_getLast? (s : State) :
    (txAttempt s).log.getLast? = some (.tx (unsent s) (acceptedCount (unsent s) s)) := by
  rcases txAttempt_cases s with ⟨_, e⟩ | ⟨_, e⟩ <;> rw [e] <;> exact List.getLast?_concat

/-- Constructing a frame hands nothing over (R195 to R198). -/
theorem constructFrame_txSent (now : Time) (due : Bool) (s : State) : (constructFrame now due s).txSent = s.txSent := by
  obtain ⟨a, b, c, h⟩ := encodePayload_spec due (advanceSerial s)
  rw [constructFrame_eq_encodePayload, h.eq]
  rfl

/-- What is held after a construction is the frame with the serial number it set (R195, R197). -/
theorem constructFrame_outBuf (now : Time) (due : Bool) (s : State) : (constructFrame now due s).outBuf =
    currentFrame (constructFrame now due s) (encodePayload due (advanceSerial s)).staged := by
  have hremote : (constructFrame now due s).lastRemoteSerial = s.lastRemoteSerial := by
    rw [(constructFrame_writes now due s).eq]
  rw [currentFrame, constructFrame_mySerial, hremote, constructFrame_eq_encodePayload]

/-- A held frame starts unaccepted (R198). -/
theorem constructFrame_txPos (now : Time) (due : Bool) (s : State) : (constructFrame now due s).txPos = 0 := by
  rw [constructFrame_eq_encodePayload]

/-- An attempt leaves the two numbers of a header alone (R200). -/
theorem currentFrame_attempted (s : State) (p : List Byte) :
    currentFrame (backlogUpdate (txAttempt s)) p = currentFrame s p := by
  obtain ⟨hserial, _⟩ := txAttempt_keeps s
  have hremote : (txAttempt s).lastRemoteSerial = s.lastRemoteSerial := by rw [(txAttempt_writes s).eq]
  rw [currentFrame, backlogUpdate_mySerial, backlogUpdate_lastRemoteSerial, hserial, hremote, ← currentFrame]

/-- A construction and its first attempt emit the frame (R195 to R200). -/
theorem attempted_constructFrame_emits (now : Time) (due : Bool) (s : State) : ∃ p k,
    Emits s (backlogUpdate (txAttempt (constructFrame now due s))) p k := by
  have hbuf := constructFrame_outBuf now due s
  have hpos := constructFrame_txPos now due s
  have hsent := constructFrame_txSent now due s
  have hpending := constructFrame_txPending now due s
  have hlength : s.outCur ≤ 62 → (encodePayload due (advanceSerial s)).staged.length ≤ 57 :=
    fun h => encodePayload_staged_length_le due h
  generalize constructFrame now due s = c at *
  generalize (encodePayload due (advanceSerial s)).staged = p at *
  have hunsent : unsent c = currentFrame c p := by rw [unsent, hbuf, hpos, List.drop_zero]
  have hroom : c.txPos < c.outCur := by
    rw [hpos, State.outCur, hbuf, currentFrame, encodeFrame_length]
    omega
  have hstart : Delivers s.txSent (currentFrame c p) c :=
    ⟨fun _ => ⟨hbuf, by rw [hsent, hpos, List.take_zero, List.append_nil]⟩,
      fun hno => absurd (hpending.symm.trans hno) nofun⟩
  refine ⟨p, acceptedCount (unsent c) c, hlength, ?_, ?_, ?_⟩ <;> rw [currentFrame_attempted]
  · rw [← hunsent]
    exact txAttempt_log_getLast? c
  · rw [← hunsent, ← hsent]
    exact txAttempt_txSent c
  · exact hstart.handsOver hpending (txAttempt_handsOver hpending hroom)

/-- A tick that moves the serial number had no frame held, and emits a frame (R191, R195). -/
theorem exec_stepCmd_emits {now : Time} {s t : State} (h : exec (.stepCmd now) s = .next t)
    (hmoved : t.mySerial ≠ s.mySerial) : s.txPending = false ∧ ∃ p k, Emits s t p k := by
  obtain ⟨u, hu, rfl⟩ := exec_stepCmd_eq_next h
  have hsame := readerPhase_sameOutput hu
  have hcur : u.outCur = s.outCur := congrArg List.length hsame.outBuf
  rw [respond_mySerial, ← hsame.mySerial] at hmoved
  rcases writerPhase_cases now u with ⟨_, e⟩ | ⟨_, _, e⟩ | ⟨_, hp, _, e⟩ | ⟨_, _, _, e⟩ <;> rw [e] at hmoved ⊢
  · exact absurd rfl hmoved
  · obtain ⟨hserial, _⟩ := txAttempt_keeps u
    exact absurd hserial hmoved
  · obtain ⟨p, k, hlength, hlog, hsent, hdelivers⟩ := attempted_constructFrame_emits now (autoDue now u) u
    rw [hsame.txSent] at hsent hdelivers
    exact ⟨hsame.txPending ▸ hp, p, k, hcur ▸ hlength, hlog, hsent, hdelivers⟩
  · exact absurd rfl hmoved

/-! The receiver: a frame taken in any pieces is accepted (R180, R185, R223) -/

/-- A buffer without a partial candidate: empty, or a lone `55`. -/
def NoCandidate (b : List Byte) : Prop := b = [] ∨ b = [0x55]

/-- How an engine stands that had no partial candidate buffered and has since taken the first bytes `d` of the frame `f`
with serial number `id`: they are buffered, or the frame was whole and is accepted. -/
def HasTaken (f : List Byte) (id : Byte) (d : List Byte) (s : State) : Prop :=
  (d ≠ f ∧ ∃ noise, NoCandidate noise ∧ s.inBuf = noise ++ d) ∨
  (d = f ∧ s.lastRemoteSerial = id ∧ s.gotFirst = true ∧ s.inBuf = [])

/-- Between two ticks the engine stands as it does (R10, R216). -/
theorem HasTaken.sameReader {f : List Byte} {id : Byte} {d : List Byte} {s t : State} (h : HasTaken f id d s)
    (hsame : SameReader s t) : HasTaken f id d t := by
  obtain ⟨hbuf, hserial, hgot⟩ := hsame
  rwa [HasTaken, hbuf, hserial, hgot]

/-- What a tick takes from the transport is what its Reader phase is delivered (R172, R247). -/
theorem delivered_of_readerPhase {s t : State} {e : List Byte} (h : readerPhase s = .next t)
    (he : s.rxHeld = e ++ t.rxHeld) : (fill s).inBuf = s.inBuf ++ e := by
  obtain ⟨hreads, _⟩ := readerPhase_eq_next h
  have hheld : t.rxHeld = (fill s).rxHeld := by rw [hreads.eq]
  rw [hheld, fill_rxHeld] at he
  rw [fill_inBuf, List.append_cancel_right ((delivered_append_drop _ s).symm.trans he)]

theorem encodeFrame_ne_nil (f l : Byte) (p : List Byte) : encodeFrame f l p ≠ [] := nofun

section Receiver

variable {id l : Byte} {p d e : List Byte} {s t : State} (hlen : p.length ≤ 57)

include hlen

/-- Parsing the first bytes of a frame behind no candidate leaves them buffered, or accepts the frame. -/
theorem hasTaken_of_parse {noise : List Byte} (hnoise : NoCandidate noise) (hb : s.inBuf = noise ++ d)
    (hd : d <+: encodeFrame id l p) (h : parse s = .next t) : HasTaken (encodeFrame id l p) id d t := by
  have hpair : ¬[0x55, 0xAA] <:+: noise := by rcases hnoise with rfl | rfl <;> decide
  have htake : d = (encodeFrame id l p).take d.length := List.prefix_iff_eq_take.mp hd
  by_cases hnil : d = []
  · subst hnil
    have hwait : decodeWire s.inBuf = .wait .scanning := by
      rw [hb]
      rcases hnoise with rfl | rfl <;> rfl
    cases (parse_of_wait hwait).symm.trans h
    exact .inl ⟨(encodeFrame_ne_nil id l p).symm, noise, hnoise, hb⟩
  have hhead : d.head? = some 0x55 :=
    htake ▸ head?_take_encodeFrame (List.length_pos_iff.mpr hnil) id l p
  by_cases hwhole : d = encodeFrame id l p
  · rw [parse_noise hb hpair fun _ => hhead] at h
    obtain ⟨hgot, hlast⟩ := parse_frame_eq_next hlen (hwhole.trans (List.append_nil _).symm) h
    obtain ⟨hempty, hserial⟩ := hlast rfl
    exact .inr ⟨hwhole, hserial, hgot, hempty⟩
  · have hshort : d.length < 7 + p.length := by
      have hle := hd.length_le
      have hne : d.length ≠ (encodeFrame id l p).length := fun heq => hwhole (hd.eq_of_length heq)
      rw [encodeFrame_length] at hle hne
      omega
    obtain ⟨st, hwait⟩ := decodeWire_take_encodeFrame hlen hshort id l
    rw [← htake] at hwait
    cases (parse_noise_wait hb hpair (fun _ => hhead) hwait).symm.trans h
    exact .inl ⟨hwhole, [], .inl rfl, rfl⟩

/-- A Reader phase takes the next bytes of the frame, or none after the last. -/
theorem HasTaken.readerPhase (h : HasTaken (encodeFrame id l p) id d s) (hd : d ++ e <+: encodeFrame id l p)
    (ht : readerPhase s = .next t) (he : s.rxHeld = e ++ t.rxHeld) : HasTaken (encodeFrame id l p) id (d ++ e) t := by
  have hfill := delivered_of_readerPhase ht he
  rcases h with ⟨_, noise, hnoise, hb⟩ | ⟨hwhole, hserial, hgot, hempty⟩
  · rw [hb, List.append_assoc] at hfill
    exact hasTaken_of_parse hlen hnoise hfill hd ht
  · have hnone : e = [] := by
      have hle := hd.length_le
      rw [List.length_append, hwhole] at hle
      exact List.eq_nil_of_length_eq_zero (by omega)
    subst hnone
    rw [hempty, List.append_nil] at hfill
    have hwait : decodeWire (fill s).inBuf = .wait .scanning := by rw [hfill]; rfl
    cases (parse_of_wait hwait).symm.trans ht
    exact .inr ⟨(List.append_nil d).trans hwhole, hserial, hgot, hfill⟩

/-- A tick takes what its Reader phase takes (R210, R218). -/
theorem HasTaken.stepCmd {now : Time} (h : HasTaken (encodeFrame id l p) id d s) (hd : d ++ e <+: encodeFrame id l p)
    (ht : exec (.stepCmd now) s = .next t) (he : s.rxHeld = e ++ t.rxHeld) :
    HasTaken (encodeFrame id l p) id (d ++ e) t := by
  obtain ⟨u, hu, rfl⟩ := exec_stepCmd_eq_next ht
  have hw := writerPhase_writes now u
  have hheld : ((writerPhase now u).respond .none).rxHeld = u.rxHeld := by rw [respond_rxHeld, hw.eq]
  have hsame : SameReader u ((writerPhase now u).respond .none) := by
    refine ⟨?_, ?_, ?_⟩ <;> rw [hw.eq] <;> rfl
  rw [hheld] at he
  exact (h.readerPhase hlen hd hu he).sameReader hsame

/-- The ticks over which an engine takes bytes of the frame (R223). -/
theorem Takes.hasTaken (h : Takes s d t) (hs : NoCandidate s.inBuf) (hd : d <+: encodeFrame id l p) :
    HasTaken (encodeFrame id l p) id d t := by
  induction h with
  | none => exact .inl ⟨(encodeFrame_ne_nil id l p).symm, _, hs, (List.append_nil _).symm⟩
  | more _ hsame ht he ih =>
    have hbefore := ih ((List.prefix_append _ _).trans hd)
    exact (hbefore.sameReader hsame).stepCmd hlen hd ht he

end Receiver

/-- What stands for an engine that has taken the whole frame. -/
theorem HasTaken.accepted {f : List Byte} {id : Byte} {s : State} (h : HasTaken f id f s) :
    s.lastRemoteSerial = id ∧ s.gotFirst = true ∧ s.inBuf = [] := by
  rcases h with ⟨hne, _⟩ | ⟨_, hin⟩
  · exact absurd rfl hne
  · exact hin

/-! The loopback (R223) -/

/-- The third and fourth bytes of a frame (R80). -/
theorem currentFrame_getD (s : State) (p : List Byte) :
    (currentFrame s p).getD 2 0 = s.mySerial ∧ (currentFrame s p).getD 3 0 = s.lastRemoteSerial := ⟨rfl, rfl⟩

/-- Settles O60: the sender emits the frame and delivers it; the receiver has taken it, and the frame it emits carries its
`lastRemoteSerial`. -/
theorem loopbackConverges : Obligations.LoopbackConverges := by
  unfold Obligations.LoopbackConverges
  intro x x' now hinv hstep hmoved
  obtain ⟨hfree, p, k, hemits⟩ := exec_stepCmd_emits hstep hmoved
  have hinv' : Inv x' := hinv.exec_command (.stepCmd now) hstep
  obtain ⟨_, hengine, _⟩ := hinv
  obtain ⟨_, hroom⟩ := hengine.out.free hfree
  have hlen : p.length ≤ 57 := hemits.length hroom
  refine ⟨p, currentFrame x' p, k, hlen, encodeFrame_eq _ _ _, hemits.log, hemits.sent, fun z hz => ?_, fun y hy => ?_⟩
  · obtain ⟨_, hdone⟩ := hemits.delivers.transmits hinv' hz
    exact hdone
  refine ⟨fun y' htakes => (htakes.hasTaken hlen hy (List.prefix_refl _)).accepted, ?_⟩
  intro d e t u v now' htakes hsame _ hstep' he hde hmoved'
  have hbefore := htakes.hasTaken hlen hy (hde ▸ List.prefix_append d e)
  have hafter := (hbefore.sameReader hsame).stepCmd hlen (hde ▸ List.prefix_refl _) hstep' he
  rw [hde] at hafter
  obtain ⟨hserial, _⟩ := HasTaken.accepted hafter
  obtain ⟨_, q, j, hreply⟩ := exec_stepCmd_emits hstep' hmoved'
  obtain ⟨hthird, hfourth⟩ := currentFrame_getD v q
  exact ⟨currentFrame v q, j, hreply.log, hreply.sent, hthird, hfourth.trans hserial⟩

end Sys2Proof.Machine

/-! PROOFS. The family of spec/60_exceptions.md: no input stops the machine (R230), the hook calls (R236, R238, R240), and the
transport calls (R247, R248). -/

namespace Sys2Proof.Machine

/-! The writes of a hook (R240) -/

theorem hookStores_append : ∀ (w w' : List (Addr × Byte)) (s : State),
    hookStores (w ++ w') s = hookStores w' (hookStores w s)
  | [], _, _ => rfl
  | (a, v) :: rest, w', s => hookStores_append rest w' (appStore a v s)

/-- A byte at an address the hook does not list keeps its value. -/
theorem byteAt_hookStores_out {a : Addr} : ∀ {w : List (Addr × Byte)} (s : State), a ∉ w.map Prod.fst →
    (hookStores w s).byteAt a = s.byteAt a
  | [], _, _ => rfl
  | (b, v) :: rest, s, h => by
    obtain ⟨hne, hrest⟩ : a ≠ b ∧ a ∉ rest.map Prod.fst := by simpa using h
    calc (hookStores rest (appStore b v s)).byteAt a
        = (appStore b v s).byteAt a := byteAt_hookStores_out _ hrest
      _ = s.byteAt a := byteAt_appStore_ne v s hne

/-- Of the bytes listed for an address the last one stands there afterwards. -/
theorem byteAt_hookStores_last {a : Addr} {v : Byte} {later : List (Addr × Byte)} (before : List (Addr × Byte)) {s : State}
    (hwf : s.mem.wf = true) (hlast : a ∉ later.map Prod.fst) :
    (hookStores (before ++ (a, v) :: later) s).byteAt a = v := by
  rw [hookStores_append, hookStores, byteAt_hookStores_out _ hlast]
  exact byteAt_appStore_same v (hookStores_wf before hwf)

/-! The hook calls (R236, R238) -/

/-- A hook that never returns stops the call by name (log entry 15). -/
theorem callHook_hangs {s : State} {answers : List HookAnswer} (h : s.hookAnswers = .hangs :: answers) :
    callHook s = .fault .hookHangs := by
  rw [callHook, h]

theorem notifyDiscard_hangs {s : State} {answers : List HookAnswer} (h : s.hookAnswers = .hangs :: answers)
    (b : List Byte) : notifyDiscard b s = .fault .hookHangs := by
  rw [notifyDiscard, callHook_hangs (s := s.emit (.discard b)) h]
  rfl

theorem unknownHook_hangs {s : State} {answers : List HookAnswer} (h : s.hookAnswers = .hangs :: answers)
    (t : Byte) (rest : List Byte) : unknownHook t rest s = .fault .hookHangs :=
  callHook_hangs (s := s.emit (.unknownHook t rest)) h

theorem exec_notifyDiscard (b : List Byte) (s : State) : exec (.notifyDiscard b) s = notifyDiscard b s := rfl

theorem exec_unknownHook (t : Byte) (rest : List Byte) (s : State) : exec (.unknownHook t rest) s =
    andThen (unknownHook t rest s) fun r => .next (r.1.give (.count r.2)) := rfl

/-- Settles O57: what the listed writes do to memory, and then the two calls by the next answer announced. -/
theorem hookCallsAnswer : Obligations.HookCallsAnswer := by
  unfold Obligations.HookCallsAnswer
  refine ⟨fun writes z hwf => ?_, fun bytes rest typ s => ⟨fun hdef => ?_, fun c writes answers hret => ?_,
    fun answers hhang => ?_⟩⟩
  · obtain ⟨m, hm⟩ := hookStores_eq writes z
    refine ⟨m, hm, fun before a v later hw hlast => ?_, fun a ha => byteAt_hookStores_out z ha⟩
    rw [hw]
    exact byteAt_hookStores_last before hwf hlast
  · rw [exec_notifyDiscard, exec_unknownHook, notifyDiscard_default hdef, unknownHook_default hdef]
    exact ⟨rfl, rfl⟩
  · rw [exec_notifyDiscard, exec_unknownHook, notifyDiscard_returns hret, unknownHook_returns hret]
    exact ⟨rfl, _, rfl, rfl⟩
  · rw [exec_notifyDiscard, exec_unknownHook, notifyDiscard_hangs hhang, unknownHook_hangs hhang]
    exact ⟨rfl, rfl⟩

/-! The transport calls (R247, R248) -/

theorem exec_transportRead (n : Nat) (s : State) : exec (.transportRead n) s =
    .next ((transportRead n s).give (.bytes (delivered n s))) := rfl

theorem exec_transportWrite (b : List Byte) (s : State) : exec (.transportWrite b) s =
    .next ((transportWrite b s).give (.count (acceptedCount b s))) := rfl

/-- Settles O58: a read moves `delivered`, the head of what is held; a write moves the first `acceptedCount` bytes. -/
theorem transportsMoveWhatTheyChoose : Obligations.TransportsMoveWhatTheyChoose := by
  unfold Obligations.TransportsMoveWhatTheyChoose
  refine ⟨fun n s => ?_, fun bytes s => ?_⟩
  · exact ⟨delivered n s, _, delivered_append_drop n s, delivered_length n s, exec_transportRead n s⟩
  · exact ⟨acceptedCount bytes s, acceptedCount_le bytes s, rfl, exec_transportWrite bytes s⟩

/-! No input stops the machine (R230) -/

theorem presentable_command {s : State} {p : PortCmd} {rest : List Input} (h : s.inputs = .command p :: rest) :
    Presentable s ↔ (p.op = 0x0B → p.size.toNat ≤ p.data.length) := by
  rw [Presentable, h]
  rfl

/-- Every presentation of R90 decodes: only ENQ can lack data. -/
theorem decodePort_completes {p : PortCmd} (h : p.op = 0x0B → p.size.toNat ≤ p.data.length) :
    ∃ i, decodePort p = .ok i := by
  by_cases henq : p.op = 0x0B
  · exact ⟨_, decodePort_enq henq (h henq)⟩
  · unfold decodePort
    split
    case h_11 hop => exact absurd (BitVec.eq_of_toNat_eq hop) henq
    all_goals exact ⟨_, rfl⟩

/-- A command always completes while the hooks return: STEP alone calls them, in its Reader phase. -/
theorem exec_command_completes {i : Instr} {s : State} (hi : IsCommand i) (h : HooksReturn s) :
    ∃ t, exec i s = .next t := by
  cases hi with
  | stepCmd now =>
    obtain ⟨u, hu⟩ := readerPhase_completes h
    exact ⟨_, exec_stepCmd_of_readerPhase hu now⟩
  | bind | beginCmd | rser | isrx | clrx | take | takep | send | sendp | enq | reserved => exact ⟨_, rfl⟩

/-- Settles O8, by the next input: none, an event of the outside, or a command, which decodes and completes. -/
theorem noStepStops : Obligations.NoStepStops := by
  unfold Obligations.NoStepStops
  intro s hhooks hpresent
  rcases hin : s.inputs with _ | ⟨p | e, rest⟩
  case nil => exact ⟨s, step_idle hin⟩
  case cons.env => exact ⟨_, step_env hin⟩
  case cons.command =>
    obtain ⟨i, hdecode⟩ := decodePort_completes ((presentable_command hin).mp hpresent)
    rw [step_command hin hdecode]
    exact exec_command_completes (isCommand_of_decodePort hdecode) hhooks

end Sys2Proof.Machine

/-! PROOFS. The family of spec/70_reset_and_hazards.md: the reset input gives the reset state, and `begin(false)` after it
changes nothing that the spec specifies (R260, R261). -/

namespace Sys2Proof.Machine

/-! The reset input (R260) -/

/-- Of the state before, the reset input keeps what lies outside the block (log entry 21), and takes the next free value for
the accumulator (log entry 9). -/
theorem hardwareReset_eq (s : State) : hardwareReset s =
    { State.reset with
      mem := s.mem, rxHeld := s.rxHeld, rxCounts := s.rxCounts, txSent := s.txSent, txCounts := s.txCounts,
      hookAnswers := s.hookAnswers, inputs := s.inputs, log := s.log,
      crcAcc := Config.freeCrc s.freeIdx, freeIdx := s.freeIdx + 1 } := rfl

/-- With the reset input as the next one, a step resets the block. -/
theorem step_reset {s : State} {rest : List Input} (h : s.inputs = .env .reset :: rest) :
    step s = .next (hardwareReset { s with inputs := rest }) := step_env h

/-! The command `begin` (R216) -/

/-- With `begin` as the next input, a step runs `beginEngine` and presents no response. -/
theorem step_begin {s : State} {w : Bool} {rest : List Input}
    (h : s.inputs = .command { op := 0x02, flag := w } :: rest) :
    step s = .next ((beginEngine w { s with inputs := rest }).respond .none) := step_command h rfl

/-- After the reset input the output buffer is the five header bytes, which `begin` keeps (log entry 10). -/
theorem take_hardwareReset_outBuf (s : State) :
    (hardwareReset s).outBuf.take Config.engine.hdrLen = (hardwareReset s).outBuf :=
  List.take_of_length_le List.length_replicate.le

/-- R261: every register that `begin(false)` writes has its value already after the reset input, but for the accumulator,
which takes the next free value. -/
theorem begin_after_reset (s : State) (rest : List Input) :
    (beginEngine false { hardwareReset s with inputs := rest }).respond .none =
      { hardwareReset s with
        inputs := rest, crcAcc := Config.freeCrc (s.freeIdx + 1), freeIdx := s.freeIdx + 1 + 1 } := by
  rw [beginEngine, take_hardwareReset_outBuf]
  rfl

/-- Settles O3: the first step is the reset input, and the second a `begin(false)` after it. -/
theorem resetInputIsResetThenBeginFalse : Obligations.ResetInputIsResetThenBeginFalse := by
  unfold Obligations.ResetInputIsResetThenBeginFalse
  intro s rest hin
  have hsecond := step_begin (s := hardwareReset { s with inputs := .command { op := 0x02, flag := false } :: rest }) rfl
  exact ⟨_, _, State.reset.outBuf, _, _, _, _, rfl, step_reset hin, hardwareReset_eq _, hsecond,
    begin_after_reset _ rest⟩

end Sys2Proof.Machine
